-- ==== Sys2Proof/Word.lean ====
section
/-! DEFINITION. The values the engine works on: 32-bit words, bytes, 4-bit cells, 4×4 matrices and the key material. -/

namespace Sys2Proof

/-- A register value or command word, bit 0 least significant (R14, R83). -/
abbrev Word := BitVec 32

/-- One byte lane of the window (R83). -/
abbrev Byte := BitVec 8

/-- A cell: 4 bits for every variant (R8). -/
abbrev Cell := BitVec 4

/-- A 4×4 matrix of cells in row-major order: index `4i + j` is row i, column j (R15, R140). -/
abbrev Mat4 := Vector Cell 16

/-- The key material: 25 rows of 4 cells, index `4ρ + c` (R9, R48). -/
abbrev KeyCells := Vector Cell 100

/-- Number of rows of the key material (R10 `KEY_ROWS`). -/
abbrev keyRows : Nat := 25

/-- Length of the round-constant table, the round limit of Variants A and B (R10 `R_MAX_AB`). -/
abbrev rMaxAB : Nat := 62

end Sys2Proof
end

