-- ==== Sys2Proof/Syntax.lean ====
section
/-! DEFINITION. The nineteen commands of the opcode map (R116), one constructor per row, with their operands as the assembler
writes them (R120): `r` a round index, `w` a tweakey word index, `x` an LFSR input cell. -/

namespace Sys2Proof

/-- A command of the engine (R19 "command", R116). -/
inductive Instr where
  /-- no operation (R310) -/
  | nop
  /-- `STATE <- STATE XOR AUX` (R143) -/
  | xors
  /-- `AUX <- STATE` (R144) -/
  | cpsa
  /-- forward LFSR of word `w` on `x` (R170) -/
  | lff (w : Nat) (x : Cell)
  /-- inverse LFSR of word `w` on `x` (R171) -/
  | lfi (w : Nat) (x : Cell)
  /-- SubCells (R210) -/
  | sc
  /-- inverse SubCells (R211) -/
  | sci
  /-- AddConstants of round `r` (R212) -/
  | ac (r : Nat)
  /-- AddRoundTweakey of round `r` (R213) -/
  | art (r : Nat)
  /-- ShiftRows (R214) -/
  | sr
  /-- inverse ShiftRows (R215) -/
  | sri
  /-- MixColumns (R216) -/
  | mc
  /-- inverse MixColumns (R217) -/
  | mci
  /-- forward tweakey schedule (R250) -/
  | ksf
  /-- inverse tweakey schedule (R251) -/
  | ksi
  /-- encryption (R280) -/
  | enc
  /-- decryption (R281) -/
  | dec
  /-- forward round of index `r` (R282) -/
  | rnde (r : Nat)
  /-- inverse round of index `r` (R283) -/
  | rndd (r : Nat)
deriving DecidableEq, Repr

end Sys2Proof
end

