-- ==== Sys2Proof/WellFormed.lean ====
section
/-! DEFINITION. Which commands the assembler accepts: every operand fits its field (R120). An operand out of range is an
assembly error, not a word. The cell operand `x` fits by its type. -/

namespace Sys2Proof

/-- A round index fits `RIDX`, 8 bits (R110, R112). -/
def ridxFits (r : Nat) : Bool := decide (r ≤ 255)

/-- A tweakey word index fits `W`, 4 bits (R110, R113). -/
def wordFits (w : Nat) : Bool := decide (w ≤ 15)

/-- Every operand is in the range R120 gives it. Legality under a variant is no part of this: it is checked when the command
runs (R332). -/
def Instr.wellFormed : Instr → Bool
  | .nop => true
  | .xors => true
  | .cpsa => true
  | .lff w _ => wordFits w
  | .lfi w _ => wordFits w
  | .sc => true
  | .sci => true
  | .ac r => ridxFits r
  | .art r => ridxFits r
  | .sr => true
  | .sri => true
  | .mc => true
  | .mci => true
  | .ksf => true
  | .ksi => true
  | .enc => true
  | .dec => true
  | .rnde r => ridxFits r
  | .rndd r => ridxFits r

end Sys2Proof
end

