-- ==== Sys2Proof/Decode.lean ====
section
/-! DEFINITION. Command words: the total strict decoder of R111, R117, R119, the encoder of R116 and the assembler of R120,
and the opcode map itself as a table. -/

namespace Sys2Proof

/-- Why a word is no command. All three are the fault `ILLEGAL_OPCODE` (R111). -/
inductive DecodeError where
  /-- `OPC` is not in the opcode map (R117) -/
  | unknownOpcode
  /-- `v[31:24] != 0` -/
  | reservedBits
  /-- a field the opcode does not use is not 0 -/
  | unusedField
deriving DecidableEq, Repr

/-! ### Fields of CMD32 (R110) -/

/-- `OPC`, bits 7:0. -/
def opcField (v : Word) : Nat := (v.extractLsb' 0 8).toNat

/-- `RIDX`, bits 15:8, an unsigned round index (R112). -/
def ridxField (v : Word) : Nat := (v.extractLsb' 8 8).toNat

/-- `W`, bits 19:16, an unsigned word index (R113). -/
def wField (v : Word) : Nat := (v.extractLsb' 16 4).toNat

/-- `X`, bits 23:20, a cell (R114). -/
def xField (v : Word) : Cell := v.extractLsb' 20 4

/-- Bits 31:24, reserved. -/
def reservedField (v : Word) : Byte := v.extractLsb' 24 8

/-! ### Decoding -/

/-- A command that uses no field: `RIDX`, `W` and `X` must be 0. -/
def decodePlain (v : Word) (i : Instr) : Except DecodeError Instr :=
  if reservedField v ≠ 0 then .error .reservedBits
  else if ridxField v ≠ 0 ∨ wField v ≠ 0 ∨ xField v ≠ 0 then .error .unusedField
  else .ok i

/-- A command that uses `RIDX` only. -/
def decodeRidx (v : Word) (mk : Nat → Instr) : Except DecodeError Instr :=
  if reservedField v ≠ 0 then .error .reservedBits
  else if wField v ≠ 0 ∨ xField v ≠ 0 then .error .unusedField
  else .ok (mk (ridxField v))

/-- A command that uses `W` and `X` only. -/
def decodeWX (v : Word) (mk : Nat → Cell → Instr) : Except DecodeError Instr :=
  if reservedField v ≠ 0 then .error .reservedBits
  else if ridxField v ≠ 0 then .error .unusedField
  else .ok (mk (wField v) (xField v))

/-- The decoder: every word is exactly one command or illegal (R111, R117, R119). It reads nothing but the word. -/
def decode (v : Word) : Except DecodeError Instr :=
  match opcField v with
  | 0x00 => decodePlain v .nop
  | 0x01 => decodePlain v .xors
  | 0x02 => decodePlain v .cpsa
  | 0x08 => decodeWX v .lff
  | 0x09 => decodeWX v .lfi
  | 0x10 => decodePlain v .sc
  | 0x11 => decodePlain v .sci
  | 0x12 => decodeRidx v .ac
  | 0x13 => decodeRidx v .art
  | 0x14 => decodePlain v .sr
  | 0x15 => decodePlain v .sri
  | 0x16 => decodePlain v .mc
  | 0x17 => decodePlain v .mci
  | 0x20 => decodePlain v .ksf
  | 0x21 => decodePlain v .ksi
  | 0x30 => decodePlain v .enc
  | 0x31 => decodePlain v .dec
  | 0x32 => decodeRidx v .rnde
  | 0x33 => decodeRidx v .rndd
  | _ => .error .unknownOpcode

/-! ### Encoding -/

/-- `opc | (r << 8)` (R120). -/
def encodeRidx (opc : Word) (r : Nat) : Word := opc ||| (BitVec.ofNat 32 r <<< 8)

/-- `opc | (w << 16) | (x << 20)` (R120). -/
def encodeWX (opc : Word) (w : Nat) (x : Cell) : Word :=
  opc ||| (BitVec.ofNat 32 w <<< 16) ||| (x.setWidth 32 <<< 20)

/-- The word of a well-formed command (R116, R120). -/
def encode : Instr → Word
  | .nop => 0x00#32
  | .xors => 0x01#32
  | .cpsa => 0x02#32
  | .lff w x => encodeWX 0x08#32 w x
  | .lfi w x => encodeWX 0x09#32 w x
  | .sc => 0x10#32
  | .sci => 0x11#32
  | .ac r => encodeRidx 0x12#32 r
  | .art r => encodeRidx 0x13#32 r
  | .sr => 0x14#32
  | .sri => 0x15#32
  | .mc => 0x16#32
  | .mci => 0x17#32
  | .ksf => 0x20#32
  | .ksi => 0x21#32
  | .enc => 0x30#32
  | .dec => 0x31#32
  | .rnde r => encodeRidx 0x32#32 r
  | .rndd r => encodeRidx 0x33#32 r

/-- The assembler: an operand out of range is an error, not a word (R120). -/
def assemble (i : Instr) : Option Word := if i.wellFormed then some (encode i) else none

/-! ### The opcode map as a table (R116) -/

/-- `match` and `mask` of a row of R116. -/
structure OpcodeRow where
  matchBits : Word
  maskBits : Word
deriving DecidableEq, Repr

/-- The row of R116 a command belongs to. -/
def opcodeRow : Instr → OpcodeRow
  | .nop => ⟨0x00000000#32, 0xFFFFFFFF#32⟩
  | .xors => ⟨0x00000001#32, 0xFFFFFFFF#32⟩
  | .cpsa => ⟨0x00000002#32, 0xFFFFFFFF#32⟩
  | .lff _ _ => ⟨0x00000008#32, 0xFF00FFFF#32⟩
  | .lfi _ _ => ⟨0x00000009#32, 0xFF00FFFF#32⟩
  | .sc => ⟨0x00000010#32, 0xFFFFFFFF#32⟩
  | .sci => ⟨0x00000011#32, 0xFFFFFFFF#32⟩
  | .ac _ => ⟨0x00000012#32, 0xFFFF00FF#32⟩
  | .art _ => ⟨0x00000013#32, 0xFFFF00FF#32⟩
  | .sr => ⟨0x00000014#32, 0xFFFFFFFF#32⟩
  | .sri => ⟨0x00000015#32, 0xFFFFFFFF#32⟩
  | .mc => ⟨0x00000016#32, 0xFFFFFFFF#32⟩
  | .mci => ⟨0x00000017#32, 0xFFFFFFFF#32⟩
  | .ksf => ⟨0x00000020#32, 0xFFFFFFFF#32⟩
  | .ksi => ⟨0x00000021#32, 0xFFFFFFFF#32⟩
  | .enc => ⟨0x00000030#32, 0xFFFFFFFF#32⟩
  | .dec => ⟨0x00000031#32, 0xFFFFFFFF#32⟩
  | .rnde _ => ⟨0x00000032#32, 0xFFFF00FF#32⟩
  | .rndd _ => ⟨0x00000033#32, 0xFFFF00FF#32⟩

/-- A word encodes the row's command when `(v & mask) == match` (R116). -/
def OpcodeRow.covers (row : OpcodeRow) (v : Word) : Bool := (v &&& row.maskBits) == row.matchBits

/-- One command of each row, operands 0: the whole map in the order of R116. -/
def opcodeMap : List Instr :=
  [.nop, .xors, .cpsa, .lff 0 0, .lfi 0 0, .sc, .sci, .ac 0, .art 0, .sr] ++
  [.sri, .mc, .mci, .ksf, .ksi, .enc, .dec, .rnde 0, .rndd 0]

/-! ### The host's view of the table -/

/-- The word of an instruction whose table bits are `w`: bit 0 of the table is bit 0 of the word, bits from `nbits` up are 0. A
command word is written to CMD as one 32-bit value (R85), so there is no byte order to choose. -/
def tableWord (nbits w : Nat) : Word := BitVec.ofNat 32 (w % 2 ^ nbits)

/-- The instruction the decoder reads from table bits `w`. -/
def decodeTableWord (nbits w : Nat) : Option Instr :=
  match decode (tableWord nbits w) with
  | .ok i => some i
  | .error _ => none

end Sys2Proof
end

