-- ==== Sys2Proof/Machine/Memory.lean ====
section
/-! DEFINITION. The engine's one memory, the schedule memory (R50), as canonical data: its form, reading a byte and a word,
writing a block of bytes. Offsets are byte offsets of the register window (R80, R81). -/

namespace Sys2Proof.Machine

open Sys2Proof

/-- The contents of the schedule memory (R50): (offset, byte) pairs at the window's own byte offsets 0x1000 .. 0x2FFF, offsets
strictly rising, no pair listing the byte 0, which is what an unlisted offset holds (log entry 2). -/
abbrev Memory := List Host.Cell

/-- First offset of the schedule window (R81). -/
abbrev schedBase : Nat := 0x1000

/-- First offset above the schedule window (R81). -/
abbrev schedTop : Nat := 0x3000

/-- The canonical form, for pairs at offsets from `lo` up. -/
def Memory.wfFrom : Nat → Memory → Bool
  | _, [] => true
  | lo, (a, b) :: rest => decide (lo ≤ a) && decide (a < schedTop) && (b != 0) && Memory.wfFrom (a + 1) rest

/-- The canonical form of the schedule memory. -/
def Memory.wf (m : Memory) : Bool := Memory.wfFrom schedBase m

/-- The byte at an offset; an unlisted offset reads 0 (log entry 2). -/
def Memory.read : Memory → Nat → Byte
  | [], _ => 0
  | (k, b) :: rest, a => if k = a then b else Memory.read rest a

/-- The 32-bit word at an offset, little-endian byte lanes: byte `off + k` carries bits `8k+7 : 8k` (R83). -/
def Memory.readWord (m : Memory) (off : Nat) : Word :=
  Memory.read m (off + 3) ++ Memory.read m (off + 2) ++ Memory.read m (off + 1) ++ Memory.read m off

/-- The pairs that list consecutive bytes from an offset up. -/
def Memory.cellsFrom : Nat → List Byte → Memory
  | _, [] => []
  | a, b :: bs => if b = 0 then Memory.cellsFrom (a + 1) bs else (a, b) :: Memory.cellsFrom (a + 1) bs

/-- Write consecutive bytes from an offset up; every other offset keeps its byte. -/
def Memory.writeBlock (m : Memory) (off : Nat) (bytes : List Byte) : Memory :=
  m.filter (fun c => decide (c.1 < off)) ++ Memory.cellsFrom off bytes ++
    m.filter (fun c => decide (off + bytes.length ≤ c.1))

/-- The bytes of a 32-bit word in the order of their offsets (R83). -/
def wordBytes (v : Word) : List Byte := [v.extractLsb' 0 8, v.extractLsb' 8 8, v.extractLsb' 16 8, v.extractLsb' 24 8]

/-- A canonical memory: what the schedule memory may hold when its contents are unspecified. -/
structure SchedContents where
  cells : Memory := []
  wf : Memory.wf cells = true := by decide
deriving Inhabited

end Sys2Proof.Machine
end

