-- ==== Sys2Proof/Config.lean ====
section
/-! DEFINITION. What the spec leaves OPEN (R10): the parameters of the hardware with the constraints of R10 and R11, and the
free values. Nothing here has a value that a proof can see: `Config.params` and the free values are opaque constants. -/

namespace Sys2Proof

/-- An LFSR of the engine: a linear function on 4-bit values (R160, R11) that is a bijection (R10). -/
structure Lfsr where
  fn : Cell → Cell := id
  linear : ∀ x y, fn (x ^^^ y) = fn x ^^^ fn y := by intro x y; rfl
  injective : ∀ x y, fn x = fn y → x = y := by intro x y h; exact h
deriving Inhabited

/-- An LFSR with its inverse, the two tables of a Variant C tweakey word, with the duality of R11 and R164. -/
structure LfsrPair where
  fwd : Cell → Cell := id
  inv : Cell → Cell := id
  linear : ∀ x y, fwd (x ^^^ y) = fwd x ^^^ fwd y := by intro x y; rfl
  inv_fwd : ∀ x, inv (fwd x) = x := by intro x; rfl
  fwd_inv : ∀ x, fwd (inv x) = x := by intro x; rfl
deriving Inhabited

/-- What a bus error response does to the host (R10 `BUSERR_EFFECT`, R82): an exception, an ignored error, or a value. DESIGN
CHOICE: the value has 32 bits, for an access of 8, 16 or 64 bits too; R10 and R82 give no width (log entry 22). -/
inductive BusErrEffect where
  | exception
  | ignored
  | value (v : Word)
deriving DecidableEq, Repr, Inhabited

/-- The OPEN parameters of R10, each with its constraint. The default of a field only shows that a configuration exists (an
opaque constant needs an inhabited type); no proof can see it, because `Config.params` below is opaque. `LAT` is no field: it is
the place of the engine's turn among the events of a run (log entry 7). -/
structure Params where
  /-- `R_MAX_C`, the round limit of Variant C -/
  rMaxC : Nat := 1
  rMaxC_range : 1 ≤ rMaxC ∧ rMaxC ≤ 255 := by decide
  /-- `R_DEF_B4`, the default round count of Variant B with four words -/
  rDefB4 : Nat := 1
  rDefB4_range : 1 ≤ rDefB4 ∧ rDefB4 ≤ rMaxAB := by decide
  /-- `R_DEF_C`, the default round count of Variant C -/
  rDefC : Nat := 1
  rDefC_range : 1 ≤ rDefC ∧ rDefC ≤ rMaxC := by decide
  /-- `LFSR_B4`, the LFSR of Variant B's fourth word -/
  lfsrB4 : Lfsr
  /-- `LFSR_C[1]` and `LFSR_C_INV[1]` -/
  lfsrC1 : LfsrPair
  /-- `LFSR_C[2]` and `LFSR_C_INV[2]` -/
  lfsrC2 : LfsrPair
  /-- `LFSR_C[3]` and `LFSR_C_INV[3]` -/
  lfsrC3 : LfsrPair
  /-- `RCC(seed, r)`, a function of the seed and the round index alone (R12) -/
  rcc : BitVec 3 → Nat → Mat4
  /-- `BASE`, the platform address of the window, aligned to 16 KiB -/
  base : Nat := 0
  base_aligned : base % 16384 = 0 := by decide
  /-- `N_ENGINES`, the number of independent instances on the platform (R363; log entry 13) -/
  nEngines : Nat := 1
  nEngines_pos : 1 ≤ nEngines := by decide
  /-- `BUSERR_EFFECT`. DESIGN CHOICE: one effect for every bus error, whatever the access (log entry 22). -/
  busErrEffect : BusErrEffect
deriving Inhabited

/-- The configuration of this engine: any one that meets R10 and R11 (log entry 10). -/
opaque Config.params : Params

/-- Free value: what the n-th read of a data register while BUSY returns (R88, U1; log entry 4). -/
opaque Config.freeWord : Nat → Word

/-- Free value: the unspecified contents of STATE or AUX after a reset (R380, R382, U2, U3; log entry 3). -/
opaque Config.freeMatrix : Nat → Mat4

/-- Free value: the unspecified contents of KEY after a reset (log entry 3). -/
opaque Config.freeKey : Nat → KeyCells

/-- Free value: the unspecified bits 3:0 of RESULT after a reset (log entry 3). -/
opaque Config.freeCell : Nat → Cell

/-- Free value: the unspecified contents of the schedule memory after a reset, in canonical form (log entry 3). -/
opaque Config.freeSched : Nat → Machine.SchedContents

end Sys2Proof
end

