-- ==== Sys2Proof/Machine/State.lean ====
section
/-! DEFINITION. The state of the engine as `10_state.md` gives it, the events and answers of its host interface, the reasons a
step can stop (none is ever given), and the machine right after reset. -/

namespace Sys2Proof.Machine

open Sys2Proof

/-- The engine's fault codes (R331). They are STATES of the engine (R340), not stops of the model. -/
inductive FaultCode where
  | illegalOpcode
  | badVariant
  | notImplemented
  | badTkCount
  | badRounds
  | badRoundIndex
  | badLfsrWord
  | badKeyFormat
  | schedInvalid
deriving DecidableEq, Repr

/-- The phase (R52). -/
inductive Phase where
  | idle
  | busy
  | fault
deriving DecidableEq, Repr

/-- The fields of CFG (R36, R37, R38). Its reserved bits read 0 and ignore writes, so they are no state. -/
structure Cfg where
  /-- bits 1:0 -/
  variant : BitVec 2
  /-- bits 6:4 -/
  z : BitVec 3
  /-- bits 15:8 -/
  rounds : BitVec 8
deriving DecidableEq, Repr

/-- Which registers have been written since a reset, for the registers R385 names: those that reset leaves unspecified (R57's
"holding no value until the host or a command writes it"), and CFG. The marks are the model's own (log entry 6); no instruction
reads them, `Safety.readsWritten` does. -/
structure Written where
  cfg : Bool
  state0 : Bool
  state1 : Bool
  aux0 : Bool
  aux1 : Bool
  result : Bool
  key : Vector Bool 13
deriving DecidableEq, Repr

/-- The engine (R30 to R57). Flags that are views of the phase (STATUS.BUSY, STATUS.FAULT) and constants (ID, CAPS) are no
fields; the IRQ output is `irq`. -/
structure Engine where
  /-- IDLE, BUSY or FAULT (R52) -/
  phase : Phase
  /-- `CTRL.IE` (R35) -/
  ie : Bool
  /-- `STATUS.DONE` (R40) -/
  done : Bool
  /-- `STATUS.OVR` (R40) -/
  ovr : Bool
  /-- `STATUS.ECODE` (R40, R331); `none` is the code 0 -/
  ecode : Option FaultCode
  /-- `CFG` (R36 to R38) -/
  cfg : Cfg
  /-- the latched command word (R42, R53), meaningful while BUSY -/
  cmd : Word
  /-- `FCMD` (R46) -/
  fcmd : Word
  /-- `STATE` (R33) -/
  state : Mat4
  /-- `AUX` (R34) -/
  aux : Mat4
  /-- `KEY` (R48) -/
  key : KeyCells
  /-- `RESULT` bits 3:0 (R43) -/
  result : Cell
  /-- `SCHED_LEN` bits 8:0 (R47) -/
  schedLen : BitVec 9
  /-- the schedule memory (R50) -/
  sched : Memory
  /-- the model's marks of R57 and R385 -/
  written : Written
deriving DecidableEq, Repr

/-- The width of a bus access (R82). -/
inductive AccessWidth where
  | w8
  | w16
  | w32
  | w64
deriving DecidableEq, Repr

/-- A bus access reads, or writes a value. Only 32-bit accesses reach a register, so 32 bits of data are kept (R82; log entry 19). -/
inductive AccessKind where
  | read
  | write (v : Word)
deriving DecidableEq, Repr

/-- One access of one host to the engine's window, at a byte offset from BASE (R80; log entry 15). -/
structure Access where
  host : Nat
  off : Nat
  width : AccessWidth
  kind : AccessKind
deriving DecidableEq, Repr

/-- What happens next at the engine: an input from outside, or the engine's own turn (R30, R90). -/
inductive Event where
  /-- an access of a host arrives -/
  | access (a : Access)
  /-- the platform's reset input (R380) -/
  | hardReset
  /-- the engine's turn: it completes the latched command if it is BUSY, and does nothing otherwise -/
  | engineTurn
deriving DecidableEq, Repr

/-- The bus response to an access. -/
inductive Response where
  /-- a read's value -/
  | data (v : Word)
  /-- a write's completion; an ignored write completes too (R56) -/
  | ack
  /-- `BusError()` with the platform's effect on the host (R82, R345) -/
  | busError (e : BusErrEffect)
deriving DecidableEq, Repr

/-- A response and the host it goes to. -/
structure Answer where
  host : Nat
  response : Response
deriving DecidableEq, Repr

/-- The machine: the engine, the events still to come (the host side as plain data, log entry 7), what the bus has answered so
far, newest first (log entry 8), and the number of free values drawn (log entry 5). -/
structure State where
  engine : Engine
  pending : List Event
  answers : List Answer
  draws : Nat
deriving DecidableEq, Repr

/-- Reasons for the machine to stop with a fault: there are none. The nine faults of R331 are entered as states (R340) and a
bus error is an answer (R345), so no step ends here. -/
inductive Fault where
deriving DecidableEq, Repr

/-- Reasons to refuse an instruction. -/
inductive Refusal where
  /-- Raised by an arm of `exec` for an instruction without a meaning; safe. No arm raises it. -/
  | notModelled (mnemonic : String)
deriving DecidableEq, Repr

/-- No register has been written. -/
abbrev Written.nothing : Written :=
  { cfg := false, state0 := false, state1 := false, aux0 := false, aux1 := false, result := false, key := Vector.replicate 13 false }

/-- CFG after reset: `0x00000000` (R36, R57). -/
abbrev Cfg.zero : Cfg := { variant := 0, z := 0, rounds := 0 }

/-- The engine right after a hard reset (R57). The registers R57 leaves unspecified hold 0 here: DESIGN CHOICE, log entries 1
and 2. The hidden latch holds 0: DESIGN CHOICE, log entry 12. -/
def Engine.reset : Engine :=
  { phase := .idle, ie := false, done := false, ovr := false, ecode := none, cfg := Cfg.zero, cmd := 0, fcmd := 0,
    state := Vector.replicate 16 0, aux := Vector.replicate 16 0, key := Vector.replicate 100 0, result := 0,
    schedLen := 0, sched := [], written := Written.nothing }

/-- The machine right after reset, with no host access under way. -/
def State.reset : State := { engine := Engine.reset, pending := [], answers := [], draws := 0 }

end Sys2Proof.Machine
end

