-- ==== Sys2Proof/Machine/Operands.lean ====
section
/-! DEFINITION. Cells, matrices and their packing into words (R15, R84), the views of KEY (R48), the schedule memory by entry
and word (R50), and the fields of CFG the commands use (R36 to R38). -/

namespace Sys2Proof.Machine

open Sys2Proof

/-! ### Cells and matrices -/

/-- Cell `n` of a register of `k` cells. Every use has `n < k`; the 0 beyond the end is never read. -/
def cellAt {k : Nat} (m : Vector Cell k) (n : Nat) : Cell := if h : n < k then m[n] else 0

/-- The matrix whose cell `n` is `f n`. -/
def tabulate (f : Nat → Cell) : Mat4 := Vector.ofFn fun n => f n.val

/-- Cell-wise XOR of two matrices (R16, R141). -/
def xorMat (a b : Mat4) : Mat4 := tabulate fun n => cellAt a n ^^^ cellAt b n

/-- A table of 16 entries indexed by a cell (R16 `T[x]`). -/
def cellTable (t : List Nat) (x : Cell) : Cell := BitVec.ofNat 4 (t.getD x.toNat 0)

/-- The matrix whose cell `n` is cell `t[n]` of `m` (the form of R198, R199, R241). -/
def permuteCells (t : List Nat) (m : Mat4) : Mat4 := tabulate fun n => cellAt m (t.getD n 0)

/-! ### Packing (R84) -/

/-- The word that holds cells `c 0 .. c 7`, most significant nibble first. -/
def packWord (c : Nat → Cell) : Word := c 0 ++ c 1 ++ c 2 ++ c 3 ++ c 4 ++ c 5 ++ c 6 ++ c 7

/-- Cell `i` of a packed word: bits `31-4i : 28-4i`. -/
def wordCell (v : Word) (i : Nat) : Cell := v.extractLsb' (28 - 4 * i) 4

/-- Word `h` of a register of cells: cells `8h .. 8h+7`. -/
def cellsWord {k : Nat} (m : Vector Cell k) (h : Nat) : Word := packWord fun i => cellAt m (8 * h + i)

/-- A register of cells with its cells `8h .. 8h+7` taken from a word; cells the register does not have are dropped. -/
def withCellsWord {k : Nat} (m : Vector Cell k) (h : Nat) (v : Word) : Vector Cell k :=
  Vector.ofFn fun n => if n.val / 8 = h then wordCell v (n.val % 8) else m[n]

/-- The matrix of two words (R84). -/
def matOfWords (v0 v1 : Word) : Mat4 := tabulate fun n => if n < 8 then wordCell v0 n else wordCell v1 (n - 8)

/-! ### Platform addresses (R80, R83) -/

/-- The platform address of byte lane `k` of the register at an offset. -/
def laneAddress (p : Params) (off k : Nat) : Nat := p.base + off + k

/-- The byte that lane `k` of a register value carries: bits `8k+7 : 8k`. -/
def laneByte (v : Word) (k : Nat) : Byte := v.extractLsb' (8 * k) 8

/-! ### CFG (R36 to R38) -/

/-- The variants `CFG.VARIANT` selects; the value 3 selects none (R36). -/
inductive Variant where
  | a
  | b
  | c
  | reserved
deriving DecidableEq, Repr

/-- The variant of a `CFG.VARIANT` value (R36). -/
def variantOf (v : BitVec 2) : Variant :=
  match v.toNat with
  | 0 => .a
  | 1 => .b
  | 2 => .c
  | _ => .reserved

/-- The variant the engine is configured for. -/
def Engine.variant (e : Engine) : Variant := variantOf e.cfg.variant

/-- The number of tweakey words, `CFG.Z` (R37). -/
def Engine.z (e : Engine) : Nat := e.cfg.z.toNat

/-- `v in A, B`: the simple variants, with the round-constant table and no sub-keys. -/
def Variant.isAB : Variant → Bool
  | .a => true
  | .b => true
  | .c => false
  | .reserved => false

/-- `ZLegal(v, z)` (R37, R213). -/
def zLegal (v : Variant) (z : Nat) : Bool :=
  match v with
  | .a => decide (1 ≤ z) && decide (z ≤ 3)
  | .b => decide (1 ≤ z) && decide (z ≤ 4)
  | .c => decide (z = 4)
  | .reserved => false

/-- `RMAX(v)` (R38). A command under the reserved variant faults before it is used (R332; log entry 17). -/
def rMax (p : Params) (v : Variant) : Nat :=
  match v with
  | .a => rMaxAB
  | .b => rMaxAB
  | .c => p.rMaxC
  | .reserved => 0

/-- `R_DEF(v, z)` (R10, R38). A command with an illegal `z` faults before it is used (R332; log entry 17). -/
def rDef (p : Params) (v : Variant) (z : Nat) : Nat :=
  match v, z with
  | .a, 1 => 32
  | .a, 2 => 36
  | .a, 3 => 40
  | .b, 1 => 32
  | .b, 2 => 36
  | .b, 3 => 40
  | .b, 4 => p.rDefB4
  | .c, _ => p.rDefC
  | _, _ => 0

/-- `R_eff` (R38). -/
def rEff (p : Params) (e : Engine) : Nat :=
  if e.cfg.rounds ≠ 0 then e.cfg.rounds.toNat else rDef p e.variant e.z

/-! ### KEY (R48, R49) -/

/-- The 4×4 matrix of `KEY[n0 .. n0+15]`. -/
def keyMat (key : KeyCells) (n0 : Nat) : Mat4 := tabulate fun n => cellAt key (n0 + n)

/-- Cell `i` of the 2×4 sub-key `SK_j`: `KEY[8j + i]`. -/
def subKeyCell (key : KeyCells) (j i : Nat) : Cell := cellAt key (8 * j + i)

/-- The round-constant seed of Variant C: `KEY[96]` bits 2:0. -/
def keySeed (key : KeyCells) : BitVec 3 := (cellAt key 96).extractLsb' 0 3

/-- `KeyWellFormed()`: `KEY[96][3] == 0` and `KEY[97] == KEY[98] == KEY[99] == 0` (R49). -/
def keyWellFormed (key : KeyCells) : Bool :=
  (cellAt key 96).getLsbD 3 == false && cellAt key 97 == 0 && cellAt key 98 == 0 && cellAt key 99 == 0

/-- KEY with `KEY[n0 .. n0+15]` taken from a matrix. -/
def withKeyMat (key : KeyCells) (n0 : Nat) (m : Mat4) : KeyCells :=
  Vector.ofFn fun n => if n0 ≤ n.val ∧ n.val < n0 + 16 then cellAt m (n.val - n0) else key[n]

/-! ### The schedule memory (R50) -/

/-- The offset of schedule entry `e`, word `w`. -/
def schedOffset (e w : Nat) : Nat := schedBase + 32 * e + 8 * w

/-- `Sched(e, w)`. -/
def schedRead (m : Memory) (e w : Nat) : Mat4 :=
  matOfWords (Memory.readWord m (schedOffset e w)) (Memory.readWord m (schedOffset e w + 4))

/-- The eight bytes of a matrix in the schedule memory: its two words (R84), each in its byte lanes (R83). -/
def matBytes (t : Mat4) : List Byte := wordBytes (cellsWord t 0) ++ wordBytes (cellsWord t 1)

/-- `Sched(e, w) <- t`. -/
def schedWrite (m : Memory) (e w : Nat) (t : Mat4) : Memory := Memory.writeBlock m (schedOffset e w) (matBytes t)

end Sys2Proof.Machine
end

