-- ==== Sys2Proof/Machine/Flags.lean ====
section
/-! DEFINITION. The flags and what the host sees of them: the STATUS word (R40), the ECODE codes (R331), the IRQ output (R350),
and the checks a command runs before its effect (R331 to R333). -/

namespace Sys2Proof.Machine

open Sys2Proof

/-- The code of a fault (R331). -/
def FaultCode.code : FaultCode → Byte
  | .illegalOpcode => 1
  | .badVariant => 2
  | .notImplemented => 3
  | .badTkCount => 4
  | .badRounds => 5
  | .badRoundIndex => 6
  | .badLfsrWord => 7
  | .badKeyFormat => 8
  | .schedInvalid => 9

/-- `STATUS.ECODE`: 0 means no fault (R331). -/
def ecodeBits (c : Option FaultCode) : Byte :=
  match c with
  | none => 0
  | some c => c.code

/-- One flag bit. -/
def flagBit (b : Bool) : BitVec 1 := BitVec.ofBool b

/-- `STATUS.BUSY` (R40, R52). -/
def Engine.busyFlag (e : Engine) : Bool := decide (e.phase = .busy)

/-- `STATUS.FAULT` (R40, R52). -/
def Engine.faultFlag (e : Engine) : Bool := decide (e.phase = .fault)

/-- The STATUS word (R40): ECODE in 15:8, OVR 3, FAULT 2, DONE 1, BUSY 0, the rest 0. -/
def statusWord (e : Engine) : Word :=
  0#16 ++ ecodeBits e.ecode ++ 0#4 ++ flagBit e.ovr ++ flagBit e.faultFlag ++ flagBit e.done ++ flagBit e.busyFlag

/-- The level of the IRQ output (R350); its delivery is the platform's (R351; log entry 14). -/
def irq (e : Engine) : Bool := e.ie && (e.done || e.faultFlag)

/-- The checks after decoding, codes 2 to 9 of R331. -/
inductive Check where
  /-- code 2: `CFG.VARIANT = 3` fails -/
  | variant
  /-- code 3: fails under Variants A and B -/
  | onlyC
  /-- code 4: `CFG.Z` outside `Z_RANGE` fails -/
  | tkCount
  /-- code 5: `R_eff` outside `1 .. RMAX` fails -/
  | rounds
  /-- code 6: a round index `>= RMAX` fails -/
  | roundIndex (r : Nat)
  /-- code 7: a word without an LFSR fails -/
  | lfsrWord (w : Nat)
  /-- code 8: a malformed KEY fails under Variant C -/
  | keyFormat
  /-- code 9: a schedule entry `>= SCHED_LEN` fails -/
  | schedule (r : Nat)
deriving DecidableEq, Repr

/-- The fault a failed check raises (R331). -/
def Check.fault : Check → FaultCode
  | .variant => .badVariant
  | .onlyC => .notImplemented
  | .tkCount => .badTkCount
  | .rounds => .badRounds
  | .roundIndex _ => .badRoundIndex
  | .lfsrWord _ => .badLfsrWord
  | .keyFormat => .badKeyFormat
  | .schedule _ => .schedInvalid

/-- The last tweakey word with an LFSR: 2 under A, 3 under B and C (R113, R163, R331). -/
def lastLfsrWord (v : Variant) : Nat :=
  match v with
  | .a => 2
  | .b => 3
  | .c => 3
  | .reserved => 0

/-- Whether a check passes (R331). -/
def checkPasses (p : Params) (e : Engine) (k : Check) : Bool :=
  match k with
  | .variant => decide (e.variant ≠ .reserved)
  | .onlyC => decide (e.variant = .c)
  | .tkCount => zLegal e.variant e.z
  | .rounds => decide (1 ≤ rEff p e) && decide (rEff p e ≤ rMax p e.variant)
  | .roundIndex r => decide (r < rMax p e.variant)
  | .lfsrWord w => decide (1 ≤ w) && decide (w ≤ lastLfsrWord e.variant)
  | .keyFormat => decide (e.variant ≠ .c) || keyWellFormed e.key
  | .schedule r => decide (r < e.schedLen.toNat)

/-- The checks run in order; the first that fails is the fault and later ones are not evaluated (R332). -/
def firstFault (p : Params) (e : Engine) : List Check → Option FaultCode
  | [] => none
  | k :: ks => if checkPasses p e k then firstFault p e ks else some k.fault

/-! ### The checks of each command (R333) -/

/-- LFF. -/
def checksLff (w : Nat) : List Check := [.variant, .lfsrWord w]

/-- LFI. -/
def checksLfi (w : Nat) : List Check := [.variant, .onlyC, .lfsrWord w]

/-- AC. -/
def checksAc (r : Nat) : List Check := [.variant, .roundIndex r, .keyFormat]

/-- ART and RNDE. -/
def checksForwardRound (r : Nat) : List Check := [.variant, .tkCount, .roundIndex r, .keyFormat, .schedule r]

/-- RNDD. -/
def checksInverseRound (r : Nat) : List Check := [.variant, .onlyC, .tkCount, .roundIndex r, .keyFormat, .schedule r]

/-- KSF and ENC. -/
def checksForwardCipher : List Check := [.variant, .tkCount, .rounds, .keyFormat]

/-- KSI and DEC. -/
def checksInverseCipher : List Check := [.variant, .onlyC, .tkCount, .rounds, .keyFormat]

end Sys2Proof.Machine
end

