-- ==== Sys2Proof/Machine/Ops.lean ====
section
/-! DEFINITION. The named operations on the engine: writing its data registers, completing a command, entering a fault and the
resets that leave it, the register window as a host sees it, and choosing what the machine does next. -/

namespace Sys2Proof.Machine

open Sys2Proof

/-- The outcome of a step of this machine. -/
abbrev Outcome := Host.Outcome State Fault Refusal

/-! ### Writes of data registers by a command. Each also marks the register written (R57). -/

/-- `STATE <- m`. -/
def Engine.setState (e : Engine) (m : Mat4) : Engine :=
  { e with state := m, written := { e.written with state0 := true, state1 := true } }

/-- `AUX <- m`. -/
def Engine.setAux (e : Engine) (m : Mat4) : Engine :=
  { e with aux := m, written := { e.written with aux0 := true, aux1 := true } }

/-- `RESULT <- zext_32(x)` (R43). -/
def Engine.setResult (e : Engine) (x : Cell) : Engine :=
  { e with result := x, written := { e.written with result := true } }

/-- Marks of the words `KEY4 .. KEY11`, which hold `KEY[32..95]`, set. -/
def markTweakeyWords (key : Vector Bool 13) : Vector Bool 13 :=
  Vector.ofFn fun k => if 4 ≤ k.val ∧ k.val ≤ 11 then true else key[k]

/-- A command's write of the tweakey region of KEY. It does not clear `SCHED_LEN` (R51). -/
def Engine.setTweakeyRegion (e : Engine) (key : KeyCells) : Engine :=
  { e with key := key, written := { e.written with key := markTweakeyWords e.written.key } }

/-- The schedule memory and `SCHED_LEN` (R47, R248). -/
def Engine.setSchedule (e : Engine) (m : Memory) (len : Nat) : Engine :=
  { e with sched := m, schedLen := BitVec.ofNat 9 len }

/-! ### Ends of a command (R90, R340) -/

/-- Successful completion: `BUSY <- 0`, `DONE <- 1`, IDLE (R90). -/
def finish (e : Engine) : Engine := { e with phase := .idle, done := true }

/-- Fault entry (R340): the one operation that takes a fault. FAULT and BUSY are views of the phase. -/
def takeFault (c : FaultCode) (e : Engine) : Engine := { e with phase := .fault, ecode := some c, fcmd := e.cmd }

/-- The completion of a command (R90): the checks first; a failed check is a fault with no other effect (R341), otherwise all
writes of the command's rule happen at once and then the flags. -/
def completeCommand (p : Params) (checks : List Check) (effect : Engine → Engine) (e : Engine) : Engine :=
  match firstFault p e checks with
  | some c => takeFault c e
  | none => finish (effect e)

/-- A command's meaning: its completion, on this engine's configuration. It does not look at the phase: a step calls it on a BUSY
engine only (log entry 20). -/
def runCommand (checks : List Check) (effect : Params → Engine → Engine) (s : State) : Outcome :=
  .next { s with engine := completeCommand Config.params checks (effect Config.params) s.engine }

/-- The completion of a word that decodes to no command: `ILLEGAL_OPCODE` (R111). -/
def runIllegal (s : State) : State := { s with engine := takeFault .illegalOpcode s.engine }

/-! ### Resets: the only ways out of FAULT (R342) -/

/-- The part every reset does (R380, R382): IDLE and every control register 0. The latch is dropped with its command (R381), and
CFG no longer counts as written (R385). -/
def Engine.clearControl (e : Engine) : Engine :=
  { e with phase := .idle, ie := false, done := false, ovr := false, ecode := none, cfg := Cfg.zero, cmd := 0, fcmd := 0,
           schedLen := 0, written := { e.written with cfg := false } }

/-- `STATE, AUX, KEY, RESULT, schedule memory <- unspecified` (R380, R382): free values number `n` and `n + 1` (log entry 3),
and nothing counts as written. -/
def Engine.forgetData (n : Nat) (e : Engine) : Engine :=
  { e with state := Config.freeMatrix n, aux := Config.freeMatrix (n + 1), key := Config.freeKey n,
           result := Config.freeCell n, sched := (Config.freeSched n).cells, written := Written.nothing }

/-- Hard reset during a run (R380, R381). -/
def hardReset (s : State) : State :=
  { s with engine := s.engine.clearControl.forgetData s.draws, draws := s.draws + 2 }

/-- Soft reset (R382): the data registers keep their values unless a command was running. -/
def softReset (s : State) : State :=
  match s.engine.phase with
  | .busy => { s with engine := s.engine.clearControl.forgetData s.draws, draws := s.draws + 2 }
  | .idle => { s with engine := s.engine.clearControl }
  | .fault => { s with engine := s.engine.clearControl }

/-! ### The register window (R81) -/

/-- The registers of the window, and the window of the schedule memory. -/
inductive Reg where
  | ctrl
  | status
  | cfg
  | cmd
  | result
  | schedLen
  | id
  | caps
  | fcmd
  /-- `STATE0`, `STATE1` -/
  | state (h : Nat)
  /-- `AUX0`, `AUX1` -/
  | aux (h : Nat)
  /-- `KEY0 .. KEY12` -/
  | key (k : Nat)
  /-- schedule entry `e`, word `w`, half `h` -/
  | sched (e w h : Nat)
deriving DecidableEq, Repr

/-- The register at an offset; `none` where R82 answers a bus error (a misaligned or reserved offset, or one outside the
window: R140, log entry 16). -/
def regAt (off : Nat) : Option Reg :=
  if off % 4 ≠ 0 then none
  else if off = 0x000 then some .ctrl
  else if off = 0x004 then some .status
  else if off = 0x008 then some .cfg
  else if off = 0x00C then some .cmd
  else if off = 0x010 then some .result
  else if off = 0x014 then some .schedLen
  else if off = 0x018 then some .id
  else if off = 0x01C then some .caps
  else if off = 0x020 then some .fcmd
  else if 0x040 ≤ off ∧ off ≤ 0x044 then some (.state ((off - 0x040) / 4))
  else if 0x048 ≤ off ∧ off ≤ 0x04C then some (.aux ((off - 0x048) / 4))
  else if 0x080 ≤ off ∧ off ≤ 0x0B0 then some (.key ((off - 0x080) / 4))
  else if schedBase ≤ off ∧ off < schedTop then
    some (.sched ((off - schedBase) / 32) ((off - schedBase) % 32 / 8) ((off - schedBase) % 8 / 4))
  else none

/-- The register an access reaches: none unless it is a 32-bit access (R82). -/
def regOfAccess (a : Access) : Option Reg :=
  match a.width with
  | .w32 => regAt a.off
  | .w8 => none
  | .w16 => none
  | .w64 => none

/-- `ID` (R44). -/
def idWord : Word := 0x534B4E59#32

/-- `CAPS` (R45). -/
def capsWord (p : Params) : Word := 0x00033E00#32 ||| BitVec.ofNat 32 p.rMaxC

/-- The CFG register as read (R36 to R38): reserved bits 0. -/
def cfgWord (c : Cfg) : Word := 0#16 ++ c.rounds ++ 0#1 ++ c.z ++ 0#2 ++ c.variant

/-- The CFG fields of a written value; its reserved bits are dropped. -/
def cfgOfWord (v : Word) : Cfg := { variant := v.extractLsb' 0 2, z := v.extractLsb' 4 3, rounds := v.extractLsb' 8 8 }

/-- A word of the schedule window (R50): 0 for an entry that is not valid, and for a word `w >= z` under A and B. -/
def schedWindowWord (e : Engine) (entry w h : Nat) : Word :=
  if e.schedLen.toNat ≤ entry then 0
  else if e.variant.isAB && decide (e.z ≤ w) then 0
  else Memory.readWord e.sched (schedOffset entry w + 4 * h)

/-- The contents of a register as the host reads it in IDLE and FAULT (R89), and of the exact ones while BUSY (R88). -/
def regWord (p : Params) (e : Engine) (r : Reg) : Word :=
  match r with
  | .ctrl => (flagBit e.ie).setWidth 32
  | .status => statusWord e
  | .cfg => cfgWord e.cfg
  | .cmd => 0
  | .result => e.result.setWidth 32
  | .schedLen => e.schedLen.setWidth 32
  | .id => idWord
  | .caps => capsWord p
  | .fcmd => e.fcmd
  | .state h => cellsWord e.state h
  | .aux h => cellsWord e.aux h
  | .key k => cellsWord e.key k
  | .sched entry w h => schedWindowWord e entry w h

/-- The registers whose reads are unspecified while BUSY (R88). -/
def Reg.hiddenWhileBusy : Reg → Bool
  | .ctrl => false
  | .status => false
  | .cfg => false
  | .cmd => false
  | .result => true
  | .schedLen => true
  | .id => false
  | .caps => false
  | .fcmd => false
  | .state _ => true
  | .aux _ => true
  | .key _ => true
  | .sched _ _ _ => true

/-- Give a host its answer. -/
def State.answer (s : State) (host : Nat) (r : Response) : State :=
  { s with answers := { host := host, response := r } :: s.answers }

/-- A host's read of a register (R87 to R89): no engine state changes; a BUSY-time read of a data register is a free value
(log entry 4). -/
def hostRead (host : Nat) (r : Reg) (s : State) : State :=
  if s.engine.busyFlag && r.hiddenWhileBusy then
    { s.answer host (.data (Config.freeWord s.draws)) with draws := s.draws + 1 }
  else s.answer host (.data (regWord Config.params s.engine r))

/-- The effect of a write on a register that only IDLE accepts (R56): stored in IDLE, dropped with OVR while BUSY, dropped in
FAULT. -/
def Engine.writeIfIdle (e : Engine) (store : Engine → Engine) : Engine :=
  match e.phase with
  | .idle => store e
  | .busy => { e with ovr := true }
  | .fault => e

/-- The effect of a write on a read-only register: nothing is stored in any phase, and while BUSY it sets OVR like every write
ignored then (R56, R87, R390; log entry 11). -/
def Engine.writeReadOnly (e : Engine) : Engine := e.writeIfIdle fun e => e

/-- Accepting a command word in IDLE (R42). -/
def Engine.acceptCommand (v : Word) (e : Engine) : Engine := { e with done := false, cmd := v, phase := .busy }

/-- An accepted CFG write (R36 to R39): it invalidates the schedule. -/
def Engine.storeCfg (v : Word) (e : Engine) : Engine :=
  { e with cfg := cfgOfWord v, schedLen := 0, written := { e.written with cfg := true } }

/-- An accepted write of `STATE0` (h = 0) or `STATE1` (R33). -/
def Engine.storeState (h : Nat) (v : Word) (e : Engine) : Engine :=
  { e with state := withCellsWord e.state h v,
           written := { e.written with state0 := e.written.state0 || decide (h = 0),
                                       state1 := e.written.state1 || decide (h = 1) } }

/-- An accepted write of `AUX0` or `AUX1` (R34). -/
def Engine.storeAux (h : Nat) (v : Word) (e : Engine) : Engine :=
  { e with aux := withCellsWord e.aux h v,
           written := { e.written with aux0 := e.written.aux0 || decide (h = 0),
                                       aux1 := e.written.aux1 || decide (h = 1) } }

/-- The KEY marks with word `k` set. -/
def markKeyWord (k : Nat) (key : Vector Bool 13) : Vector Bool 13 :=
  Vector.ofFn fun n => key[n] || decide (n.val = k)

/-- An accepted write of `KEYk` (R48, R51): it invalidates the schedule. -/
def Engine.storeKey (k : Nat) (v : Word) (e : Engine) : Engine :=
  { e with key := withCellsWord e.key k v, schedLen := 0,
           written := { e.written with key := markKeyWord k e.written.key } }

/-- A write to STATUS (R41). -/
def Engine.acknowledge (v : Word) (e : Engine) : Engine :=
  { e with done := e.done && !v.getLsbD 1, ovr := e.ovr && !v.getLsbD 3 }

/-- A write to CTRL (R35): SRST wins over IE. -/
def writeCtrl (v : Word) (s : State) : State :=
  if v.getLsbD 1 then softReset s else { s with engine := { s.engine with ie := v.getLsbD 0 } }

/-- The effect of a host's write of a register (R56). -/
def writeReg (r : Reg) (v : Word) (s : State) : State :=
  match r with
  | .ctrl => writeCtrl v s
  | .status => { s with engine := s.engine.acknowledge v }
  | .cfg => { s with engine := s.engine.writeIfIdle (Engine.storeCfg v) }
  | .cmd => { s with engine := s.engine.writeIfIdle (Engine.acceptCommand v) }
  | .state h => { s with engine := s.engine.writeIfIdle (Engine.storeState h v) }
  | .aux h => { s with engine := s.engine.writeIfIdle (Engine.storeAux h v) }
  | .key k => { s with engine := s.engine.writeIfIdle (Engine.storeKey k v) }
  | .result => { s with engine := s.engine.writeReadOnly }
  | .schedLen => { s with engine := s.engine.writeReadOnly }
  | .id => { s with engine := s.engine.writeReadOnly }
  | .caps => { s with engine := s.engine.writeReadOnly }
  | .fcmd => { s with engine := s.engine.writeReadOnly }
  | .sched _ _ _ => { s with engine := s.engine.writeReadOnly }

/-- One access of a host (R81, R82): a bus error changes nothing but the answer. -/
def hostAccess (a : Access) (s : State) : State :=
  match regOfAccess a with
  | none => s.answer a.host (.busError Config.params.busErrEffect)
  | some r =>
    match a.kind with
    | .read => hostRead a.host r s
    | .write v => (writeReg r v s).answer a.host .ack

/-! ### What the machine does next -/

/-- One move of the machine. -/
inductive Move where
  /-- the engine completes the command word it holds -/
  | run (i : Instr) (s : State)
  /-- anything else: an input from outside, an illegal word, or nothing -/
  | other (s : State)
deriving DecidableEq, Repr

/-- The engine's turn (R90): BUSY completes the latched word, IDLE and FAULT wait (log entry 9). -/
def engineTurn (s : State) : Move :=
  match s.engine.phase with
  | .busy =>
    match decode s.engine.cmd with
    | .ok i => .run i s
    | .error _ => .other (runIllegal s)
  | .idle => .other s
  | .fault => .other s

/-- The next move: the first pending event, or the engine's turn when nothing is pending (log entry 7). -/
def nextMove (s : State) : Move :=
  match s.pending with
  | [] => engineTurn s
  | .engineTurn :: rest => engineTurn { s with pending := rest }
  | .hardReset :: rest => .other (hardReset { s with pending := rest })
  | .access a :: rest => .other (hostAccess a { s with pending := rest })

/-- The machine as it stands when the engine is about to complete a command word: the word latched, BUSY, `DONE` cleared (R42),
and the engine's turn first (log entry 7). -/
def latchWord (v : Word) (s : State) : State :=
  { s with engine := s.engine.acceptCommand v,
           pending := match s.pending with
             | [] => []
             | ev :: rest => .engineTurn :: ev :: rest }

end Sys2Proof.Machine
end

