-- ==== Sys2Proof/Machine/Layers.lean ====
section
/-! DEFINITION. The round layers as functions (R190 to R203) and the commands that apply one layer to STATE (R210 to R217). -/

namespace Sys2Proof.Machine

open Sys2Proof

/-! ### SubCells (R190 to R192) -/

/-- The S-box `S4` (R190). -/
def sboxTable : List Nat := [0xC, 0x6, 0x9, 0x0, 0x1, 0xA, 0x2, 0xB, 0x3, 0x8, 0x5, 0xD, 0x4, 0xE, 0x7, 0xF]

/-- The inverse S-box `S4_INV` (R191). -/
def sboxInvTable : List Nat := [0x3, 0x4, 0x6, 0x8, 0xC, 0xA, 0x1, 0xE, 0x9, 0x2, 0x5, 0x7, 0x0, 0xB, 0xD, 0xF]

/-- `SubCells` (R192). -/
def subCells (m : Mat4) : Mat4 := tabulate fun n => cellTable sboxTable (cellAt m n)

/-- `SubCellsInv` (R192). -/
def subCellsInv (m : Mat4) : Mat4 := tabulate fun n => cellTable sboxInvTable (cellAt m n)

/-! ### AddConstants (R193 to R195) -/

/-- `RC[0..61]` (R193). -/
def rcTable : List Nat :=
  [0x01, 0x03, 0x07, 0x0F, 0x1F, 0x3E, 0x3D, 0x3B] ++ [0x37, 0x2F, 0x1E, 0x3C, 0x39, 0x33, 0x27, 0x0E] ++
  [0x1D, 0x3A, 0x35, 0x2B, 0x16, 0x2C, 0x18, 0x30] ++ [0x21, 0x02, 0x05, 0x0B, 0x17, 0x2E, 0x1C, 0x38] ++
  [0x31, 0x23, 0x06, 0x0D, 0x1B, 0x36, 0x2D, 0x1A] ++ [0x34, 0x29, 0x12, 0x24, 0x08, 0x11, 0x22, 0x04] ++
  [0x09, 0x13, 0x26, 0x0C, 0x19, 0x32, 0x25, 0x0A] ++ [0x15, 0x2A, 0x14, 0x28, 0x10, 0x20]

/-- `RC[r]`, 6 bits. -/
def roundConstant (r : Nat) : BitVec 6 := BitVec.ofNat 6 (rcTable.getD r 0)

/-- The cell that `AC_AB` XORs into cell `n` (R194). -/
def constantCellAB (r n : Nat) : Cell :=
  match n with
  | 0 => (roundConstant r).extractLsb' 0 4
  | 4 => ((roundConstant r).extractLsb' 4 2).setWidth 4
  | 8 => 0x2#4
  | _ => 0

/-- `AC_AB` (R194). -/
def addConstantsAB (m : Mat4) (r : Nat) : Mat4 := tabulate fun n => cellAt m n ^^^ constantCellAB r n

/-- `AC_C` (R195). -/
def addConstantsC (p : Params) (key : KeyCells) (m : Mat4) (r : Nat) : Mat4 := xorMat m (p.rcc (keySeed key) r)

/-- AddConstants of the engine's variant (R212). -/
def addConstants (p : Params) (e : Engine) (m : Mat4) (r : Nat) : Mat4 :=
  if e.variant.isAB then addConstantsAB m r else addConstantsC p e.key m r

/-! ### AddRoundTweakey (R196, R197) -/

/-- The XOR over words 0 to z - 1 of cell `n` of schedule entry `r`. -/
def tweakeyCell (sched : Memory) (z r n : Nat) : Cell :=
  (List.range z).foldl (fun t w => t ^^^ cellAt (schedRead sched r w) n) 0

/-- `ART_AB` (R196). -/
def addTweakeyAB (e : Engine) (m : Mat4) (r : Nat) : Mat4 :=
  tabulate fun n => if n < 8 then cellAt m n ^^^ tweakeyCell e.sched e.z r n else cellAt m n

/-- `ART_C` (R197): rows 0 and 1 from the four scheduled words, rows 2 and 3 from sub-key `r mod 4`. -/
def addTweakeyC (e : Engine) (m : Mat4) (r : Nat) : Mat4 :=
  tabulate fun n =>
    if n < 8 then
      cellAt m n ^^^ cellAt (schedRead e.sched r 0) n ^^^ cellAt (schedRead e.sched r 1) n ^^^
        cellAt (schedRead e.sched r 2) n ^^^ cellAt (schedRead e.sched r 3) n
    else cellAt m n ^^^ subKeyCell e.key (r % 4) (n - 8)

/-- AddRoundTweakey of the engine's variant (R213). -/
def addRoundTweakey (e : Engine) (m : Mat4) (r : Nat) : Mat4 :=
  if e.variant.isAB then addTweakeyAB e m r else addTweakeyC e m r

/-! ### ShiftRows (R198, R199) -/

/-- `P_SR` (R198). -/
def shiftRowsTable : List Nat := [0, 1, 2, 3, 7, 4, 5, 6, 10, 11, 8, 9, 13, 14, 15, 12]

/-- `P_SRI` (R199). -/
def shiftRowsInvTable : List Nat := [0, 1, 2, 3, 5, 6, 7, 4, 10, 11, 8, 9, 15, 12, 13, 14]

/-- `ShiftRows` (R198). -/
def shiftRows (m : Mat4) : Mat4 := permuteCells shiftRowsTable m

/-- `ShiftRowsInv` (R199). -/
def shiftRowsInv (m : Mat4) : Mat4 := permuteCells shiftRowsInvTable m

/-! ### MixColumns (R200, R201) -/

/-- Row `i` of column `j` after MixColumns: row `i` of `M` times the column (R200). -/
def mixedCell (m : Mat4) (i j : Nat) : Cell :=
  match i with
  | 0 => cellAt m j ^^^ cellAt m (8 + j) ^^^ cellAt m (12 + j)
  | 1 => cellAt m j
  | 2 => cellAt m (4 + j) ^^^ cellAt m (8 + j)
  | _ => cellAt m j ^^^ cellAt m (8 + j)

/-- `MixColumns` (R200). -/
def mixColumns (m : Mat4) : Mat4 := tabulate fun n => mixedCell m (n / 4) (n % 4)

/-- Row `i` of column `j` after the inverse: row `i` of `M_INV` times the column (R201). -/
def unmixedCell (m : Mat4) (i j : Nat) : Cell :=
  match i with
  | 0 => cellAt m (4 + j)
  | 1 => cellAt m (4 + j) ^^^ cellAt m (8 + j) ^^^ cellAt m (12 + j)
  | 2 => cellAt m (4 + j) ^^^ cellAt m (12 + j)
  | _ => cellAt m j ^^^ cellAt m (12 + j)

/-- `MixColumnsInv` (R201). -/
def mixColumnsInv (m : Mat4) : Mat4 := tabulate fun n => unmixedCell m (n / 4) (n % 4)

/-! ### Commands -/

/-- SC: SubCells on STATE (R210). -/
def execSc (s : State) : Outcome := runCommand [] (fun _ e => e.setState (subCells e.state)) s

/-- SCI: inverse SubCells on STATE, under every variant (R211). -/
def execSci (s : State) : Outcome := runCommand [] (fun _ e => e.setState (subCellsInv e.state)) s

/-- AC: AddConstants of round `r` on STATE (R212). -/
def execAc (r : Nat) (s : State) : Outcome :=
  runCommand (checksAc r) (fun p e => e.setState (addConstants p e e.state r)) s

/-- ART: AddRoundTweakey of round `r` on STATE (R213). -/
def execArt (r : Nat) (s : State) : Outcome :=
  runCommand (checksForwardRound r) (fun _ e => e.setState (addRoundTweakey e e.state r)) s

/-- SR: ShiftRows on STATE (R214). -/
def execSr (s : State) : Outcome := runCommand [] (fun _ e => e.setState (shiftRows e.state)) s

/-- SRI: inverse ShiftRows on STATE, under every variant (R215). -/
def execSri (s : State) : Outcome := runCommand [] (fun _ e => e.setState (shiftRowsInv e.state)) s

/-- MC: MixColumns on STATE (R216). -/
def execMc (s : State) : Outcome := runCommand [] (fun _ e => e.setState (mixColumns e.state)) s

/-- MCI: inverse MixColumns on STATE, under every variant (R217). -/
def execMci (s : State) : Outcome := runCommand [] (fun _ e => e.setState (mixColumnsInv e.state)) s

end Sys2Proof.Machine
end

