-- ==== Sys2Proof/Machine/Lfsrs.lean ====
section
/-! DEFINITION. The LFSR engine (R160 to R165) and its commands LFF and LFI (R170, R171). -/

namespace Sys2Proof.Machine

open Sys2Proof

/-- The table of `LFSR2` (R161). -/
def lfsr2Table : List Nat := [0x0, 0x2, 0x4, 0x6, 0x9, 0xB, 0xD, 0xF, 0x1, 0x3, 0x5, 0x7, 0x8, 0xA, 0xC, 0xE]

/-- The table of `LFSR3` (R162). -/
def lfsr3Table : List Nat := [0x0, 0x8, 0x1, 0x9, 0x2, 0xA, 0x3, 0xB, 0xC, 0x4, 0xD, 0x5, 0xE, 0x6, 0xF, 0x7]

/-- `LFSR2` (R161). -/
def lfsr2 (x : Cell) : Cell := cellTable lfsr2Table x

/-- `LFSR3` (R162). -/
def lfsr3 (x : Cell) : Cell := cellTable lfsr3Table x

/-- The pair `LFSR_C[w]`, `LFSR_C_INV[w]` for w = 1, 2, 3 (R163, R164). -/
def lfsrPairC (p : Params) (w : Nat) : Option LfsrPair :=
  match w with
  | 1 => some p.lfsrC1
  | 2 => some p.lfsrC2
  | 3 => some p.lfsrC3
  | _ => none

/-- `LF(v, w)` (R163); `none` where the table has no LFSR. -/
def lf (p : Params) (v : Variant) (w : Nat) : Option (Cell → Cell) :=
  match v, w with
  | .a, 1 => some lfsr2
  | .a, 2 => some lfsr3
  | .b, 1 => some lfsr2
  | .b, 2 => some lfsr3
  | .b, 3 => some p.lfsrB4.fn
  | .c, w => (lfsrPairC p w).map (·.fwd)
  | _, _ => none

/-- `LF_INV(C, w)` (R164). -/
def lfInv (p : Params) (w : Nat) : Option (Cell → Cell) := (lfsrPairC p w).map (·.inv)

/-- An LFSR applied to a cell; a word without an LFSR leaves it (R163: word 0 "is permuted but never LFSR-updated"). -/
def applyLfsr (f : Option (Cell → Cell)) (x : Cell) : Cell :=
  match f with
  | some f => f x
  | none => x

/-- The effect of LFF (R170). -/
def lffEffect (p : Params) (w : Nat) (x : Cell) (e : Engine) : Engine := e.setResult (applyLfsr (lf p e.variant w) x)

/-- LFF: `RESULT <- LF(v, w)(x)` (R170). -/
def execLff (w : Nat) (x : Cell) (s : State) : Outcome := runCommand (checksLff w) (fun p e => lffEffect p w x e) s

/-- The effect of LFI (R171). -/
def lfiEffect (p : Params) (w : Nat) (x : Cell) (e : Engine) : Engine := e.setResult (applyLfsr (lfInv p w) x)

/-- LFI: `RESULT <- LFSR_C_INV[w](x)`, Variant C only (R171). -/
def execLfi (w : Nat) (x : Cell) (s : State) : Outcome := runCommand (checksLfi w) (fun p e => lfiEffect p w x e) s

end Sys2Proof.Machine
end

