-- ==== Sys2Proof/Machine/Schedule.lean ====
section
/-! DEFINITION. The tweakey schedule (R240 to R248) and its commands KSF and KSI (R250, R251). A schedule entry is a list of
z words; a schedule is the list `E_0 .. E_R`. -/

namespace Sys2Proof.Machine

open Sys2Proof

/-- `PT` (R241). DEDUCED: R241's last sentence describes another permutation, and the values and the formula are followed (log
entry 23). -/
def ptTable : List Nat := [9, 15, 8, 13, 10, 14, 12, 11, 0, 1, 2, 3, 4, 5, 6, 7]

/-- `PT_INV` (R241; log entry 23). -/
def ptInvTable : List Nat := [8, 9, 10, 11, 12, 13, 14, 15, 2, 0, 4, 7, 6, 3, 5, 1]

/-- The first cell of tweakey word `w` in KEY (R48, R240). -/
def tkOffset (v : Variant) (w : Nat) : Nat :=
  if v.isAB then 16 * w else 32 + 16 * w

/-- `TKWords(v)` (R240). -/
def tkWords (v : Variant) (z : Nat) (key : KeyCells) : List Mat4 :=
  (List.range z).map fun w => keyMat key (tkOffset v w)

/-- An LFSR on rows 0 and 1 of a word (R242, R244). -/
def lfsrTopRows (f : Option (Cell → Cell)) (t : Mat4) : Mat4 :=
  tabulate fun n => if n < 8 then applyLfsr f (cellAt t n) else cellAt t n

/-- One forward step of word `w`: the permutation, then the LFSR (R242). -/
def tkStepWord (p : Params) (v : Variant) (w : Nat) (t : Mat4) : Mat4 := lfsrTopRows (lf p v w) (permuteCells ptTable t)

/-- One inverse step of word `w`, Variant C: the inverse LFSR, then the inverse permutation (R244). -/
def tkInvStepWord (p : Params) (w : Nat) (t : Mat4) : Mat4 := permuteCells ptInvTable (lfsrTopRows (lfInv p w) t)

/-- A per-word step on the words `w, w + 1, ...`. -/
def stepWordsFrom (f : Nat → Mat4 → Mat4) : Nat → List Mat4 → List Mat4
  | _, [] => []
  | w, t :: ts => f w t :: stepWordsFrom f (w + 1) ts

/-- `TKStep(v, _)` (R242). -/
def tkStep (p : Params) (v : Variant) (ts : List Mat4) : List Mat4 := stepWordsFrom (tkStepWord p v) 0 ts

/-- `TKInvStep` (R244). -/
def tkInvStep (p : Params) (ts : List Mat4) : List Mat4 := stepWordsFrom (tkInvStepWord p) 0 ts

/-- `E_0 .. E_R` from `E_0`, by `R` forward steps (R243). -/
def scheduleForward (p : Params) (v : Variant) : Nat → List Mat4 → List (List Mat4)
  | 0, ts => [ts]
  | r + 1, ts => ts :: scheduleForward p v r (tkStep p v ts)

/-- `E_0 .. E_R` from `E_R`, by `R` inverse steps (R251), in front of the entries already computed. -/
def scheduleBackward (p : Params) : Nat → List Mat4 → List (List Mat4) → List (List Mat4)
  | 0, ts, later => ts :: later
  | r + 1, ts, later => scheduleBackward p r (tkInvStep p ts) (ts :: later)

/-- The words of one entry, stored from word `w` up (R248). -/
def storeWords (e : Nat) : Nat → List Mat4 → Memory → Memory
  | _, [], m => m
  | w, t :: ts, m => storeWords e (w + 1) ts (schedWrite m e w t)

/-- The entries, stored from entry `e` up (R248). -/
def storeEntries : Nat → List (List Mat4) → Memory → Memory
  | _, [], m => m
  | e, ts :: rest, m => storeEntries (e + 1) rest (storeWords e 0 ts m)

/-- `StoreSchedule(E_0 .. E_R)` (R248): words `w >= z` and entries above R keep what they held (log entry 18). -/
def storeSchedule (entries : List (List Mat4)) (e : Engine) : Engine :=
  e.setSchedule (storeEntries 0 entries e.sched) entries.length

/-- The schedule of KEY and CFG, computed and stored: the common part of KSF, ENC and DEC (R250, R280, R281). -/
def buildSchedule (p : Params) (e : Engine) : Engine :=
  storeSchedule (scheduleForward p e.variant (rEff p e) (tkWords e.variant e.z e.key)) e

/-- `KEY[32+16w ..] <- T_w` for the words `w, w + 1, ...` (R251). -/
def withTkWordsFrom : Nat → List Mat4 → KeyCells → KeyCells
  | _, [], key => key
  | w, t :: ts, key => withTkWordsFrom (w + 1) ts (withKeyMat key (32 + 16 * w) t)

/-- The effect of KSI (R251): the tweakey region is entry R; store E_0 .. E_R and leave entry 0 in KEY. -/
def ksiEffect (p : Params) (e : Engine) : Engine :=
  let entries := scheduleBackward p (rEff p e) (tkWords .c 4 e.key) []
  (storeSchedule entries e).setTweakeyRegion (withTkWordsFrom 0 (entries.headD []) e.key)

/-- KSF: forward tweakey schedule (R250). -/
def execKsf (s : State) : Outcome := runCommand checksForwardCipher (fun p e => buildSchedule p e) s

/-- KSI: inverse tweakey schedule, Variant C only (R251). -/
def execKsi (s : State) : Outcome := runCommand checksInverseCipher (fun p e => ksiEffect p e) s

end Sys2Proof.Machine
end

