-- ==== Sys2Proof/Machine/Cipher.lean ====
section
/-! DEFINITION. Rounds and the cipher (R270 to R275) and the commands ENC, DEC, RNDE, RNDD (R280 to R283). The engine `e` of the
round functions gives the variant, z, KEY and the stored schedule. -/

namespace Sys2Proof.Machine

open Sys2Proof

/-- `RoundF(v, s, r)` (R270). -/
def roundF (p : Params) (e : Engine) (m : Mat4) (r : Nat) : Mat4 :=
  mixColumns (shiftRows (addRoundTweakey e (addConstants p e (subCells m) r) r))

/-- `RoundI(s, r)` (R271). -/
def roundI (p : Params) (e : Engine) (m : Mat4) (r : Nat) : Mat4 :=
  subCellsInv (addConstantsC p e.key (addTweakeyC e (shiftRowsInv (mixColumnsInv m)) r) r)

/-- `Encrypt(v, s, R)` (R272): rounds 0 to R - 1. -/
def encrypt (p : Params) (e : Engine) (m : Mat4) : Nat → Mat4
  | 0 => m
  | r + 1 => roundF p e (encrypt p e m r) r

/-- `Decrypt(s, R)` (R273): rounds R - 1 down to 0. -/
def decrypt (p : Params) (e : Engine) (m : Mat4) : Nat → Mat4
  | 0 => m
  | r + 1 => decrypt p e (roundI p e m r) r

/-- The effect of ENC (R280): the rounds read the schedule just stored. -/
def encEffect (p : Params) (e : Engine) : Engine :=
  let e1 := buildSchedule p e
  e1.setState (encrypt p e1 e.state (rEff p e))

/-- The effect of DEC (R281). -/
def decEffect (p : Params) (e : Engine) : Engine :=
  let e1 := buildSchedule p e
  e1.setState (decrypt p e1 e.state (rEff p e))

/-- ENC: encrypt STATE (R280). -/
def execEnc (s : State) : Outcome := runCommand checksForwardCipher (fun p e => encEffect p e) s

/-- DEC: decrypt STATE, Variant C only (R281). -/
def execDec (s : State) : Outcome := runCommand checksInverseCipher (fun p e => decEffect p e) s

/-- RNDE: one forward round of index `r` on STATE (R282). -/
def execRnde (r : Nat) (s : State) : Outcome :=
  runCommand (checksForwardRound r) (fun p e => e.setState (roundF p e e.state r)) s

/-- RNDD: one inverse round of index `r` on STATE, Variant C only (R283). -/
def execRndd (r : Nat) (s : State) : Outcome :=
  runCommand (checksInverseRound r) (fun p e => e.setState (roundI p e e.state r)) s

end Sys2Proof.Machine
end

