-- ==== Sys2Proof/Machine/MatrixAlgebra.lean ====
section
/-! DEFINITION. The matrix commands XORS and CPSA (R143, R144). -/

namespace Sys2Proof.Machine

open Sys2Proof

/-- XORS: `STATE <- STATE XOR AUX` (R143). -/
def execXors (s : State) : Outcome := runCommand [] (fun _ e => e.setState (xorMat e.state e.aux)) s

/-- CPSA: `AUX <- STATE` (R144). -/
def execCpsa (s : State) : Outcome := runCommand [] (fun _ e => e.setAux e.state) s

end Sys2Proof.Machine
end

