-- ==== Sys2Proof/Machine/System.lean ====
section
/-! DEFINITION. The system command NOP (R310). Soft reset and acknowledge (R311, R312) are register writes, in Ops. -/

namespace Sys2Proof.Machine

open Sys2Proof

/-- NOP: nothing but its completion (R310). -/
def execNop (s : State) : Outcome := runCommand [] (fun _ e => e) s

end Sys2Proof.Machine
end

