-- ==== Sys2Proof/Machine/Dispatch.lean ====
section
/-! DEFINITION. One arm per command: the completion step of that command (R90). -/

namespace Sys2Proof.Machine

open Sys2Proof

def exec (i : Instr) (s : State) : Host.Outcome State Fault Refusal :=
  match i with
  | .nop => Sys2Proof.Machine.execNop s
  | .xors => Sys2Proof.Machine.execXors s
  | .cpsa => Sys2Proof.Machine.execCpsa s
  | .lff w x => Sys2Proof.Machine.execLff w x s
  | .lfi w x => Sys2Proof.Machine.execLfi w x s
  | .sc => Sys2Proof.Machine.execSc s
  | .sci => Sys2Proof.Machine.execSci s
  | .ac r => Sys2Proof.Machine.execAc r s
  | .art r => Sys2Proof.Machine.execArt r s
  | .sr => Sys2Proof.Machine.execSr s
  | .sri => Sys2Proof.Machine.execSri s
  | .mc => Sys2Proof.Machine.execMc s
  | .mci => Sys2Proof.Machine.execMci s
  | .ksf => Sys2Proof.Machine.execKsf s
  | .ksi => Sys2Proof.Machine.execKsi s
  | .enc => Sys2Proof.Machine.execEnc s
  | .dec => Sys2Proof.Machine.execDec s
  | .rnde r => Sys2Proof.Machine.execRnde r s
  | .rndd r => Sys2Proof.Machine.execRndd r s

end Sys2Proof.Machine
end

