-- ==== Sys2Proof/Machine/Step.lean ====
section
/-! DEFINITION. One step of the machine: the next move, which is either the completion of a command word or anything else that
happens at the engine. -/

namespace Sys2Proof.Machine

open Sys2Proof

/-- One step. -/
def step (s : State) : Host.Outcome State Fault Refusal :=
  match nextMove s with
  | .run i s' => exec i s'
  | .other s' => .next s'

/-- `s` with a command word accepted (R42) and the engine about to complete it. -/
def State.withFetchWord (s : State) (nbits w : Nat) : State := latchWord (tableWord nbits w) s

end Sys2Proof.Machine
end

