-- ==== Sys2Proof/Machine/HostOps.lean ====
section
/-! DEFINITION. The host-side statements and pseudo-instructions of R121: their expansions into bus accesses, what the host does
with each answer, and a host program run against the machine. A pseudo-instruction is only a spelling: the engine sees the
accesses. -/

namespace Sys2Proof.Machine

open Sys2Proof

/-- A host-side statement (R121). Cells are the digits of the `hex` operands. -/
inductive HostStmt where
  /-- `W off, v` -/
  | w (off : Nat) (v : Word)
  /-- `R off` -/
  | r (off : Nat)
  /-- `R off -> v`: the read returns `v` -/
  | rIs (off : Nat) (v : Word)
  /-- `CFG variant, z, rounds` -/
  | cfg (variant z rounds : Nat)
  /-- `LDS hex16` -/
  | lds (m : Mat4)
  /-- `LDA hex16` -/
  | lda (m : Mat4)
  /-- `LDK hexN`, N digits -/
  | ldk (digits : List Cell)
  /-- `WAIT` -/
  | wait
  /-- `RUN cmd` -/
  | run (i : Instr)
  /-- `CHECK` -/
  | check
  /-- `SRST` -/
  | srst
deriving DecidableEq, Repr

/-- What statements expand to: one access, done once or repeated, and what the host asks of the value read. -/
inductive HostOp where
  /-- a write -/
  | write (off : Nat) (v : Word)
  /-- a read -/
  | read (off : Nat)
  /-- a read that returns `v`, or the program fails -/
  | readIs (off : Nat) (v : Word)
  /-- reads of STATUS, repeated until bit 0 of the value is 0 -/
  | poll
  /-- a read of STATUS: the program fails unless bit 2 is 0 -/
  | check
deriving DecidableEq, Repr

/-! ### Expansion -/

/-- `MemWrite(off, 4, v)` of a host (R17). -/
def memWrite (host off : Nat) (v : Word) : Access := { host := host, off := off, width := .w32, kind := .write v }

/-- `MemRead(off, 4)` of a host (R17). -/
def memRead (host off : Nat) : Access := { host := host, off := off, width := .w32, kind := .read }

/-- Word `k` of a list of digits, the last word padded on the right with 0 digits. -/
def digitsWord (digits : List Cell) (k : Nat) : Word := packWord fun i => digits.getD (8 * k + i) 0

/-- The value `CFG` writes (R121). DESIGN CHOICE: any natural numbers are operands, variants other than A = 0, B = 1 and C = 2
included, and there is no value if the sum is no 32-bit word (log entry 21). -/
def cfgValue (variant z rounds : Nat) : Option Word :=
  let n := variant + z * 2 ^ 4 + rounds * 2 ^ 8
  if n < 2 ^ 32 then some (BitVec.ofNat 32 n) else none

/-- The expansion of a statement (R121); none where an operand makes it an assembly error (R120). -/
def expandStmt : HostStmt → Option (List HostOp)
  | .w off v => some [.write off v]
  | .r off => some [.read off]
  | .rIs off v => some [.readIs off v]
  | .cfg variant z rounds => (cfgValue variant z rounds).map fun v => [.write 0x008 v]
  | .lds m => some [.write 0x040 (cellsWord m 0), .write 0x044 (cellsWord m 1)]
  | .lda m => some [.write 0x048 (cellsWord m 0), .write 0x04C (cellsWord m 1)]
  | .ldk digits => some ((List.range ((digits.length + 7) / 8)).map fun k => .write (0x080 + 4 * k) (digitsWord digits k))
  | .wait => some [.poll]
  | .run i => (assemble i).map fun v => [.write 0x00C v, .poll]
  | .check => some [.check]
  | .srst => some [.write 0x000 0x00000002#32]

/-- The expansion of a program. -/
def expandProgram : List HostStmt → Option (List HostOp)
  | [] => some []
  | st :: sts =>
    match expandStmt st, expandProgram sts with
    | some a, some b => some (a ++ b)
    | _, _ => none

/-! ### Running an expansion -/

/-- The access an operation performs. -/
def HostOp.access (host : Nat) : HostOp → Access
  | .write off v => memWrite host off v
  | .read off => memRead host off
  | .readIs off _ => memRead host off
  | .poll => memRead host 0x004
  | .check => memRead host 0x004

/-- The value an access returned; a bus error returns one where the platform makes it so (R82). -/
def Response.value : Response → Option Word
  | .data v => some v
  | .ack => none
  | .busError (.value v) => some v
  | .busError .exception => none
  | .busError .ignored => none

/-- What `WAIT` looks at in a STATUS value: bit 0 (`BUSY`). -/
def statusBusyBit (v : Word) : Bool := v.getLsbD 0

/-- What `CHECK` looks at in a STATUS value: bit 2 (`FAULT`). -/
def statusFaultBit (v : Word) : Bool := v.getLsbD 2

/-- How an operation ends after one access. -/
inductive OpEnd where
  | done
  | again
  | failed
deriving DecidableEq, Repr

/-- How an operation takes the response to its access (R121): `WAIT` reads again while BUSY, `CHECK` fails on FAULT. -/
def HostOp.ended : HostOp → Response → OpEnd
  | .write _ _, _ => .done
  | .read _, _ => .done
  | .readIs _ v, r => if r.value = some v then .done else .failed
  | .poll, r => if r.value.map statusBusyBit = some false then .done else .again
  | .check, r => if r.value.map statusFaultBit = some false then .done else .failed

/-- A host program under way: the operations still to do, or failed. It has finished when none is left. -/
inductive HostRun where
  | todo (ops : List HostOp)
  | failed
deriving DecidableEq, Repr

/-- The program after one access of its first operation. -/
def HostRun.afterAccess (op : HostOp) (ops : List HostOp) (r : Option Response) : HostRun :=
  match r.map op.ended with
  | some .done => .todo ops
  | some .failed => .failed
  | some .again => .todo (op :: ops)
  | none => .todo (op :: ops)

/-- The newest answer on the bus. -/
def newestResponse (s : State) : Option Response := s.answers.head?.map (·.response)

/-- The host's turn: the next access of its program, ahead of every pending event, and what the host makes of the answer (log
entry 21). A program that has finished or failed does nothing. -/
def hostTurn (host : Nat) (run : HostRun) (s : State) : HostRun × State :=
  match run with
  | .failed => (.failed, s)
  | .todo [] => (.todo [], s)
  | .todo (op :: ops) =>
    let s' := hostAccess (op.access host) s
    (HostRun.afterAccess op ops (newestResponse s'), s')

/-- Whose turn it is: the program's host, or the machine with the other events and the engine (R93: every order is a list). -/
inductive Turn where
  | host
  | machine
deriving DecidableEq, Repr

/-- A host program run against the machine, turn by turn. -/
def runProgram (host : Nat) : List Turn → HostRun → State → Host.Outcome (HostRun × State) Fault Refusal
  | [], run, s => .next (run, s)
  | .host :: turns, run, s => runProgram host turns (hostTurn host run s).1 (hostTurn host run s).2
  | .machine :: turns, run, s =>
    match step s with
    | .next s' => runProgram host turns run s'
    | .fault r => .fault r
    | .refused r => .refused r

end Sys2Proof.Machine
end

