-- ==== Sys2Proof/Safety.lean ====
section
/-! DEFINITION. What claims call a safe run: the host's duties (R98, R385, R390), a healthy engine, and the engine's invariant,
built from what `10_state.md` and `44_tweakey_schedule.md` say holds at every moment. -/

namespace Sys2Proof.Safety

open Sys2Proof Sys2Proof.Machine

/-! ### Registers written before they are read (R385) -/

/-- Both words of STATE were written. -/
def stateWritten (e : Engine) : Bool := e.written.state0 && e.written.state1

/-- Both words of AUX were written. -/
def auxWritten (e : Engine) : Bool := e.written.aux0 && e.written.aux1

/-- `KEYk` was written. -/
def keyWordWritten (e : Engine) (k : Nat) : Bool := if h : k < 13 then e.written.key[k] else false

/-- The KEY words of the active view of the whole key (R48): the first `2z` under A and B, all 13 under C. -/
def keyViewWritten (e : Engine) : Bool :=
  if e.variant = .c then (List.range 13).all (keyWordWritten e) else (List.range (2 * e.z)).all (keyWordWritten e)

/-- The seed row, which AC reads under C. -/
def seedRowWritten (e : Engine) : Bool := decide (e.variant ≠ .c) || keyWordWritten e 12

/-- The sub-keys and the seed row, which ART, RNDE and RNDD read under C. -/
def subKeysWritten (e : Engine) : Bool :=
  decide (e.variant ≠ .c) || ((List.range 4).all (keyWordWritten e) && keyWordWritten e 12)

/-- CFG was written, as R385 asks for every command that checks z or rounds. -/
def cfgWritten (e : Engine) : Bool := e.written.cfg

/-- RESULT holds the output of an LFF or LFI since the reset that left it unspecified: it is meaningful only then (R385). -/
def resultMeaningful (e : Engine) : Bool := e.written.result

/-- Every register that R385 asks for has been written since a reset: those the command reads and reset leaves unspecified, and
CFG where the command checks z or rounds. -/
def readsWritten (i : Instr) (e : Engine) : Bool :=
  match i with
  | .nop => true
  | .xors => stateWritten e && auxWritten e
  | .cpsa => stateWritten e
  | .lff _ _ => true
  | .lfi _ _ => true
  | .sc => stateWritten e
  | .sci => stateWritten e
  | .ac _ => stateWritten e && seedRowWritten e
  | .art _ => cfgWritten e && stateWritten e && subKeysWritten e
  | .sr => stateWritten e
  | .sri => stateWritten e
  | .mc => stateWritten e
  | .mci => stateWritten e
  | .ksf => cfgWritten e && keyViewWritten e
  | .ksi => cfgWritten e && keyViewWritten e
  | .enc => cfgWritten e && stateWritten e && keyViewWritten e
  | .dec => cfgWritten e && stateWritten e && keyViewWritten e
  | .rnde _ => cfgWritten e && stateWritten e && subKeysWritten e
  | .rndd _ => cfgWritten e && stateWritten e && subKeysWritten e

/-! ### The host's duties while a command runs (R390) -/

/-- Whether a host may write a register while BUSY. -/
def writableWhileBusy : Reg → Bool
  | .ctrl => true
  | .status => true
  | .cfg => false
  | .cmd => false
  | .result => false
  | .schedLen => false
  | .id => false
  | .caps => false
  | .fcmd => false
  | .state _ => false
  | .aux _ => false
  | .key _ => false
  | .sched _ _ _ => false

/-- The event keeps to R82 and R390: a host reaches a register, and while BUSY neither reads a data register nor writes any but
CTRL and STATUS. -/
def eventObeys (ev : Event) (e : Engine) : Bool :=
  match ev with
  | .hardReset => true
  | .engineTurn => true
  | .access a =>
    match regOfAccess a with
    | none => false
    | some r =>
      match a.kind with
      | .read => !(e.busyFlag && r.hiddenWhileBusy)
      | .write _ => !e.busyFlag || writableWhileBusy r

/-- The engine is not in FAULT and has dropped no write (R342, R344). -/
def healthy (e : Engine) : Bool := decide (e.phase ≠ .fault) && !e.ovr

/-! ### The invariant of the engine -/

/-- Entry `n` of the schedule of the engine's KEY and CFG (R243). -/
def scheduleEntry (p : Params) (e : Engine) : Nat → List Mat4
  | 0 => tkWords e.variant e.z e.key
  | n + 1 => tkStep p e.variant (scheduleEntry p e n)

/-- `DONE` can be 1 only in IDLE (R40). -/
def doneOnlyIdle (e : Engine) : Prop := e.done = true → e.phase = .idle

/-- A fault code is recorded exactly in FAULT (R331, R340, R342). -/
def codeOnlyInFault (e : Engine) : Prop := e.ecode.isSome = e.faultFlag

/-- Outside FAULT no faulted word is recorded: FCMD is written by a fault only and cleared by the reset that leaves FAULT (R46,
R340, R382). -/
def wordOnlyInFault (e : Engine) : Prop := e.phase ≠ .fault → e.fcmd = 0

/-- The schedule memory keeps its canonical form and lies in its window (R50, R81). -/
def memoryCanonical (e : Engine) : Prop := Memory.wf e.sched = true

/-- The configuration under which KSF and ENC run: the checks 2, 4, 5 and 8 of R331 pass. -/
def scheduleLegal (p : Params) (e : Engine) : Prop :=
  e.variant ≠ .reserved ∧ zLegal e.variant e.z = true ∧ 1 ≤ rEff p e ∧ rEff p e ≤ rMax p e.variant ∧
    (e.variant = .c → keyWellFormed e.key = true)

/-- A valid schedule is the schedule of the KEY and CFG contents (R47, R51, R243, R391): its length is `R_eff + 1`, and entry `n`
holds the tweakey words after `n` steps. -/
def scheduleFresh (p : Params) (e : Engine) : Prop :=
  e.schedLen ≠ 0 →
    scheduleLegal p e ∧ e.schedLen.toNat = rEff p e + 1 ∧
      ∀ n w, n ≤ rEff p e → w < e.z → (scheduleEntry p e n)[w]? = some (schedRead e.sched n w)

/-- The invariant of the engine. -/
def engineInv (p : Params) (e : Engine) : Prop :=
  doneOnlyIdle e ∧ codeOnlyInFault e ∧ wordOnlyInFault e ∧ memoryCanonical e ∧ scheduleFresh p e

end Sys2Proof.Safety
end

