-- ==== Sys2Proof/Certificates/Slice0/Obligations.lean ====
section
/-! DEFINITION. The statements about the model, one `def Obligations.<Name> : Prop` each. `Sys2Proof.Claims` holds the words they
are said in, written from the spec's rules and not from the model's definitions where the two could differ. -/

namespace Sys2Proof.Claims

open Sys2Proof Sys2Proof.Machine

/-! ### When a command faults (R331) -/

/-- Row 2 of R331. -/
def usesVariant : Instr → Bool
  | .lff _ _ | .lfi _ _ | .ac _ | .art _ | .ksf | .ksi | .enc | .dec | .rnde _ | .rndd _ => true
  | .nop | .xors | .cpsa | .sc | .sci | .sr | .sri | .mc | .mci => false

/-- Row 3 of R331. -/
def onlyVariantC : Instr → Bool
  | .lfi _ _ | .ksi | .dec | .rndd _ => true
  | .nop | .xors | .cpsa | .lff _ _ | .sc | .sci | .ac _ | .art _ | .sr | .sri | .mc | .mci | .ksf | .enc | .rnde _ => false

/-- Row 4 of R331. -/
def usesWordCount : Instr → Bool
  | .art _ | .ksf | .ksi | .enc | .dec | .rnde _ | .rndd _ => true
  | .nop | .xors | .cpsa | .lff _ _ | .lfi _ _ | .sc | .sci | .ac _ | .sr | .sri | .mc | .mci => false

/-- Row 5 of R331. -/
def usesRoundCount : Instr → Bool
  | .ksf | .ksi | .enc | .dec => true
  | .nop | .xors | .cpsa | .lff _ _ | .lfi _ _ | .sc | .sci | .ac _ | .art _ | .sr | .sri | .mc | .mci | .rnde _ | .rndd _ =>
    false

/-- Row 6 of R331: the field `RIDX` of the commands that use it. -/
def roundIndexOf : Instr → Option Nat
  | .ac r | .art r | .rnde r | .rndd r => some r
  | .nop | .xors | .cpsa | .lff _ _ | .lfi _ _ | .sc | .sci | .sr | .sri | .mc | .mci | .ksf | .ksi | .enc | .dec => none

/-- Row 7 of R331: the field `W` of the commands that use it. -/
def lfsrWordOf : Instr → Option Nat
  | .lff w _ | .lfi w _ => some w
  | .nop | .xors | .cpsa | .sc | .sci | .ac _ | .art _ | .sr | .sri | .mc | .mci | .ksf | .ksi | .enc | .dec | .rnde _
  | .rndd _ => none

/-- Row 8 of R331. -/
def usesKey : Instr → Bool
  | .ac _ | .art _ | .ksf | .ksi | .enc | .dec | .rnde _ | .rndd _ => true
  | .nop | .xors | .cpsa | .lff _ _ | .lfi _ _ | .sc | .sci | .sr | .sri | .mc | .mci => false

/-- Row 9 of R331: the schedule entry a command needs. -/
def scheduleEntryOf : Instr → Option Nat
  | .art r | .rnde r | .rndd r => some r
  | .nop | .xors | .cpsa | .lff _ _ | .lfi _ _ | .sc | .sci | .ac _ | .sr | .sri | .mc | .mci | .ksf | .ksi | .enc | .dec =>
    none

/-- `Z_RANGE(CFG.VARIANT)` contains `CFG.Z` (R10, R37), on the fields' bits. -/
def wordCountLegal (c : Cfg) : Prop :=
  (c.variant = 0 ∧ 1 ≤ c.z.toNat ∧ c.z.toNat ≤ 3) ∨ (c.variant = 1 ∧ 1 ≤ c.z.toNat ∧ c.z.toNat ≤ 4) ∨
    (c.variant = 2 ∧ c.z.toNat = 4)

/-- `RMAX(CFG.VARIANT)` (R38): 62 for A and B, `R_MAX_C` for C. -/
def roundLimit (p : Params) (c : Cfg) : Nat := if c.variant = 2 then p.rMaxC else 62

/-- `R_DEF(CFG.VARIANT, CFG.Z)` for a legal pair (R10). -/
def defaultRounds (p : Params) (c : Cfg) : Nat :=
  if c.variant = 2 then p.rDefC
  else if c.z.toNat = 4 then p.rDefB4
  else 28 + 4 * c.z.toNat

/-- `R_eff` (R38), for a legal `CFG.Z`. -/
def effectiveRounds (p : Params) (c : Cfg) : Nat := if c.rounds = 0 then defaultRounds p c else c.rounds.toNat

/-- `KEY[96][3] == 0` and `KEY[97] == KEY[98] == KEY[99] == 0` (R49). -/
def keyRowLegal (key : KeyCells) : Prop :=
  key[96].getLsbD 3 = false ∧ key[97] = 0 ∧ key[98] = 0 ∧ key[99] = 0

/-- The codes of R331, number by number. -/
def faultNumber : FaultCode → Nat
  | .illegalOpcode => 1
  | .badVariant => 2
  | .notImplemented => 3
  | .badTkCount => 4
  | .badRounds => 5
  | .badRoundIndex => 6
  | .badLfsrWord => 7
  | .badKeyFormat => 8
  | .schedInvalid => 9

/-- The cause with a given code applies to a decoded command (R331). `R_eff` is compared under a legal `CFG.Z` only: otherwise
code 4 comes first. -/
def cause (p : Params) (i : Instr) (e : Engine) : FaultCode → Prop
  | .illegalOpcode => False
  | .badVariant => usesVariant i = true ∧ e.cfg.variant = 3
  | .notImplemented => onlyVariantC i = true ∧ (e.cfg.variant = 0 ∨ e.cfg.variant = 1)
  | .badTkCount => usesWordCount i = true ∧ ¬ wordCountLegal e.cfg
  | .badRounds =>
    usesRoundCount i = true ∧ ¬ (1 ≤ effectiveRounds p e.cfg ∧ effectiveRounds p e.cfg ≤ roundLimit p e.cfg)
  | .badRoundIndex => ∃ r, roundIndexOf i = some r ∧ roundLimit p e.cfg ≤ r
  | .badLfsrWord => ∃ w, lfsrWordOf i = some w ∧ ¬ (1 ≤ w ∧ w ≤ if e.cfg.variant = 0 then 2 else 3)
  | .badKeyFormat => usesKey i = true ∧ e.cfg.variant = 2 ∧ ¬ keyRowLegal e.key
  | .schedInvalid => ∃ r, scheduleEntryOf i = some r ∧ e.schedLen.toNat ≤ r

/-- The cause with a given code applies to a command word (R331): code 1 to a word that is no command. -/
def wordCause (p : Params) (v : Word) (e : Engine) (c : FaultCode) : Prop :=
  (c = .illegalOpcode ∧ ∀ i, decode v ≠ .ok i) ∨ ∃ i, decode v = .ok i ∧ cause p i e c

/-- No cause applies: the command executes normally (R332). -/
def runs (i : Instr) (e : Engine) : Prop := ∀ c, ¬ cause Config.params i e c

/-! ### What a completed command leaves (R90) -/

/-- `s` after a command that wrote STATE and nothing else: STATE, the flags of completion, and the model's own marks. -/
def stateIs (s : State) (m : Mat4) : State :=
  { s with engine := { s.engine with
      phase := .idle, done := true, state := m, written := { s.engine.written with state0 := true, state1 := true } } }

/-- `s` after a command that wrote RESULT and nothing else. -/
def resultIs (s : State) (y : Cell) : State :=
  { s with engine := { s.engine with
      phase := .idle, done := true, result := y, written := { s.engine.written with result := true } } }

/-- `s` after a command that faulted with a cause: FAULT, the code and the word, and nothing else (R340). -/
def faulted (c : FaultCode) (s : State) : State :=
  { s with engine := { s.engine with phase := .fault, ecode := some c, fcmd := s.engine.cmd } }

/-- Commands completed one after the other, with nothing between. -/
def runAll : List Instr → State → Host.Outcome State Fault Refusal
  | [], s => .next s
  | i :: is, s =>
    match exec i s with
    | .next t => runAll is t
    | .fault r => .fault r
    | .refused r => .refused r

/-! ### Tables and generators written from the rules -/

/-- `S4` (R190). -/
def sbox (x : Cell) : Cell :=
  [0xC#4, 0x6#4, 0x9#4, 0x0#4, 0x1#4, 0xA#4, 0x2#4, 0xB#4, 0x3#4, 0x8#4, 0x5#4, 0xD#4, 0x4#4, 0xE#4, 0x7#4, 0xF#4].getD
    x.toNat 0

/-- The 6-bit LFSR of R193 after `n` steps from 0. -/
def rcLfsr : Nat → BitVec 6
  | 0 => 0
  | n + 1 =>
    let rc := rcLfsr n
    (rc <<< 1) ||| (BitVec.ofBool (rc.getLsbD 5 ^^ rc.getLsbD 4 ^^ true)).setWidth 6

/-- The XOR of cell `n` of words 0 to `z - 1` of schedule entry `r` (R196). -/
def wordsXor (m : Memory) (r n : Nat) : Nat → Cell
  | 0 => 0
  | z + 1 => wordsXor m r n z ^^^ cellAt (schedRead m r z) n

/-- The values of `PT` (R241; log entry 23). -/
def pt (n : Nat) : Nat := [9, 15, 8, 13, 10, 14, 12, 11, 0, 1, 2, 3, 4, 5, 6, 7].getD n 0

/-- `u` is word `w` after one forward step from `t` (R242): `U[n] = t[PT[n]]`, then the LFSR on cells 0 to 7 when `w >= 1`. -/
def forwardStep (p : Params) (v : Variant) (w : Nat) (t u : Mat4) : Prop :=
  ∀ n, n < 16 → cellAt u n =
    if 1 ≤ w ∧ n < 8 then applyLfsr (lf p v w) (cellAt t (pt n)) else cellAt t (pt n)

/-- `t` is word `w` after one inverse step from `u` (R244): the cell that PT takes to place `n` comes back from place `n`, through
the inverse LFSR for places 0 to 7 when `w >= 1`. -/
def inverseStep (p : Params) (w : Nat) (u t : Mat4) : Prop :=
  ∀ n, n < 16 → cellAt t (pt n) =
    if 1 ≤ w ∧ n < 8 then applyLfsr (lfInv p w) (cellAt u n) else cellAt u n

/-- An offset outside the words 0 to `z - 1` of the entries 0 to `r` (R50). -/
def outsideEntries (r z a : Nat) : Prop :=
  ∀ n w, n ≤ r → w < z → a < 0x1000 + 32 * n + 8 * w ∨ 0x1000 + 32 * n + 8 * w + 8 ≤ a

/-! ### Host accesses, one step each -/

/-- A 32-bit read of an offset by a host comes next, and then `rest`. -/
def withRead (host off : Nat) (rest : List Event) (s : State) : State :=
  { s with pending := .access { host := host, off := off, width := .w32, kind := .read } :: rest }

/-- A 32-bit write of an offset by a host comes next, and then `rest`. -/
def withWrite (host off : Nat) (v : Word) (rest : List Event) (s : State) : State :=
  { s with pending := .access { host := host, off := off, width := .w32, kind := .write v } :: rest }

/-- The read of `off`, by any host and whatever follows, answers `v` and changes nothing else. -/
def reads (s : State) (off : Nat) (v : Word) : Prop :=
  ∀ (host : Nat) (rest : List Event), step (withRead host off rest s) =
    .next { s with pending := rest, answers := { host := host, response := .data v } :: s.answers }

/-- The write of `v` to `off`, by any host and whatever follows, completes and leaves the engine as `e`. -/
def writes (s : State) (off : Nat) (v : Word) (e : Engine) : Prop :=
  ∀ (host : Nat) (rest : List Event), step (withWrite host off v rest s) =
    .next { s with engine := e, pending := rest, answers := { host := host, response := .ack } :: s.answers }

/-- `v` packs the cells `8h .. 8h+7` of a register, most significant nibble first; cells the register lacks are 0 (R84, R48). -/
def packs {k : Nat} (m : Vector Cell k) (h : Nat) (v : Word) : Prop :=
  ∀ i, i < 8 → v.extractLsb' (28 - 4 * i) 4 = if hk : 8 * h + i < k then m[8 * h + i] else 0

/-- `m'` is `m` with the cells `8h .. 8h+7` it has replaced by the nibbles of `v` (R84). -/
def replaced {k : Nat} (m m' : Vector Cell k) (h : Nat) (v : Word) : Prop :=
  ∀ n (hn : n < k), m'[n] = if n / 8 = h then v.extractLsb' (28 - 4 * (n % 8)) 4 else m[n]

/-- A reserved offset of the map (R81). -/
def reservedOffset (off : Nat) : Prop :=
  (0x024 ≤ off ∧ off < 0x040) ∨ (0x050 ≤ off ∧ off < 0x080) ∨ (0x0B4 ≤ off ∧ off < 0x1000) ∨ (0x3000 ≤ off ∧ off < 0x4000)

/-- An aligned offset of CFG, CMD, STATE0/1, AUX0/1 or KEY0..12: the registers only IDLE accepts (R56, R81). -/
def idleOnlyOffset (off : Nat) : Prop :=
  off % 4 = 0 ∧ (off = 0x008 ∨ off = 0x00C ∨ (0x040 ≤ off ∧ off ≤ 0x04C) ∨ (0x080 ≤ off ∧ off ≤ 0x0B0))

/-- An aligned offset of a read-only register or the schedule window (R56, R81). -/
def readOnlyOffset (off : Nat) : Prop :=
  off % 4 = 0 ∧ ((0x010 ≤ off ∧ off ≤ 0x020) ∨ (0x1000 ≤ off ∧ off < 0x3000))

/-- The event is no reset: neither the platform's nor a write of CTRL with bit 1 set (R342). -/
def noReset (ev : Event) : Prop :=
  ev ≠ .hardReset ∧
    ∀ a v, ev = .access a → a.width = .w32 → a.off = 0x000 → a.kind = .write v → v.getLsbD 1 = false

/-- Two engines hold the same in every register but the interrupt enable, the DONE and OVR flags. -/
def sameButFlags (e e' : Engine) : Prop := { e with ie := e'.ie, done := e'.done, ovr := e'.ovr } = e'

/-- Two engines hold the same in everything but the contents of the STATE, AUX and KEY words and of RESULT that no mark says were
written (R57, R385; log entry 6). -/
def sameWritten (e e' : Engine) : Prop :=
  { e with state := e'.state, aux := e'.aux, key := e'.key, result := e'.result } = e' ∧
  (∀ n (h : n < 16), (if n < 8 then e.written.state0 else e.written.state1) = true → e.state[n] = e'.state[n]) ∧
  (∀ n (h : n < 16), (if n < 8 then e.written.aux0 else e.written.aux1) = true → e.aux[n] = e'.aux[n]) ∧
  (∀ n (h : n < 100), e.written.key[n / 8] = true → e.key[n] = e'.key[n]) ∧
  (e.written.result = true → e.result = e'.result)

/-- Two keys hold the same in the cells below `16z`, those Variants A and B use (R48). -/
def sameUsedKey (z : Nat) (key key' : KeyCells) : Prop := ∀ n (h : n < 100), n < 16 * z → key[n] = key'[n]

/-- The machine with `CFG.VARIANT` set to B. -/
def asVariantB (s : State) : State := { s with engine := { s.engine with cfg := { s.engine.cfg with variant := 1 } } }

/-- The machine with the cells of KEY replaced. -/
def withKey (s : State) (key : KeyCells) : State := { s with engine := { s.engine with key := key } }

end Sys2Proof.Claims

open Sys2Proof Sys2Proof.Machine Sys2Proof.Safety Sys2Proof.Claims

/-! ### Encoding -/

/-- Every command with operands in range is read back from its word (R116, R120). -/
def Obligations.DecodeEncodeRoundTrip : Prop := ∀ i : Instr, i.wellFormed = true → decode (encode i) = .ok i

/-- Every word that decodes is the word of the command read from it, so no bit of a legal word is dropped (R116, R119). -/
def Obligations.EncodeDecodeRoundTrip : Prop := ∀ (v : Word) (i : Instr), decode v = .ok i → i.wellFormed = true ∧ encode i = v

/-- A word decodes exactly when some row of the opcode map covers it, the command read is that row's, and no word is covered by
two rows (R116, R117, R119). -/
def Obligations.OpcodeMapDecides : Prop :=
  (∀ v : Word, (∃ i, decode v = .ok i) ↔ ∃ j ∈ opcodeMap, v &&& (opcodeRow j).maskBits = (opcodeRow j).matchBits) ∧
  (∀ (v : Word) (i : Instr), decode v = .ok i → v &&& (opcodeRow i).maskBits = (opcodeRow i).matchBits) ∧
  (∀ (v : Word), ∀ j ∈ opcodeMap, ∀ k ∈ opcodeMap,
    v &&& (opcodeRow j).maskBits = (opcodeRow j).matchBits → v &&& (opcodeRow k).maskBits = (opcodeRow k).matchBits → j = k)

/-- The words of vector table V-E (95_test_vectors.md). -/
def Obligations.SampleWordsDecode : Prop :=
  decode 0x00000000#32 = .ok .nop ∧ decode 0x00000001#32 = .ok .xors ∧ decode 0x00000512#32 = .ok (.ac 5) ∧
  decode 0x00001F32#32 = .ok (.rnde 31) ∧ decode 0x00A10008#32 = .ok (.lff 1 0xA#4) ∧
  decode 0x00510009#32 = .ok (.lfi 1 0x5#4) ∧ decode 0x00000030#32 = .ok .enc ∧
  (∀ v ∈ [0x00000003#32, 0x00000110#32, 0x01000000#32, 0x00A10108#32, 0x00100012#32, 0xFFFFFFFF#32], ∀ i, decode v ≠ .ok i)

/-! ### Steps -/

/-- On the engine's turn a BUSY engine whose word decodes runs exactly that command, in the state that has consumed the turn
(R90). -/
def Obligations.StepRunsDecodedCommand : Prop :=
  ∀ (s : State) (i : Instr), s.engine.phase = .busy → decode s.engine.cmd = .ok i →
    (s.pending = [] → step s = exec i s) ∧
    (∀ rest, s.pending = .engineTurn :: rest → step s = exec i { s with pending := rest })

/-- On the engine's turn, with nothing pending or with the turn ahead of other events (log entry 7), a BUSY engine whose word is
no command enters FAULT with code 1 and the word, and nothing else changes (R111, R340). -/
def Obligations.IllegalWordFaults : Prop :=
  ∀ (s : State), s.engine.phase = .busy → (∀ i, decode s.engine.cmd ≠ .ok i) →
    (s.pending = [] → step s = .next (faulted .illegalOpcode s)) ∧
    (∀ rest, s.pending = .engineTurn :: rest → step s = .next (faulted .illegalOpcode { s with pending := rest }))

/-- An engine that is not BUSY waits on its turn: nothing changes (R31, R384). -/
def Obligations.EngineWaitsUnlessBusy : Prop :=
  ∀ (s : State), s.engine.phase ≠ .busy →
    (s.pending = [] → step s = .next s) ∧
    (∀ rest, s.pending = .engineTurn :: rest → step s = .next { s with pending := rest })

/-- The machine never stops: every step answers a next state, and so does every command in every state. -/
def Obligations.MachineNeverStops : Prop :=
  (∀ s : State, ∃ t, step s = .next t) ∧ (∀ (i : Instr) (s : State), ∃ t, exec i s = .next t)

/-! ### Faults and completion in general -/

/-- A command to which causes apply reports the one with the lowest code, and does nothing else (R331, R332, R340, R341). -/
def Obligations.LowestCauseIsReported : Prop :=
  ∀ (i : Instr) (s : State) (c : FaultCode), cause Config.params i s.engine c →
    (∀ d : FaultCode, cause Config.params i s.engine d → faultNumber c ≤ faultNumber d) →
    exec i s = .next (faulted c s)

/-- At the completion of a command word, on the engine's turn with nothing pending or ahead of other events (log entry 7), the
cause with the lowest code is the fault: FAULT, its code and the word are recorded, and nothing else changes (R332, R340, R341). -/
def Obligations.LowestCauseAtCompletion : Prop :=
  ∀ (s : State) (c : FaultCode), s.engine.phase = .busy → wordCause Config.params s.engine.cmd s.engine c →
    (∀ d : FaultCode, wordCause Config.params s.engine.cmd s.engine d → faultNumber c ≤ faultNumber d) →
    (s.pending = [] → step s = .next (faulted c s)) ∧
    (∀ rest, s.pending = .engineTurn :: rest → step s = .next (faulted c { s with pending := rest }))

/-- A command to which no cause applies completes: IDLE and DONE, and of the control registers nothing else changes; the host
side does not change at all (R90, R55). -/
def Obligations.CommandCompletesWithoutCause : Prop :=
  ∀ (i : Instr) (s : State), runs i s.engine →
    ∃ e : Engine, exec i s = .next { s with engine := e } ∧ e.phase = .idle ∧ e.done = true ∧ e.ie = s.engine.ie ∧
      e.ovr = s.engine.ovr ∧ e.ecode = s.engine.ecode ∧ e.cfg = s.engine.cfg ∧ e.cmd = s.engine.cmd ∧ e.fcmd = s.engine.fcmd

/-! ### Results, command by command. Each is also the command's frame: the next state is given in full. -/

/-- NOP (R310). -/
def Obligations.NopResult : Prop :=
  ∀ s : State, exec .nop s = .next { s with engine := { s.engine with phase := .idle, done := true } }

/-- XORS (R143). -/
def Obligations.XorsResult : Prop :=
  ∀ s : State, ∃ m, exec .xors s = .next (stateIs s m) ∧ ∀ n : Fin 16, m[n] = s.engine.state[n] ^^^ s.engine.aux[n]

/-- CPSA (R144). -/
def Obligations.CpsaResult : Prop :=
  ∀ s : State, exec .cpsa s = .next { s with engine := { s.engine with
    phase := .idle, done := true, aux := s.engine.state,
    written := { s.engine.written with aux0 := true, aux1 := true } } }

/-- LFF (R161, R162, R163, R170). -/
def Obligations.LffResult : Prop :=
  ∀ (s : State) (w : Nat) (x : Cell), runs (.lff w x) s.engine →
    ∃ y, exec (.lff w x) s = .next (resultIs s y) ∧
      (s.engine.cfg.variant ≠ 2 → w = 1 →
        y.getLsbD 3 = x.getLsbD 2 ∧ y.getLsbD 2 = x.getLsbD 1 ∧ y.getLsbD 1 = x.getLsbD 0 ∧
          y.getLsbD 0 = (x.getLsbD 3 ^^ x.getLsbD 2)) ∧
      (s.engine.cfg.variant ≠ 2 → w = 2 →
        y.getLsbD 3 = (x.getLsbD 0 ^^ x.getLsbD 3) ∧ y.getLsbD 2 = x.getLsbD 3 ∧ y.getLsbD 1 = x.getLsbD 2 ∧
          y.getLsbD 0 = x.getLsbD 1) ∧
      (s.engine.cfg.variant = 1 → w = 3 → y = Config.params.lfsrB4.fn x) ∧
      (s.engine.cfg.variant = 2 → w = 1 → y = Config.params.lfsrC1.fwd x) ∧
      (s.engine.cfg.variant = 2 → w = 2 → y = Config.params.lfsrC2.fwd x) ∧
      (s.engine.cfg.variant = 2 → w = 3 → y = Config.params.lfsrC3.fwd x)

/-- LFI (R164, R171): also, LFF undoes it, and it undoes LFF. -/
def Obligations.LfiResult : Prop :=
  ∀ (s : State) (w : Nat) (x : Cell), runs (.lfi w x) s.engine →
    ∃ y, exec (.lfi w x) s = .next (resultIs s y) ∧
      (w = 1 → y = Config.params.lfsrC1.inv x) ∧ (w = 2 → y = Config.params.lfsrC2.inv x) ∧
      (w = 3 → y = Config.params.lfsrC3.inv x) ∧ exec (.lff w y) s = .next (resultIs s x) ∧
      ∃ z, exec (.lff w x) s = .next (resultIs s z) ∧ exec (.lfi w z) s = .next (resultIs s x)

/-- SC and SCI (R190, R191, R192, R210, R211): SCI's cell is the one that `S4` takes to the old cell. -/
def Obligations.SubCellsResult : Prop :=
  (∀ s : State, ∃ m, exec .sc s = .next (stateIs s m) ∧ ∀ n : Fin 16, m[n] = sbox s.engine.state[n]) ∧
  (∀ s : State, ∃ m, exec .sci s = .next (stateIs s m) ∧ ∀ n : Fin 16, sbox m[n] = s.engine.state[n])

/-- AC under Variants A and B (R193, R194, R212): cells 0, 4 and 8. -/
def Obligations.AcResultSimpleVariants : Prop :=
  ∀ (s : State) (r : Nat), runs (.ac r) s.engine → s.engine.cfg.variant ≠ 2 →
    ∃ m, exec (.ac r) s = .next (stateIs s m) ∧
      m[0] = s.engine.state[0] ^^^ (rcLfsr (r + 1)).extractLsb' 0 4 ∧
      m[4] = s.engine.state[4] ^^^ ((rcLfsr (r + 1)).extractLsb' 4 2).setWidth 4 ∧
      m[8] = s.engine.state[8] ^^^ 0x2#4 ∧
      ∀ n : Fin 16, n ≠ 0 → n ≠ 4 → n ≠ 8 → m[n] = s.engine.state[n]

/-- AC under Variant C (R195, R212): the full matrix `RCC(KEY[96][2:0], r)`. -/
def Obligations.AcResultVariantC : Prop :=
  ∀ (s : State) (r : Nat), runs (.ac r) s.engine → s.engine.cfg.variant = 2 →
    ∃ m, exec (.ac r) s = .next (stateIs s m) ∧
      ∀ n : Fin 16, m[n] = s.engine.state[n] ^^^ (Config.params.rcc (s.engine.key[96].extractLsb' 0 3) r)[n]

/-- ART under Variants A and B (R196, R213): all `z` words into rows 0 and 1, rows 2 and 3 unchanged. -/
def Obligations.ArtResultSimpleVariants : Prop :=
  ∀ (s : State) (r : Nat), runs (.art r) s.engine → s.engine.cfg.variant ≠ 2 →
    ∃ m, exec (.art r) s = .next (stateIs s m) ∧
      ∀ n : Fin 16, m[n] =
        if n.val < 8 then s.engine.state[n] ^^^ wordsXor s.engine.sched r n.val s.engine.cfg.z.toNat else s.engine.state[n]

/-- ART under Variant C (R197, R213): four scheduled words into rows 0 and 1, sub-key `r mod 4` into rows 2 and 3. -/
def Obligations.ArtResultVariantC : Prop :=
  ∀ (s : State) (r : Nat), runs (.art r) s.engine → s.engine.cfg.variant = 2 →
    ∃ m, exec (.art r) s = .next (stateIs s m) ∧
      (∀ n : Fin 16, n.val < 8 → m[n] = s.engine.state[n] ^^^ wordsXor s.engine.sched r n.val 4) ∧
      (∀ n : Fin 16, 8 ≤ n.val → m[n] = s.engine.state[n] ^^^ cellAt s.engine.key (8 * (r % 4) + (n.val - 8)))

/-- SR and SRI (R198, R199, R214, R215): row i rotates right, or left, by i. -/
def Obligations.ShiftRowsResult : Prop :=
  (∀ s : State, ∃ m, exec .sr s = .next (stateIs s m) ∧
    ∀ i j, i < 4 → j < 4 → cellAt m (4 * i + j) = cellAt s.engine.state (4 * i + (j + 4 - i) % 4)) ∧
  (∀ s : State, ∃ m, exec .sri s = .next (stateIs s m) ∧
    ∀ i j, i < 4 → j < 4 → cellAt m (4 * i + j) = cellAt s.engine.state (4 * i + (j + i) % 4))

/-- MC and MCI (R200, R201, R216, R217), column by column. -/
def Obligations.MixColumnsResult : Prop :=
  (∀ s : State, ∃ m, exec .mc s = .next (stateIs s m) ∧ ∀ j, j < 4 →
    let a := fun i => cellAt s.engine.state (4 * i + j)
    cellAt m j = a 0 ^^^ a 2 ^^^ a 3 ∧ cellAt m (4 + j) = a 0 ∧ cellAt m (8 + j) = a 1 ^^^ a 2 ∧
      cellAt m (12 + j) = a 0 ^^^ a 2) ∧
  (∀ s : State, ∃ m, exec .mci s = .next (stateIs s m) ∧ ∀ j, j < 4 →
    let b := fun i => cellAt s.engine.state (4 * i + j)
    cellAt m j = b 1 ∧ cellAt m (4 + j) = b 1 ^^^ b 2 ^^^ b 3 ∧ cellAt m (8 + j) = b 1 ^^^ b 3 ∧
      cellAt m (12 + j) = b 0 ^^^ b 3)

/-- MC as "a sequence of XORs and a row rotation" (R200): row1 ^= row2, row2 ^= row0, row3 ^= row2, then the rows rotate down by
one. -/
def Obligations.MixColumnsIsXorsAndRotation : Prop :=
  ∀ s : State, ∃ m, exec .mc s = .next (stateIs s m) ∧ ∀ j, j < 4 →
    let row1 := cellAt s.engine.state (4 + j) ^^^ cellAt s.engine.state (8 + j)
    let row2 := cellAt s.engine.state (8 + j) ^^^ cellAt s.engine.state j
    let row3 := cellAt s.engine.state (12 + j) ^^^ row2
    cellAt m j = row3 ∧ cellAt m (4 + j) = cellAt s.engine.state j ∧ cellAt m (8 + j) = row1 ∧ cellAt m (12 + j) = row2

/-- KSF (R240, R242, R243, R248, R250): entry 0 is the tweakey words of KEY, each entry is one forward step from the one before,
`SCHED_LEN` is R + 1, and every byte outside the stored words is as before (log entry 18). The steps
permute by the values of `PT` (log entry 23). -/
def Obligations.KsfResult : Prop :=
  ∀ s : State, runs .ksf s.engine →
    let z := s.engine.cfg.z.toNat
    let r := effectiveRounds Config.params s.engine.cfg
    ∃ mem, exec .ksf s = .next { s with engine := { s.engine with
        phase := .idle, done := true, sched := mem, schedLen := BitVec.ofNat 9 (r + 1) } } ∧
      (∀ w n, w < z → n < 16 →
        cellAt (schedRead mem 0 w) n = cellAt s.engine.key ((if s.engine.cfg.variant = 2 then 32 else 0) + 16 * w + n)) ∧
      (∀ k w, k < r → w < z → forwardStep Config.params s.engine.variant w (schedRead mem k w) (schedRead mem (k + 1) w)) ∧
      (∀ a, outsideEntries r z a → Memory.read mem a = Memory.read s.engine.sched a)

/-- KSI (R244, R246, R248, R251): entry R is the tweakey region of KEY, each earlier entry is one inverse step from the later one,
KEY[32..95] becomes entry 0 and its other cells stay, and every byte outside the stored words is as before (log entry 18). The steps
permute by the values of `PT` (log entry 23). -/
def Obligations.KsiResult : Prop :=
  ∀ s : State, runs .ksi s.engine →
    let r := effectiveRounds Config.params s.engine.cfg
    ∃ mem key marks, exec .ksi s = .next { s with engine := { s.engine with
        phase := .idle, done := true, sched := mem, schedLen := BitVec.ofNat 9 (r + 1), key := key,
        written := { s.engine.written with key := marks } } } ∧
      (∀ w n, w < 4 → n < 16 → cellAt (schedRead mem r w) n = cellAt s.engine.key (32 + 16 * w + n)) ∧
      (∀ k w, k < r → w < 4 → inverseStep Config.params w (schedRead mem (k + 1) w) (schedRead mem k w)) ∧
      (∀ w n, w < 4 → n < 16 → cellAt key (32 + 16 * w + n) = cellAt (schedRead mem 0 w) n) ∧
      (∀ n : Fin 100, n.val < 32 ∨ 96 ≤ n.val → key[n] = s.engine.key[n]) ∧
      (∀ k : Fin 13, marks[k] = (decide (4 ≤ k.val ∧ k.val ≤ 11) || s.engine.written.key[k])) ∧
      (∀ a, outsideEntries r 4 a → Memory.read mem a = Memory.read s.engine.sched a)

/-- RNDE r is SC, AC r, ART r, SR, MC in sequence (R270, R282). -/
def Obligations.RndeIsFiveLayers : Prop :=
  ∀ (s : State) (r : Nat), runs (.rnde r) s.engine →
    ∃ m, exec (.rnde r) s = .next (stateIs s m) ∧ runAll [.sc, .ac r, .art r, .sr, .mc] s = .next (stateIs s m)

/-- RNDD r is MCI, SRI, ART r, AC r, SCI in sequence (R271, R283). -/
def Obligations.RnddIsFiveInverseLayers : Prop :=
  ∀ (s : State) (r : Nat), runs (.rndd r) s.engine →
    ∃ m, exec (.rndd r) s = .next (stateIs s m) ∧ runAll [.mci, .sri, .art r, .ac r, .sci] s = .next (stateIs s m)

/-- ENC is KSF and then RNDE 0 to RNDE R - 1 (R272, R280, R282): it changes what KSF changes, and STATE. -/
def Obligations.EncIsKsfThenRounds : Prop :=
  ∀ s : State, runs .enc s.engine →
    ∃ k m, exec .enc s = .next (stateIs k m) ∧ exec .ksf s = .next k ∧
      runAll (.ksf :: (List.range (effectiveRounds Config.params s.engine.cfg)).map .rnde) s = .next (stateIs k m)

/-- DEC is KSF and then RNDD R - 1 down to RNDD 0 (R273, R281, R283): it changes what KSF changes, and STATE. -/
def Obligations.DecIsKsfThenInverseRounds : Prop :=
  ∀ s : State, runs .dec s.engine →
    ∃ k m, exec .dec s = .next (stateIs k m) ∧ exec .ksf s = .next k ∧
      runAll (.ksf :: (List.range (effectiveRounds Config.params s.engine.cfg)).reverse.map .rndd) s = .next (stateIs k m)

/-! ### Inverses -/

/-- SC and SCI, SR and SRI, MC and MCI undo each other in both orders; four SR restore STATE, and SRI equals three SR (R211, R214,
R215, R217). -/
def Obligations.LayersUndoEachOther : Prop :=
  ∀ s : State,
    (∀ is ∈ [[Instr.sc, .sci], [.sci, .sc], [.sr, .sri], [.sri, .sr], [.mc, .mci], [.mci, .mc], [.sr, .sr, .sr, .sr]],
      runAll is s = .next (stateIs s s.engine.state)) ∧
    runAll [.sr, .sr, .sr] s = exec .sri s

/-- XORS, AC r and ART r are their own inverses, and CPSA then XORS clears STATE (R143, R144, R212, R213). -/
def Obligations.XorCommandsAreInvolutions : Prop :=
  ∀ s : State,
    (runAll [.xors, .xors] s = .next (stateIs s s.engine.state)) ∧
    (∀ r, runs (.ac r) s.engine → runAll [.ac r, .ac r] s = .next (stateIs s s.engine.state)) ∧
    (∀ r, runs (.art r) s.engine → runAll [.art r, .art r] s = .next (stateIs s s.engine.state)) ∧
    (∃ t, runAll [.cpsa, .xors] s = .next t ∧ ∀ n : Fin 16, t.engine.state[n] = 0)

/-- RNDE r then RNDD r restores STATE, and RNDD r then RNDE r (R271, R283). -/
def Obligations.RoundAndInverseRoundCancel : Prop :=
  ∀ (s : State) (r : Nat), runs (.rndd r) s.engine →
    runAll [.rnde r, .rndd r] s = .next (stateIs s s.engine.state) ∧
    runAll [.rndd r, .rnde r] s = .next (stateIs s s.engine.state)

/-- ENC then DEC with no host write between restores STATE and leaves KEY (R274, R281). -/
def Obligations.DecUndoesEnc : Prop :=
  ∀ s : State, runs .dec s.engine →
    ∃ t, runAll [.enc, .dec] s = .next t ∧ t.engine.phase = .idle ∧ t.engine.state = s.engine.state ∧
      t.engine.key = s.engine.key

/-- KSI from the last entry of a KSF schedule finds the original KEY and the same schedule (R245, R251). -/
def Obligations.KsiUndoesKsf : Prop :=
  ∀ (s : State) (key' : KeyCells), runs .ksi s.engine →
    let r := effectiveRounds Config.params s.engine.cfg
    ∃ t, exec .ksf s = .next t ∧
      ((∀ w n, w < 4 → n < 16 → cellAt key' (32 + 16 * w + n) = cellAt (schedRead t.engine.sched r w) n) →
       (∀ n : Fin 100, n.val < 32 ∨ 96 ≤ n.val → key'[n] = s.engine.key[n]) →
       ∃ u, exec .ksi (withKey t key') = .next u ∧ u.engine.phase = .idle ∧ u.engine.key = s.engine.key ∧
         u.engine.schedLen = t.engine.schedLen ∧
         ∀ k w, k ≤ r → w < 4 → schedRead u.engine.sched k w = schedRead t.engine.sched k w)

/-- One schedule step is linear, word by word, and word 0 returns to its start every 16 steps and not before (R247). -/
def Obligations.ScheduleStepIsLinear : Prop :=
  ∀ (p : Params) (v : Variant),
    (∀ (w : Nat) (a b : Mat4), tkStepWord p v w (xorMat a b) = xorMat (tkStepWord p v w a) (tkStepWord p v w b)) ∧
    (∀ (w : Nat) (a b : Mat4), tkInvStepWord p w (xorMat a b) = xorMat (tkInvStepWord p w a) (tkInvStepWord p w b)) ∧
    (∀ a : Mat4, (tkStepWord p v 0)^[16] a = a) ∧
    (∀ n, 0 < n → n < 16 → ∃ a : Mat4, (tkStepWord p v 0)^[n] a ≠ a)

/-! ### Whole-machine rules over all commands -/

/-- Variant B with `z <= 3` computes what Variant A computes, for every command but LFF with word 3 (R202, R250, R280). -/
def Obligations.VariantBExtendsVariantA : Prop :=
  ∀ (i : Instr) (s : State), s.engine.cfg.variant = 0 → s.engine.cfg.z.toNat ≤ 3 → (∀ x, i ≠ .lff 3 x) →
    ∃ t, exec i s = .next t ∧ exec i (asVariantB s) = .next (asVariantB t)

/-- Under Variants A and B no command reads or writes the cells of KEY from `16z` up: two machines that differ only there still
differ only there afterwards (R48). -/
def Obligations.UnusedKeyCellsHaveNoEffect : Prop :=
  ∀ (i : Instr) (s : State) (key' : KeyCells), s.engine.cfg.variant = 0 ∨ s.engine.cfg.variant = 1 →
    sameUsedKey s.engine.cfg.z.toNat s.engine.key key' →
    ∃ t, exec i s = .next t ∧ t.engine.key = s.engine.key ∧ exec i (withKey s key') = .next (withKey t key')

/-- What a command leaves in the registers that count as written does not depend on what the others hold, when every register it
reads was written (R385; the marks are the model's, log entry 6). -/
def Obligations.UnwrittenRegistersHaveNoEffect : Prop :=
  ∀ (i : Instr) (s : State) (e' : Engine), readsWritten i s.engine = true → sameWritten s.engine e' →
    ∃ e₁ e₂, exec i s = .next { s with engine := e₁ } ∧ exec i { s with engine := e' } = .next { s with engine := e₂ } ∧
      sameWritten e₁ e₂

/-! ### The register window -/

/-- An access of another width, at a misaligned offset or at a reserved offset is a bus error and changes nothing (R82, R345). That
every bus error has the one effect `Config.params.busErrEffect` is the model's choice (log entry 22). -/
def Obligations.BusErrorChangesNothing : Prop :=
  ∀ (s : State) (a : Access) (rest : List Event), s.pending = .access a :: rest →
    a.width ≠ .w32 ∨ a.off % 4 ≠ 0 ∨ reservedOffset a.off →
    step s = .next { s with
      pending := rest,
      answers := { host := a.host, response := .busError Config.params.busErrEffect } :: s.answers }

/-- An access at an offset outside the window is a bus error and changes nothing (R140; log entry 16). That its effect is the
one of every bus error is the model's choice (log entry 22). -/
def Obligations.OutsideWindowIsBusError : Prop :=
  ∀ (s : State) (a : Access) (rest : List Event), s.pending = .access a :: rest → 0x4000 ≤ a.off →
    step s = .next { s with
      pending := rest,
      answers := { host := a.host, response := .busError Config.params.busErrEffect } :: s.answers }

/-- A read of any offset, in any phase, changes no engine state and is answered once (R87). -/
def Obligations.ReadsChangeNothing : Prop :=
  ∀ (s : State) (a : Access) (rest : List Event), s.pending = .access a :: rest → a.kind = .read →
    ∃ t, step s = .next t ∧ t.engine = s.engine ∧ t.pending = rest ∧
      ∃ r, t.answers = { host := a.host, response := r } :: s.answers

/-- What the host reads of the control registers, exactly, in every phase (R35, R40, R42, R44, R45, R46, R88). ECODE is the number
R331 gives the cause, and 0 where there is none. -/
def Obligations.ControlRegistersReadExactly : Prop :=
  ∀ s : State,
    reads s 0x000 (if s.engine.ie then 1#32 else 0#32) ∧
    (∃ v, reads s 0x004 v ∧ v.getLsbD 0 = decide (s.engine.phase = .busy) ∧ v.getLsbD 1 = s.engine.done ∧
      v.getLsbD 2 = decide (s.engine.phase = .fault) ∧ v.getLsbD 3 = s.engine.ovr ∧ v.extractLsb' 4 4 = 0#4 ∧
      v.extractLsb' 8 8 = (match s.engine.ecode with
        | none => 0#8
        | some c => BitVec.ofNat 8 (faultNumber c)) ∧ v.extractLsb' 16 16 = 0#16) ∧
    (∃ v, reads s 0x008 v ∧ v.extractLsb' 0 2 = s.engine.cfg.variant ∧ v.extractLsb' 2 2 = 0#2 ∧
      v.extractLsb' 4 3 = s.engine.cfg.z ∧ v.extractLsb' 7 1 = 0#1 ∧ v.extractLsb' 8 8 = s.engine.cfg.rounds ∧
      v.extractLsb' 16 16 = 0#16) ∧
    reads s 0x00C 0#32 ∧ reads s 0x018 0x534B4E59#32 ∧
    (∃ v, reads s 0x01C v ∧ (v.extractLsb' 0 8).toNat = Config.params.rMaxC ∧ v.extractLsb' 8 24 = 0x00033E#24) ∧
    reads s 0x020 s.engine.fcmd

/-- What the host reads of the data registers in IDLE and FAULT (R33, R34, R43, R47, R48, R84, R89). -/
def Obligations.DataRegistersReadContents : Prop :=
  ∀ s : State, s.engine.phase ≠ .busy →
    reads s 0x010 (s.engine.result.setWidth 32) ∧ reads s 0x014 (s.engine.schedLen.setWidth 32) ∧
    (∀ h, h < 2 → ∃ v, reads s (0x040 + 4 * h) v ∧ packs s.engine.state h v) ∧
    (∀ h, h < 2 → ∃ v, reads s (0x048 + 4 * h) v ∧ packs s.engine.aux h v) ∧
    (∀ k, k < 13 → ∃ v, reads s (0x080 + 4 * k) v ∧ packs s.engine.key k v)

/-- What the host reads of the schedule window in IDLE and FAULT (R50): 0 for an entry that is not valid and for a word `w >= z`
under A and B, and otherwise half `h` of `Sched(e, w)`. -/
def Obligations.ScheduleWindowReads : Prop :=
  ∀ (s : State) (e w h : Nat), s.engine.phase ≠ .busy → e < 256 → w < 4 → h < 2 →
    ∃ v, reads s (0x1000 + 32 * e + 8 * w + 4 * h) v ∧
      (s.engine.schedLen.toNat ≤ e ∨ (s.engine.cfg.variant = 0 ∨ s.engine.cfg.variant = 1) ∧ s.engine.cfg.z.toNat ≤ w → v = 0) ∧
      (e < s.engine.schedLen.toNat → (s.engine.cfg.variant = 0 ∨ s.engine.cfg.variant = 1 → w < s.engine.cfg.z.toNat) →
        packs (schedRead s.engine.sched e w) h v)

/-- While BUSY a read of a data register answers a value nothing constrains, the next free one, and the next such read another
(R88; log entries 4 and 5). -/
def Obligations.BusyReadsAreFree : Prop :=
  ∀ (s : State) (host off : Nat) (rest : List Event), s.engine.phase = .busy → off % 4 = 0 →
    (off = 0x010 ∨ off = 0x014 ∨ (0x040 ≤ off ∧ off ≤ 0x04C) ∨ (0x080 ≤ off ∧ off ≤ 0x0B0) ∨ (0x1000 ≤ off ∧ off < 0x3000)) →
    step (withRead host off rest s) = .next { s with
      pending := rest, draws := s.draws + 1,
      answers := { host := host, response := .data (Config.freeWord s.draws) } :: s.answers }

/-- Writes by phase (R344, R56): what only IDLE accepts is dropped with OVR while BUSY, which leaves the phase and the running
command, and dropped in FAULT. -/
def Obligations.WritesRefusedByPhase : Prop :=
  ∀ (s : State) (off : Nat) (v : Word),
    (idleOnlyOffset off → s.engine.phase = .busy → writes s off v { s.engine with ovr := true }) ∧
    (idleOnlyOffset off → s.engine.phase = .fault → writes s off v s.engine)

/-- A write of a read-only register is ignored in every phase; while BUSY it sets OVR, as R87 and R390 say of any write ignored
then, and nothing else changes (R56; log entry 11). -/
def Obligations.ReadOnlyRegistersIgnoreWrites : Prop :=
  ∀ (s : State) (off : Nat) (v : Word), readOnlyOffset off →
    writes s off v (if s.engine.phase = .busy then { s.engine with ovr := true } else s.engine)

/-- Accepted writes in IDLE (R33, R34, R36 to R39, R42, R48, R51, R84): CMD latches the word; CFG stores its fields and KEY its
cells, and both invalidate the schedule; STATE and AUX store their cells. Each write but CMD's sets the model's mark of its word
and no other (R385; log entry 6). -/
def Obligations.WritesAcceptedInIdle : Prop :=
  ∀ (s : State) (v : Word), s.engine.phase = .idle →
    writes s 0x00C v { s.engine with done := false, cmd := v, phase := .busy } ∧
    writes s 0x008 v { s.engine with
      cfg := { variant := v.extractLsb' 0 2, z := v.extractLsb' 4 3, rounds := v.extractLsb' 8 8 }, schedLen := 0,
      written := { s.engine.written with cfg := true } } ∧
    (∀ h, h < 2 → ∃ m, writes s (0x040 + 4 * h) v { s.engine with state := m, written := { s.engine.written with
        state0 := decide (h = 0) || s.engine.written.state0, state1 := decide (h = 1) || s.engine.written.state1 } } ∧
      replaced s.engine.state m h v) ∧
    (∀ h, h < 2 → ∃ m, writes s (0x048 + 4 * h) v { s.engine with aux := m, written := { s.engine.written with
        aux0 := decide (h = 0) || s.engine.written.aux0, aux1 := decide (h = 1) || s.engine.written.aux1 } } ∧
      replaced s.engine.aux m h v) ∧
    (∀ k, k < 13 → ∃ m marks, writes s (0x080 + 4 * k) v { s.engine with
        key := m, schedLen := 0, written := { s.engine.written with key := marks } } ∧
      replaced s.engine.key m k v ∧ ∀ j : Fin 13, marks[j] = (decide (j.val = k) || s.engine.written.key[j]))

/-- A write of STATUS clears DONE and OVR where its bits 1 and 3 are set, in every phase, and nothing else (R41). -/
def Obligations.StatusWriteAcknowledges : Prop :=
  ∀ (s : State) (v : Word),
    writes s 0x004 v { s.engine with
      done := if v.getLsbD 1 then false else s.engine.done, ovr := if v.getLsbD 3 then false else s.engine.ovr }

/-- IRQ follows `IE AND (DONE OR FAULT)`, and a write of CTRL without SRST sets IE to bit 0 in every phase and changes nothing else
(R35, R350). -/
def Obligations.InterruptLevelAndEnable : Prop :=
  ∀ (s : State) (v : Word),
    (irq s.engine = true ↔ s.engine.ie = true ∧ (s.engine.done = true ∨ s.engine.phase = .fault)) ∧
    (v.getLsbD 1 = false → writes s 0x000 v { s.engine with ie := v.getLsbD 0 })

/-! ### Host programs -/

/-- `RUN` and `CHECK` of a host program (R121), run turn by turn (log entry 21). `RUN` of an operand out of range is an assembly
error. `RUN i` in IDLE, with nothing else pending, waits through any number of polls while the engine is BUSY, and ends with the
first poll after the command has completed, with the engine as `exec i` left it. `CHECK` fails exactly in FAULT. -/
def Obligations.HostProgramsRun : Prop :=
  (∀ i : Instr, i.wellFormed = false → expandStmt (.run i) = none) ∧
  (∀ (s : State) (i : Instr) (host k : Nat), s.engine.phase = .idle → s.pending = [] → i.wellFormed = true →
    let e := { s.engine with done := false, cmd := encode i, phase := .busy }
    ∃ ops w t u, expandStmt (.run i) = some ops ∧
      runProgram host (.host :: List.replicate k .host) (.todo ops) s = .next (.todo [.poll], w) ∧ w.engine = e ∧
      exec i { s with engine := e } = .next u ∧
      runProgram host (.host :: List.replicate k .host ++ [.machine, .host]) (.todo ops) s = .next (.todo [], t) ∧
      t.engine = u.engine) ∧
  (∀ (s : State) (host : Nat) (ops : List HostOp), ∃ t, t.engine = s.engine ∧
    runProgram host [.host] (.todo (.check :: ops)) s =
      .next (if s.engine.phase = .fault then .failed else .todo ops, t))

/-! ### Resets -/

/-- Soft reset (R35, R382): control registers to 0, IDLE, IE 0 whatever bit 0 says; the data registers keep their values in IDLE
and FAULT, and after a BUSY phase they are free values (log entry 3). It clears the model's mark of CFG, and after a BUSY
phase every mark (R385; log entry 6). -/
def Obligations.SoftResetEffect : Prop :=
  ∀ (s : State) (host : Nat) (v : Word) (rest : List Event), v.getLsbD 1 = true →
    ∃ t, step (withWrite host 0x000 v rest s) = .next t ∧ t.pending = rest ∧ t.engine.phase = .idle ∧
      t.engine.ie = false ∧ t.engine.done = false ∧ t.engine.ovr = false ∧ t.engine.ecode = none ∧
      t.engine.cfg = { variant := 0, z := 0, rounds := 0 } ∧ t.engine.schedLen = 0 ∧ t.engine.fcmd = 0 ∧
      (s.engine.phase ≠ .busy → t.engine.state = s.engine.state ∧ t.engine.aux = s.engine.aux ∧ t.engine.key = s.engine.key ∧
        t.engine.result = s.engine.result ∧ t.engine.sched = s.engine.sched ∧
        t.engine.written = { s.engine.written with cfg := false }) ∧
      (s.engine.phase = .busy → t.engine.state = Config.freeMatrix s.draws ∧ t.engine.aux = Config.freeMatrix (s.draws + 1) ∧
        t.engine.key = Config.freeKey s.draws ∧ t.engine.result = Config.freeCell s.draws ∧
        t.engine.sched = (Config.freeSched s.draws).cells ∧ t.engine.written = Written.nothing)

/-- The platform's hard reset, in every phase (R380, R381): control registers to 0, IDLE, and free values in the data registers
(log entry 3), and no mark of the model's set (R385; log entry 6). -/
def Obligations.HardResetEffect : Prop :=
  ∀ (s : State) (rest : List Event), s.pending = .hardReset :: rest →
    ∃ t, step s = .next t ∧ t.pending = rest ∧ t.engine.phase = .idle ∧ t.engine.ie = false ∧ t.engine.done = false ∧
      t.engine.ovr = false ∧ t.engine.ecode = none ∧ t.engine.cfg = { variant := 0, z := 0, rounds := 0 } ∧
      t.engine.schedLen = 0 ∧ t.engine.fcmd = 0 ∧ irq t.engine = false ∧
      t.engine.state = Config.freeMatrix s.draws ∧ t.engine.aux = Config.freeMatrix (s.draws + 1) ∧
      t.engine.key = Config.freeKey s.draws ∧ t.engine.result = Config.freeCell s.draws ∧
      t.engine.sched = (Config.freeSched s.draws).cells ∧ t.engine.written = Written.nothing

/-- The machine at reset (R57): the control registers the rule gives values for. The data registers are the model's choice
(log entries 1 and 2) and are not stated. -/
def Obligations.ResetValues : Prop :=
  State.reset.engine.phase = .idle ∧ State.reset.engine.ie = false ∧ statusWord State.reset.engine = 0 ∧
    cfgWord State.reset.engine.cfg = 0 ∧ State.reset.engine.schedLen = 0 ∧ State.reset.engine.fcmd = 0 ∧
    irq State.reset.engine = false

/-! ### Invariants and runs -/

/-- The invariant holds at reset. -/
def Obligations.InvariantAtReset : Prop := engineInv Config.params State.reset.engine

/-- Every step keeps the invariant: DONE only in IDLE, a code and a word recorded only in FAULT, the schedule memory canonical, and
a valid schedule always the schedule of the current KEY and CFG (R40, R46, R47, R51, R391). -/
def Obligations.StepKeepsInvariant : Prop :=
  ∀ s t : State, engineInv Config.params s.engine → step s = .next t → engineInv Config.params t.engine

/-- FAULT is sticky: whatever happens but a reset, the engine stays in FAULT with its code, its word and its data (R342). -/
def Obligations.FaultIsSticky : Prop :=
  ∀ s : State, s.engine.phase = .fault → (∀ ev rest, s.pending = ev :: rest → noReset ev) →
    ∃ t, step s = .next t ∧ sameButFlags s.engine t.engine

/-- While BUSY no host access but a soft reset changes the running command, CFG or a data register (R56, R92). -/
def Obligations.BusyFreezesCommandAndData : Prop :=
  ∀ (s : State) (a : Access) (rest : List Event), s.engine.phase = .busy → s.pending = .access a :: rest →
    noReset (.access a) → ∃ t, step s = .next t ∧ sameButFlags s.engine t.engine

/-- A running command completes, at the latest when the pending events have run out (log entry 7), with the data that completing
it at once would have left, and a word that is no command with fault code 1 (R90, R92, R117). -/
def Obligations.CommandEventuallyCompletes : Prop :=
  ∀ s : State, s.engine.phase = .busy → (∀ ev ∈ s.pending, noReset ev) →
    ∃ n t, n ≤ s.pending.length + 1 ∧ Host.Core.run core n s = .next t ∧ t.engine.phase ≠ .busy ∧
      (∀ i, decode s.engine.cmd = .ok i → ∃ u, exec i s = .next u ∧ sameButFlags u.engine t.engine) ∧
      ((∀ i, decode s.engine.cmd ≠ .ok i) → sameButFlags (faulted .illegalOpcode s).engine t.engine)
end

