-- ==== Sys2Proof/Laws/Cells.lean ====
section
/-! SUPPORT. The small laws of cells, matrices and their packing into words. -/

namespace Sys2Proof.Laws

open Sys2Proof Sys2Proof.Machine

/-! ### Cells -/

theorem cellAt_of_lt {k : Nat} (m : Vector Cell k) {n : Nat} (h : n < k) : cellAt m n = m[n] := by
  simp [cellAt, h]

theorem cellAt_of_ge {k : Nat} (m : Vector Cell k) {n : Nat} (h : k ≤ n) : cellAt m n = 0 := by
  simp [cellAt, Nat.not_lt.mpr h]

/-- Two registers of cells with equal cells are equal. -/
theorem cells_ext {k : Nat} {a b : Vector Cell k} (h : ∀ n, n < k → cellAt a n = cellAt b n) : a = b := by
  ext1 n hn
  simpa [cellAt, hn] using h n hn

theorem cellAt_ofFn {k : Nat} (f : Fin k → Cell) {n : Nat} (h : n < k) : cellAt (Vector.ofFn f) n = f ⟨n, h⟩ := by
  simp [cellAt, h]

theorem cellAt_tabulate (f : Nat → Cell) {n : Nat} (h : n < 16) : cellAt (tabulate f) n = f n := by
  simp [tabulate, cellAt_ofFn _ h]

/-- Two tabulated matrices are equal when their functions agree below 16. -/
theorem tabulate_congr {f g : Nat → Cell} (h : ∀ n, n < 16 → f n = g n) : tabulate f = tabulate g :=
  cells_ext fun n hn => by rw [cellAt_tabulate f hn, cellAt_tabulate g hn, h n hn]

/-- A matrix is the table of its cells. -/
theorem tabulate_cellAt (m : Mat4) : tabulate (cellAt m) = m := cells_ext fun _ hn => cellAt_tabulate _ hn

theorem cellAt_replicate_zero {k : Nat} (n : Nat) : cellAt (Vector.replicate k (0 : Cell)) n = 0 := by
  unfold cellAt; split <;> simp

/-! ### XOR of matrices (R141) -/

theorem cellAt_xorMat (a b : Mat4) {n : Nat} (h : n < 16) : cellAt (xorMat a b) n = cellAt a n ^^^ cellAt b n := by
  simp [xorMat, cellAt_tabulate _ h]

theorem xorMat_xorMat_cancel (a b : Mat4) : xorMat (xorMat a b) b = a :=
  cells_ext fun n hn => by rw [cellAt_xorMat _ _ hn, cellAt_xorMat _ _ hn, BitVec.xor_assoc, BitVec.xor_self, BitVec.xor_zero]

theorem xorMat_comm (a b : Mat4) : xorMat a b = xorMat b a :=
  tabulate_congr fun _ _ => BitVec.xor_comm _ _

theorem xorMat_assoc (a b c : Mat4) : xorMat (xorMat a b) c = xorMat a (xorMat b c) :=
  cells_ext fun n hn => by simp only [cellAt_xorMat _ _ hn, BitVec.xor_assoc]

/-! ### Permutations -/

theorem cellAt_permuteCells (t : List Nat) (m : Mat4) {n : Nat} (h : n < 16) :
    cellAt (permuteCells t m) n = cellAt m (t.getD n 0) := by
  simp [permuteCells, cellAt_tabulate _ h]

/-- Permuting by `t` and then by `u` is the identity when `t[u[n]] = n` and `u` stays below 16. -/
theorem permuteCells_cancel {t u : List Nat} (h : ∀ n, n < 16 → u.getD n 0 < 16 ∧ t.getD (u.getD n 0) 0 = n) (m : Mat4) :
    permuteCells u (permuteCells t m) = m :=
  cells_ext fun n hn => by
    rw [cellAt_permuteCells _ _ hn, cellAt_permuteCells _ _ (h n hn).1, (h n hn).2]

/-! ### Packing into words (R84) -/

/-- Bit `j` of a packed word is bit `j mod 4` of cell `7 - j / 4`. -/
theorem getLsbD_packWord (c : Nat → Cell) {j : Nat} (h : j < 32) :
    (packWord c).getLsbD j = (c (7 - j / 4)).getLsbD (j % 4) := by
  unfold packWord
  simp only [BitVec.getLsbD_append]
  obtain hj | hj | hj | hj | hj | hj | hj | hj :
    j / 4 = 0 ∨ j / 4 = 1 ∨ j / 4 = 2 ∨ j / 4 = 3 ∨ j / 4 = 4 ∨ j / 4 = 5 ∨ j / 4 = 6 ∨ j / 4 = 7 := by omega
  all_goals
    simp only [hj]
    repeat' split
    all_goals first | omega | (congr 1; omega)

/-- Cell `i` of a packed word is the cell packed there. -/
theorem wordCell_packWord (c : Nat → Cell) {i : Nat} (h : i < 8) : wordCell (packWord c) i = c i := by
  apply BitVec.eq_of_getLsbD_eq
  intro j hj
  rw [wordCell, BitVec.getLsbD_extractLsb', getLsbD_packWord c (by omega)]
  have h1 : (28 - 4 * i + j) / 4 = 7 - i := by omega
  have h2 : (28 - 4 * i + j) % 4 = j := by omega
  rw [h1, h2, show 7 - (7 - i) = i by omega]
  simp [hj]

/-- Packing the cells of a word gives the word back. -/
theorem packWord_wordCell (v : Word) : packWord (wordCell v) = v := by
  apply BitVec.eq_of_getLsbD_eq
  intro j hj
  rw [getLsbD_packWord _ hj, wordCell, BitVec.getLsbD_extractLsb',
    show 28 - 4 * (7 - j / 4) + j % 4 = j by omega]
  simp [Nat.mod_lt]

theorem packWord_congr {c d : Nat → Cell} (h : ∀ i, i < 8 → c i = d i) : packWord c = packWord d := by
  simp [packWord, h]

theorem wordCell_cellsWord {k : Nat} (m : Vector Cell k) (h : Nat) {i : Nat} (hi : i < 8) :
    wordCell (cellsWord m h) i = cellAt m (8 * h + i) := wordCell_packWord _ hi

theorem cellAt_withCellsWord {k : Nat} (m : Vector Cell k) (h : Nat) (v : Word) {n : Nat} (hn : n < k) :
    cellAt (withCellsWord m h v) n = if n / 8 = h then wordCell v (n % 8) else cellAt m n := by
  simp [withCellsWord, cellAt_ofFn _ hn, cellAt_of_lt _ hn]

/-- A word written to a register that has all its eight cells is read back. -/
theorem cellsWord_withCellsWord_same {k : Nat} (m : Vector Cell k) {h : Nat} (v : Word) (hh : 8 * h + 8 ≤ k) :
    cellsWord (withCellsWord m h v) h = v := by
  rw [cellsWord, ← packWord_wordCell v]
  apply packWord_congr
  intro i hi
  rw [packWord_wordCell, cellAt_withCellsWord _ _ _ (by omega), if_pos (by omega)]
  congr 1; omega

/-- A word written leaves the other words of the register alone. -/
theorem cellsWord_withCellsWord_other {k : Nat} (m : Vector Cell k) {h h' : Nat} (v : Word) (hne : h' ≠ h) :
    cellsWord (withCellsWord m h v) h' = cellsWord m h' := by
  apply packWord_congr
  intro i hi
  by_cases hk : 8 * h' + i < k
  · rw [cellAt_withCellsWord _ _ _ hk, if_neg (by omega)]
  · rw [cellAt_of_ge _ (by omega), cellAt_of_ge _ (by omega)]

theorem cellAt_matOfWords (v0 v1 : Word) {n : Nat} (h : n < 16) :
    cellAt (matOfWords v0 v1) n = if n < 8 then wordCell v0 n else wordCell v1 (n - 8) := by
  simp [matOfWords, cellAt_tabulate _ h]

/-- A matrix is the matrix of its two words (R84). -/
theorem matOfWords_cellsWord (m : Mat4) : matOfWords (cellsWord m 0) (cellsWord m 1) = m := by
  apply cells_ext
  intro n hn
  rw [cellAt_matOfWords _ _ hn]
  split
  · rw [wordCell_cellsWord _ _ (by omega)]; simp
  · rw [wordCell_cellsWord _ _ (by omega)]; congr 1; omega

/-- The two words of a matrix of words (R84). -/
theorem cellsWord_matOfWords (v0 v1 : Word) : cellsWord (matOfWords v0 v1) 0 = v0 ∧ cellsWord (matOfWords v0 v1) 1 = v1 := by
  constructor
  · conv => rhs; rw [← packWord_wordCell v0]
    apply packWord_congr
    intro i hi
    rw [cellAt_matOfWords _ _ (by omega), if_pos (by omega)]; congr 1; omega
  · conv => rhs; rw [← packWord_wordCell v1]
    apply packWord_congr
    intro i hi
    rw [cellAt_matOfWords _ _ (by omega), if_neg (by omega)]; congr 1; omega

/-! ### KEY (R48) -/

theorem cellAt_keyMat (key : KeyCells) (n0 : Nat) {n : Nat} (h : n < 16) : cellAt (keyMat key n0) n = cellAt key (n0 + n) := by
  simp [keyMat, cellAt_tabulate _ h]

theorem cellAt_withKeyMat (key : KeyCells) (n0 : Nat) (m : Mat4) {n : Nat} (h : n < 100) :
    cellAt (withKeyMat key n0 m) n = if n0 ≤ n ∧ n < n0 + 16 then cellAt m (n - n0) else cellAt key n := by
  simp [withKeyMat, cellAt_ofFn _ h, cellAt_of_lt _ h]

/-- The matrix written is read back from the same cells. -/
theorem keyMat_withKeyMat_same (key : KeyCells) {n0 : Nat} (m : Mat4) (h : n0 + 16 ≤ 100) :
    keyMat (withKeyMat key n0 m) n0 = m := by
  apply cells_ext
  intro n hn
  rw [cellAt_keyMat _ _ hn, cellAt_withKeyMat _ _ _ (by omega), if_pos (by omega), show n0 + n - n0 = n by omega]

/-- A matrix written leaves a disjoint view alone. -/
theorem keyMat_withKeyMat_other (key : KeyCells) {n0 n1 : Nat} (m : Mat4) (h : n1 + 16 ≤ 100)
    (hd : n1 + 16 ≤ n0 ∨ n0 + 16 ≤ n1) : keyMat (withKeyMat key n0 m) n1 = keyMat key n1 := by
  apply cells_ext
  intro n hn
  rw [cellAt_keyMat _ _ hn, cellAt_keyMat _ _ hn, cellAt_withKeyMat _ _ _ (by omega), if_neg (by omega)]

/-- Two keys with the same seed row are both well formed or both not (R49). -/
theorem keyWellFormed_congr {key key' : KeyCells} (h : ∀ n, 96 ≤ n → n < 100 → cellAt key' n = cellAt key n) :
    keyWellFormed key' = keyWellFormed key := by
  simp [keyWellFormed, h]

/-- Writing a tweakey word leaves the seed row alone (R246). -/
theorem cellAt_withKeyMat_outside (key : KeyCells) {n0 n : Nat} (m : Mat4) (hn : n < 100) (h : n < n0 ∨ n0 + 16 ≤ n) :
    cellAt (withKeyMat key n0 m) n = cellAt key n := by
  rw [cellAt_withKeyMat _ _ _ hn, if_neg (by omega)]

end Sys2Proof.Laws
end

