-- ==== Sys2Proof/Laws/State.lean ====
section
/-! SUPPORT. What each field of the engine is after each update: one lemma per field per update, true by unfolding. -/

namespace Sys2Proof.Laws

open Sys2Proof Sys2Proof.Machine

/-! ### `setState` -/

section

variable (e : Engine) (m : Mat4)

@[simp] theorem setState_phase : (e.setState m).phase = e.phase := rfl
@[simp] theorem setState_ie : (e.setState m).ie = e.ie := rfl
@[simp] theorem setState_done : (e.setState m).done = e.done := rfl
@[simp] theorem setState_ovr : (e.setState m).ovr = e.ovr := rfl
@[simp] theorem setState_ecode : (e.setState m).ecode = e.ecode := rfl
@[simp] theorem setState_cfg : (e.setState m).cfg = e.cfg := rfl
@[simp] theorem setState_cmd : (e.setState m).cmd = e.cmd := rfl
@[simp] theorem setState_fcmd : (e.setState m).fcmd = e.fcmd := rfl
@[simp] theorem setState_state : (e.setState m).state = m := rfl
@[simp] theorem setState_aux : (e.setState m).aux = e.aux := rfl
@[simp] theorem setState_key : (e.setState m).key = e.key := rfl
@[simp] theorem setState_result : (e.setState m).result = e.result := rfl
@[simp] theorem setState_schedLen : (e.setState m).schedLen = e.schedLen := rfl
@[simp] theorem setState_sched : (e.setState m).sched = e.sched := rfl

end

/-! ### `setAux` -/

section

variable (e : Engine) (m : Mat4)

@[simp] theorem setAux_phase : (e.setAux m).phase = e.phase := rfl
@[simp] theorem setAux_ie : (e.setAux m).ie = e.ie := rfl
@[simp] theorem setAux_done : (e.setAux m).done = e.done := rfl
@[simp] theorem setAux_ovr : (e.setAux m).ovr = e.ovr := rfl
@[simp] theorem setAux_ecode : (e.setAux m).ecode = e.ecode := rfl
@[simp] theorem setAux_cfg : (e.setAux m).cfg = e.cfg := rfl
@[simp] theorem setAux_cmd : (e.setAux m).cmd = e.cmd := rfl
@[simp] theorem setAux_fcmd : (e.setAux m).fcmd = e.fcmd := rfl
@[simp] theorem setAux_state : (e.setAux m).state = e.state := rfl
@[simp] theorem setAux_aux : (e.setAux m).aux = m := rfl
@[simp] theorem setAux_key : (e.setAux m).key = e.key := rfl
@[simp] theorem setAux_result : (e.setAux m).result = e.result := rfl
@[simp] theorem setAux_schedLen : (e.setAux m).schedLen = e.schedLen := rfl
@[simp] theorem setAux_sched : (e.setAux m).sched = e.sched := rfl

end

/-! ### `setResult` -/

section

variable (e : Engine) (x : Cell)

@[simp] theorem setResult_phase : (e.setResult x).phase = e.phase := rfl
@[simp] theorem setResult_ie : (e.setResult x).ie = e.ie := rfl
@[simp] theorem setResult_done : (e.setResult x).done = e.done := rfl
@[simp] theorem setResult_ovr : (e.setResult x).ovr = e.ovr := rfl
@[simp] theorem setResult_ecode : (e.setResult x).ecode = e.ecode := rfl
@[simp] theorem setResult_cfg : (e.setResult x).cfg = e.cfg := rfl
@[simp] theorem setResult_cmd : (e.setResult x).cmd = e.cmd := rfl
@[simp] theorem setResult_fcmd : (e.setResult x).fcmd = e.fcmd := rfl
@[simp] theorem setResult_state : (e.setResult x).state = e.state := rfl
@[simp] theorem setResult_aux : (e.setResult x).aux = e.aux := rfl
@[simp] theorem setResult_key : (e.setResult x).key = e.key := rfl
@[simp] theorem setResult_result : (e.setResult x).result = x := rfl
@[simp] theorem setResult_schedLen : (e.setResult x).schedLen = e.schedLen := rfl
@[simp] theorem setResult_sched : (e.setResult x).sched = e.sched := rfl

end

/-! ### `setTweakeyRegion` -/

section

variable (e : Engine) (key : KeyCells)

@[simp] theorem setTweakeyRegion_phase : (e.setTweakeyRegion key).phase = e.phase := rfl
@[simp] theorem setTweakeyRegion_ie : (e.setTweakeyRegion key).ie = e.ie := rfl
@[simp] theorem setTweakeyRegion_done : (e.setTweakeyRegion key).done = e.done := rfl
@[simp] theorem setTweakeyRegion_ovr : (e.setTweakeyRegion key).ovr = e.ovr := rfl
@[simp] theorem setTweakeyRegion_ecode : (e.setTweakeyRegion key).ecode = e.ecode := rfl
@[simp] theorem setTweakeyRegion_cfg : (e.setTweakeyRegion key).cfg = e.cfg := rfl
@[simp] theorem setTweakeyRegion_cmd : (e.setTweakeyRegion key).cmd = e.cmd := rfl
@[simp] theorem setTweakeyRegion_fcmd : (e.setTweakeyRegion key).fcmd = e.fcmd := rfl
@[simp] theorem setTweakeyRegion_state : (e.setTweakeyRegion key).state = e.state := rfl
@[simp] theorem setTweakeyRegion_aux : (e.setTweakeyRegion key).aux = e.aux := rfl
@[simp] theorem setTweakeyRegion_key : (e.setTweakeyRegion key).key = key := rfl
@[simp] theorem setTweakeyRegion_result : (e.setTweakeyRegion key).result = e.result := rfl
@[simp] theorem setTweakeyRegion_schedLen : (e.setTweakeyRegion key).schedLen = e.schedLen := rfl
@[simp] theorem setTweakeyRegion_sched : (e.setTweakeyRegion key).sched = e.sched := rfl

end

/-! ### `setSchedule` -/

section

variable (e : Engine) (m : Memory) (len : Nat)

@[simp] theorem setSchedule_phase : (e.setSchedule m len).phase = e.phase := rfl
@[simp] theorem setSchedule_ie : (e.setSchedule m len).ie = e.ie := rfl
@[simp] theorem setSchedule_done : (e.setSchedule m len).done = e.done := rfl
@[simp] theorem setSchedule_ovr : (e.setSchedule m len).ovr = e.ovr := rfl
@[simp] theorem setSchedule_ecode : (e.setSchedule m len).ecode = e.ecode := rfl
@[simp] theorem setSchedule_cfg : (e.setSchedule m len).cfg = e.cfg := rfl
@[simp] theorem setSchedule_cmd : (e.setSchedule m len).cmd = e.cmd := rfl
@[simp] theorem setSchedule_fcmd : (e.setSchedule m len).fcmd = e.fcmd := rfl
@[simp] theorem setSchedule_state : (e.setSchedule m len).state = e.state := rfl
@[simp] theorem setSchedule_aux : (e.setSchedule m len).aux = e.aux := rfl
@[simp] theorem setSchedule_key : (e.setSchedule m len).key = e.key := rfl
@[simp] theorem setSchedule_result : (e.setSchedule m len).result = e.result := rfl
@[simp] theorem setSchedule_schedLen : (e.setSchedule m len).schedLen = BitVec.ofNat 9 len := rfl
@[simp] theorem setSchedule_sched : (e.setSchedule m len).sched = m := rfl
@[simp] theorem setSchedule_written : (e.setSchedule m len).written = e.written := rfl

end

/-! ### `finish` -/

section

variable (e : Engine)

@[simp] theorem finish_phase : (finish e).phase = .idle := rfl
@[simp] theorem finish_ie : (finish e).ie = e.ie := rfl
@[simp] theorem finish_done : (finish e).done = true := rfl
@[simp] theorem finish_ovr : (finish e).ovr = e.ovr := rfl
@[simp] theorem finish_ecode : (finish e).ecode = e.ecode := rfl
@[simp] theorem finish_cfg : (finish e).cfg = e.cfg := rfl
@[simp] theorem finish_cmd : (finish e).cmd = e.cmd := rfl
@[simp] theorem finish_fcmd : (finish e).fcmd = e.fcmd := rfl
@[simp] theorem finish_state : (finish e).state = e.state := rfl
@[simp] theorem finish_aux : (finish e).aux = e.aux := rfl
@[simp] theorem finish_key : (finish e).key = e.key := rfl
@[simp] theorem finish_result : (finish e).result = e.result := rfl
@[simp] theorem finish_schedLen : (finish e).schedLen = e.schedLen := rfl
@[simp] theorem finish_sched : (finish e).sched = e.sched := rfl
@[simp] theorem finish_written : (finish e).written = e.written := rfl

end

/-! ### `takeFault` -/

section

variable (e : Engine) (c : FaultCode)

@[simp] theorem takeFault_phase : (takeFault c e).phase = .fault := rfl
@[simp] theorem takeFault_ie : (takeFault c e).ie = e.ie := rfl
@[simp] theorem takeFault_done : (takeFault c e).done = e.done := rfl
@[simp] theorem takeFault_ovr : (takeFault c e).ovr = e.ovr := rfl
@[simp] theorem takeFault_ecode : (takeFault c e).ecode = some c := rfl
@[simp] theorem takeFault_cfg : (takeFault c e).cfg = e.cfg := rfl
@[simp] theorem takeFault_cmd : (takeFault c e).cmd = e.cmd := rfl
@[simp] theorem takeFault_fcmd : (takeFault c e).fcmd = e.cmd := rfl
@[simp] theorem takeFault_state : (takeFault c e).state = e.state := rfl
@[simp] theorem takeFault_aux : (takeFault c e).aux = e.aux := rfl
@[simp] theorem takeFault_key : (takeFault c e).key = e.key := rfl
@[simp] theorem takeFault_result : (takeFault c e).result = e.result := rfl
@[simp] theorem takeFault_schedLen : (takeFault c e).schedLen = e.schedLen := rfl
@[simp] theorem takeFault_sched : (takeFault c e).sched = e.sched := rfl
@[simp] theorem takeFault_written : (takeFault c e).written = e.written := rfl

end

/-! ### `clearControl` -/

section

variable (e : Engine)

@[simp] theorem clearControl_phase : (e.clearControl).phase = .idle := rfl
@[simp] theorem clearControl_ie : (e.clearControl).ie = false := rfl
@[simp] theorem clearControl_done : (e.clearControl).done = false := rfl
@[simp] theorem clearControl_ovr : (e.clearControl).ovr = false := rfl
@[simp] theorem clearControl_ecode : (e.clearControl).ecode = none := rfl
@[simp] theorem clearControl_cfg : (e.clearControl).cfg = Cfg.zero := rfl
@[simp] theorem clearControl_cmd : (e.clearControl).cmd = 0 := rfl
@[simp] theorem clearControl_fcmd : (e.clearControl).fcmd = 0 := rfl
@[simp] theorem clearControl_state : (e.clearControl).state = e.state := rfl
@[simp] theorem clearControl_aux : (e.clearControl).aux = e.aux := rfl
@[simp] theorem clearControl_key : (e.clearControl).key = e.key := rfl
@[simp] theorem clearControl_result : (e.clearControl).result = e.result := rfl
@[simp] theorem clearControl_schedLen : (e.clearControl).schedLen = 0 := rfl
@[simp] theorem clearControl_sched : (e.clearControl).sched = e.sched := rfl
@[simp] theorem clearControl_written : (e.clearControl).written = { e.written with cfg := false } := rfl

end

/-! ### `forgetData` -/

section

variable (e : Engine) (n : Nat)

@[simp] theorem forgetData_phase : (e.forgetData n).phase = e.phase := rfl
@[simp] theorem forgetData_ie : (e.forgetData n).ie = e.ie := rfl
@[simp] theorem forgetData_done : (e.forgetData n).done = e.done := rfl
@[simp] theorem forgetData_ovr : (e.forgetData n).ovr = e.ovr := rfl
@[simp] theorem forgetData_ecode : (e.forgetData n).ecode = e.ecode := rfl
@[simp] theorem forgetData_cfg : (e.forgetData n).cfg = e.cfg := rfl
@[simp] theorem forgetData_cmd : (e.forgetData n).cmd = e.cmd := rfl
@[simp] theorem forgetData_fcmd : (e.forgetData n).fcmd = e.fcmd := rfl
@[simp] theorem forgetData_state : (e.forgetData n).state = Config.freeMatrix n := rfl
@[simp] theorem forgetData_aux : (e.forgetData n).aux = Config.freeMatrix (n + 1) := rfl
@[simp] theorem forgetData_key : (e.forgetData n).key = Config.freeKey n := rfl
@[simp] theorem forgetData_result : (e.forgetData n).result = Config.freeCell n := rfl
@[simp] theorem forgetData_schedLen : (e.forgetData n).schedLen = e.schedLen := rfl
@[simp] theorem forgetData_sched : (e.forgetData n).sched = (Config.freeSched n).cells := rfl
@[simp] theorem forgetData_written : (e.forgetData n).written = Written.nothing := rfl

end

/-! ### `acceptCommand` -/

section

variable (e : Engine) (v : Word)

@[simp] theorem acceptCommand_phase : (e.acceptCommand v).phase = .busy := rfl
@[simp] theorem acceptCommand_ie : (e.acceptCommand v).ie = e.ie := rfl
@[simp] theorem acceptCommand_done : (e.acceptCommand v).done = false := rfl
@[simp] theorem acceptCommand_ovr : (e.acceptCommand v).ovr = e.ovr := rfl
@[simp] theorem acceptCommand_ecode : (e.acceptCommand v).ecode = e.ecode := rfl
@[simp] theorem acceptCommand_cfg : (e.acceptCommand v).cfg = e.cfg := rfl
@[simp] theorem acceptCommand_cmd : (e.acceptCommand v).cmd = v := rfl
@[simp] theorem acceptCommand_fcmd : (e.acceptCommand v).fcmd = e.fcmd := rfl
@[simp] theorem acceptCommand_state : (e.acceptCommand v).state = e.state := rfl
@[simp] theorem acceptCommand_aux : (e.acceptCommand v).aux = e.aux := rfl
@[simp] theorem acceptCommand_key : (e.acceptCommand v).key = e.key := rfl
@[simp] theorem acceptCommand_result : (e.acceptCommand v).result = e.result := rfl
@[simp] theorem acceptCommand_schedLen : (e.acceptCommand v).schedLen = e.schedLen := rfl
@[simp] theorem acceptCommand_sched : (e.acceptCommand v).sched = e.sched := rfl
@[simp] theorem acceptCommand_written : (e.acceptCommand v).written = e.written := rfl

end

/-! ### `storeCfg` -/

section

variable (e : Engine) (v : Word)

@[simp] theorem storeCfg_phase : (e.storeCfg v).phase = e.phase := rfl
@[simp] theorem storeCfg_ie : (e.storeCfg v).ie = e.ie := rfl
@[simp] theorem storeCfg_done : (e.storeCfg v).done = e.done := rfl
@[simp] theorem storeCfg_ovr : (e.storeCfg v).ovr = e.ovr := rfl
@[simp] theorem storeCfg_ecode : (e.storeCfg v).ecode = e.ecode := rfl
@[simp] theorem storeCfg_cfg : (e.storeCfg v).cfg = cfgOfWord v := rfl
@[simp] theorem storeCfg_cmd : (e.storeCfg v).cmd = e.cmd := rfl
@[simp] theorem storeCfg_fcmd : (e.storeCfg v).fcmd = e.fcmd := rfl
@[simp] theorem storeCfg_state : (e.storeCfg v).state = e.state := rfl
@[simp] theorem storeCfg_aux : (e.storeCfg v).aux = e.aux := rfl
@[simp] theorem storeCfg_key : (e.storeCfg v).key = e.key := rfl
@[simp] theorem storeCfg_result : (e.storeCfg v).result = e.result := rfl
@[simp] theorem storeCfg_schedLen : (e.storeCfg v).schedLen = 0 := rfl
@[simp] theorem storeCfg_sched : (e.storeCfg v).sched = e.sched := rfl
@[simp] theorem storeCfg_written : (e.storeCfg v).written = { e.written with cfg := true } := rfl

end

/-! ### `storeState` -/

section

variable (e : Engine) (h : Nat) (v : Word)

@[simp] theorem storeState_phase : (e.storeState h v).phase = e.phase := by simp only [Engine.storeState]
@[simp] theorem storeState_ie : (e.storeState h v).ie = e.ie := by simp only [Engine.storeState]
@[simp] theorem storeState_done : (e.storeState h v).done = e.done := by simp only [Engine.storeState]
@[simp] theorem storeState_ovr : (e.storeState h v).ovr = e.ovr := by simp only [Engine.storeState]
@[simp] theorem storeState_ecode : (e.storeState h v).ecode = e.ecode := by simp only [Engine.storeState]
@[simp] theorem storeState_cfg : (e.storeState h v).cfg = e.cfg := by simp only [Engine.storeState]
@[simp] theorem storeState_cmd : (e.storeState h v).cmd = e.cmd := by simp only [Engine.storeState]
@[simp] theorem storeState_fcmd : (e.storeState h v).fcmd = e.fcmd := by simp only [Engine.storeState]
@[simp] theorem storeState_state : (e.storeState h v).state = withCellsWord e.state h v := by simp only [Engine.storeState]
@[simp] theorem storeState_aux : (e.storeState h v).aux = e.aux := by simp only [Engine.storeState]
@[simp] theorem storeState_key : (e.storeState h v).key = e.key := by simp only [Engine.storeState]
@[simp] theorem storeState_result : (e.storeState h v).result = e.result := by simp only [Engine.storeState]
@[simp] theorem storeState_schedLen : (e.storeState h v).schedLen = e.schedLen := by simp only [Engine.storeState]
@[simp] theorem storeState_sched : (e.storeState h v).sched = e.sched := by simp only [Engine.storeState]

end

/-! ### `storeAux` -/

section

variable (e : Engine) (h : Nat) (v : Word)

@[simp] theorem storeAux_phase : (e.storeAux h v).phase = e.phase := by simp only [Engine.storeAux]
@[simp] theorem storeAux_ie : (e.storeAux h v).ie = e.ie := by simp only [Engine.storeAux]
@[simp] theorem storeAux_done : (e.storeAux h v).done = e.done := by simp only [Engine.storeAux]
@[simp] theorem storeAux_ovr : (e.storeAux h v).ovr = e.ovr := by simp only [Engine.storeAux]
@[simp] theorem storeAux_ecode : (e.storeAux h v).ecode = e.ecode := by simp only [Engine.storeAux]
@[simp] theorem storeAux_cfg : (e.storeAux h v).cfg = e.cfg := by simp only [Engine.storeAux]
@[simp] theorem storeAux_cmd : (e.storeAux h v).cmd = e.cmd := by simp only [Engine.storeAux]
@[simp] theorem storeAux_fcmd : (e.storeAux h v).fcmd = e.fcmd := by simp only [Engine.storeAux]
@[simp] theorem storeAux_state : (e.storeAux h v).state = e.state := by simp only [Engine.storeAux]
@[simp] theorem storeAux_aux : (e.storeAux h v).aux = withCellsWord e.aux h v := by simp only [Engine.storeAux]
@[simp] theorem storeAux_key : (e.storeAux h v).key = e.key := by simp only [Engine.storeAux]
@[simp] theorem storeAux_result : (e.storeAux h v).result = e.result := by simp only [Engine.storeAux]
@[simp] theorem storeAux_schedLen : (e.storeAux h v).schedLen = e.schedLen := by simp only [Engine.storeAux]
@[simp] theorem storeAux_sched : (e.storeAux h v).sched = e.sched := by simp only [Engine.storeAux]

end

/-! ### `storeKey` -/

section

variable (e : Engine) (k : Nat) (v : Word)

@[simp] theorem storeKey_phase : (e.storeKey k v).phase = e.phase := by simp only [Engine.storeKey]
@[simp] theorem storeKey_ie : (e.storeKey k v).ie = e.ie := by simp only [Engine.storeKey]
@[simp] theorem storeKey_done : (e.storeKey k v).done = e.done := by simp only [Engine.storeKey]
@[simp] theorem storeKey_ovr : (e.storeKey k v).ovr = e.ovr := by simp only [Engine.storeKey]
@[simp] theorem storeKey_ecode : (e.storeKey k v).ecode = e.ecode := by simp only [Engine.storeKey]
@[simp] theorem storeKey_cfg : (e.storeKey k v).cfg = e.cfg := by simp only [Engine.storeKey]
@[simp] theorem storeKey_cmd : (e.storeKey k v).cmd = e.cmd := by simp only [Engine.storeKey]
@[simp] theorem storeKey_fcmd : (e.storeKey k v).fcmd = e.fcmd := by simp only [Engine.storeKey]
@[simp] theorem storeKey_state : (e.storeKey k v).state = e.state := by simp only [Engine.storeKey]
@[simp] theorem storeKey_aux : (e.storeKey k v).aux = e.aux := by simp only [Engine.storeKey]
@[simp] theorem storeKey_key : (e.storeKey k v).key = withCellsWord e.key k v := by simp only [Engine.storeKey]
@[simp] theorem storeKey_result : (e.storeKey k v).result = e.result := by simp only [Engine.storeKey]
@[simp] theorem storeKey_schedLen : (e.storeKey k v).schedLen = 0 := by simp only [Engine.storeKey]
@[simp] theorem storeKey_sched : (e.storeKey k v).sched = e.sched := by simp only [Engine.storeKey]

end

/-! ### `acknowledge` -/

section

variable (e : Engine) (v : Word)

@[simp] theorem acknowledge_phase : (e.acknowledge v).phase = e.phase := rfl
@[simp] theorem acknowledge_ie : (e.acknowledge v).ie = e.ie := rfl
@[simp] theorem acknowledge_done : (e.acknowledge v).done = (e.done && !v.getLsbD 1) := rfl
@[simp] theorem acknowledge_ovr : (e.acknowledge v).ovr = (e.ovr && !v.getLsbD 3) := rfl
@[simp] theorem acknowledge_ecode : (e.acknowledge v).ecode = e.ecode := rfl
@[simp] theorem acknowledge_cfg : (e.acknowledge v).cfg = e.cfg := rfl
@[simp] theorem acknowledge_cmd : (e.acknowledge v).cmd = e.cmd := rfl
@[simp] theorem acknowledge_fcmd : (e.acknowledge v).fcmd = e.fcmd := rfl
@[simp] theorem acknowledge_state : (e.acknowledge v).state = e.state := rfl
@[simp] theorem acknowledge_aux : (e.acknowledge v).aux = e.aux := rfl
@[simp] theorem acknowledge_key : (e.acknowledge v).key = e.key := rfl
@[simp] theorem acknowledge_result : (e.acknowledge v).result = e.result := rfl
@[simp] theorem acknowledge_schedLen : (e.acknowledge v).schedLen = e.schedLen := rfl
@[simp] theorem acknowledge_sched : (e.acknowledge v).sched = e.sched := rfl
@[simp] theorem acknowledge_written : (e.acknowledge v).written = e.written := rfl

end

/-! ### `answer` -/

section

variable (s : State) (host : Nat) (r : Response)

@[simp] theorem answer_engine : (s.answer host r).engine = s.engine := rfl
@[simp] theorem answer_pending : (s.answer host r).pending = s.pending := rfl
@[simp] theorem answer_draws : (s.answer host r).draws = s.draws := rfl
@[simp] theorem answer_answers : (s.answer host r).answers = { host := host, response := r } :: s.answers := rfl

end

end Sys2Proof.Laws
end

