-- ==== Sys2Proof/Laws/Commands.lean ====
section
/-! SUPPORT. What completing a command can do, said once: it faults with no other effect, or has its effect and completes; and
what one step can be. -/

namespace Sys2Proof.Laws

open Sys2Proof Sys2Proof.Machine

/-! ### Checks (R332) -/

theorem firstFault_eq_none_iff {p : Params} {e : Engine} {ks : List Check} :
    firstFault p e ks = none ↔ ∀ k ∈ ks, checkPasses p e k = true := by
  induction ks with
  | nil => simp [firstFault]
  | cons k ks ih => by_cases hk : checkPasses p e k = true <;> simp [firstFault, hk, ih]

/-- The fault is that of the first check that fails. -/
theorem firstFault_eq_some_iff {p : Params} {e : Engine} {ks : List Check} {c : FaultCode} :
    firstFault p e ks = some c ↔
      ∃ before k after, ks = before ++ k :: after ∧ (∀ j ∈ before, checkPasses p e j = true) ∧
        checkPasses p e k = false ∧ c = k.fault := by
  induction ks with
  | nil => simp [firstFault]
  | cons k ks ih =>
    by_cases hk : checkPasses p e k = true
    · simp only [firstFault, hk, if_true, ih]
      constructor
      · rintro ⟨before, j, after, rfl, hb, hj, hc⟩
        exact ⟨k :: before, j, after, rfl, by simpa [hk] using hb, hj, hc⟩
      · rintro ⟨before, j, after, he, hb, hj, hc⟩
        cases before with
        | nil => simp at he; rw [← he.1] at hj; simp [hk] at hj
        | cons b bs =>
          simp only [List.cons_append, List.cons.injEq] at he
          exact ⟨bs, j, after, he.2, fun i hi => hb i (by simp [hi]), hj, hc⟩
    · simp only [firstFault, if_neg hk, Option.some.injEq]
      have hkf : checkPasses p e k = false := by simpa using hk
      constructor
      · rintro rfl; exact ⟨[], k, ks, rfl, by simp, hkf, rfl⟩
      · rintro ⟨before, j, after, he, hb, hj, hc⟩
        cases before with
        | nil => simp at he; rw [hc, he.1]
        | cons b bs =>
          simp only [List.cons_append, List.cons.injEq] at he
          exact absurd (hb k (by simp [he.1])) hk

/-! ### Completion (R90) -/

theorem runCommand_passes {checks : List Check} {effect : Params → Engine → Engine} {s : State}
    (h : firstFault Config.params s.engine checks = none) :
    runCommand checks effect s = .next { s with engine := finish (effect Config.params s.engine) } := by
  simp [runCommand, completeCommand, h]

theorem runCommand_faults {checks : List Check} {effect : Params → Engine → Engine} {s : State} {c : FaultCode}
    (h : firstFault Config.params s.engine checks = some c) :
    runCommand checks effect s = .next { s with engine := takeFault c s.engine } := by
  simp [runCommand, completeCommand, h]

/-- Everything a command can do: its checks find a fault and that is all that happens, or they pass and it completes. -/
theorem runCommand_cases (checks : List Check) (effect : Params → Engine → Engine) (s : State) :
    (∃ c, firstFault Config.params s.engine checks = some c ∧
      runCommand checks effect s = .next { s with engine := takeFault c s.engine }) ∨
    (firstFault Config.params s.engine checks = none ∧
      runCommand checks effect s = .next { s with engine := finish (effect Config.params s.engine) }) := by
  cases h : firstFault Config.params s.engine checks with
  | none => exact .inr ⟨rfl, runCommand_passes h⟩
  | some c => exact .inl ⟨c, rfl, runCommand_faults h⟩

/-- The checks of a command after decoding (R333). -/
def commandChecks : Instr → List Check
  | .nop => []
  | .xors => []
  | .cpsa => []
  | .lff w _ => checksLff w
  | .lfi w _ => checksLfi w
  | .sc => []
  | .sci => []
  | .ac r => checksAc r
  | .art r => checksForwardRound r
  | .sr => []
  | .sri => []
  | .mc => []
  | .mci => []
  | .ksf => checksForwardCipher
  | .ksi => checksInverseCipher
  | .enc => checksForwardCipher
  | .dec => checksInverseCipher
  | .rnde r => checksForwardRound r
  | .rndd r => checksInverseRound r

/-- The effect of a command before its flags. -/
def commandEffect : Instr → Params → Engine → Engine
  | .nop, _, e => e
  | .xors, _, e => e.setState (xorMat e.state e.aux)
  | .cpsa, _, e => e.setAux e.state
  | .lff w x, p, e => lffEffect p w x e
  | .lfi w x, p, e => lfiEffect p w x e
  | .sc, _, e => e.setState (subCells e.state)
  | .sci, _, e => e.setState (subCellsInv e.state)
  | .ac r, p, e => e.setState (addConstants p e e.state r)
  | .art r, _, e => e.setState (addRoundTweakey e e.state r)
  | .sr, _, e => e.setState (shiftRows e.state)
  | .sri, _, e => e.setState (shiftRowsInv e.state)
  | .mc, _, e => e.setState (mixColumns e.state)
  | .mci, _, e => e.setState (mixColumnsInv e.state)
  | .ksf, p, e => buildSchedule p e
  | .ksi, p, e => ksiEffect p e
  | .enc, p, e => encEffect p e
  | .dec, p, e => decEffect p e
  | .rnde r, p, e => e.setState (roundF p e e.state r)
  | .rndd r, p, e => e.setState (roundI p e e.state r)

/-- Every arm of `exec` is the completion of its command's checks and effect. -/
theorem exec_eq (i : Instr) (s : State) : exec i s = runCommand (commandChecks i) (commandEffect i) s := by
  cases i <;> rfl

theorem exec_passes {i : Instr} {s : State} (h : firstFault Config.params s.engine (commandChecks i) = none) :
    exec i s = .next { s with engine := finish (commandEffect i Config.params s.engine) } := by
  rw [exec_eq]; exact runCommand_passes h

theorem exec_faults {i : Instr} {s : State} {c : FaultCode}
    (h : firstFault Config.params s.engine (commandChecks i) = some c) :
    exec i s = .next { s with engine := takeFault c s.engine } := by
  rw [exec_eq]; exact runCommand_faults h

/-- Everything `exec` can answer. -/
theorem exec_cases (i : Instr) (s : State) :
    (∃ c, firstFault Config.params s.engine (commandChecks i) = some c ∧
      exec i s = .next { s with engine := takeFault c s.engine }) ∨
    (firstFault Config.params s.engine (commandChecks i) = none ∧
      exec i s = .next { s with engine := finish (commandEffect i Config.params s.engine) }) := by
  rw [exec_eq]; exact runCommand_cases _ _ s

/-! ### What an effect leaves alone -/

section

variable (i : Instr) (p : Params) (e : Engine)

@[simp] theorem commandEffect_phase : (commandEffect i p e).phase = e.phase := by
  cases i <;> simp [commandEffect, lffEffect, lfiEffect, buildSchedule, storeSchedule, ksiEffect, encEffect, decEffect]
@[simp] theorem commandEffect_ie : (commandEffect i p e).ie = e.ie := by
  cases i <;> simp [commandEffect, lffEffect, lfiEffect, buildSchedule, storeSchedule, ksiEffect, encEffect, decEffect]
@[simp] theorem commandEffect_done : (commandEffect i p e).done = e.done := by
  cases i <;> simp [commandEffect, lffEffect, lfiEffect, buildSchedule, storeSchedule, ksiEffect, encEffect, decEffect]
@[simp] theorem commandEffect_ovr : (commandEffect i p e).ovr = e.ovr := by
  cases i <;> simp [commandEffect, lffEffect, lfiEffect, buildSchedule, storeSchedule, ksiEffect, encEffect, decEffect]
@[simp] theorem commandEffect_ecode : (commandEffect i p e).ecode = e.ecode := by
  cases i <;> simp [commandEffect, lffEffect, lfiEffect, buildSchedule, storeSchedule, ksiEffect, encEffect, decEffect]
@[simp] theorem commandEffect_cfg : (commandEffect i p e).cfg = e.cfg := by
  cases i <;> simp [commandEffect, lffEffect, lfiEffect, buildSchedule, storeSchedule, ksiEffect, encEffect, decEffect]
@[simp] theorem commandEffect_cmd : (commandEffect i p e).cmd = e.cmd := by
  cases i <;> simp [commandEffect, lffEffect, lfiEffect, buildSchedule, storeSchedule, ksiEffect, encEffect, decEffect]
@[simp] theorem commandEffect_fcmd : (commandEffect i p e).fcmd = e.fcmd := by
  cases i <;> simp [commandEffect, lffEffect, lfiEffect, buildSchedule, storeSchedule, ksiEffect, encEffect, decEffect]

end

/-- Whether a command stores a schedule (R248). -/
def storesSchedule : Instr → Bool
  | .nop => false
  | .xors => false
  | .cpsa => false
  | .lff _ _ => false
  | .lfi _ _ => false
  | .sc => false
  | .sci => false
  | .ac _ => false
  | .art _ => false
  | .sr => false
  | .sri => false
  | .mc => false
  | .mci => false
  | .ksf => true
  | .ksi => true
  | .enc => true
  | .dec => true
  | .rnde _ => false
  | .rndd _ => false

theorem commandEffect_sched {i : Instr} (h : storesSchedule i = false) (p : Params) (e : Engine) :
    (commandEffect i p e).sched = e.sched ∧ (commandEffect i p e).schedLen = e.schedLen := by
  cases i <;> first | (exact absurd h (by decide)) | simp [commandEffect, lffEffect, lfiEffect]

/-- Only KSI writes KEY (R51, R246). -/
theorem commandEffect_key {i : Instr} (h : i ≠ .ksi) (p : Params) (e : Engine) : (commandEffect i p e).key = e.key := by
  cases i <;> first
    | exact absurd rfl h
    | simp [commandEffect, lffEffect, lfiEffect, buildSchedule, storeSchedule, encEffect, decEffect]

/-! ### One step -/

/-- Everything the engine's turn can be. -/
theorem engineTurn_cases (s : State) :
    (s.engine.phase ≠ .busy ∧ engineTurn s = .other s) ∨
    (s.engine.phase = .busy ∧ ∃ i, decode s.engine.cmd = .ok i ∧ engineTurn s = .run i s) ∨
    (s.engine.phase = .busy ∧ ∃ err, decode s.engine.cmd = .error err ∧ engineTurn s = .other (runIllegal s)) := by
  unfold engineTurn
  cases hp : s.engine.phase with
  | idle => exact .inl ⟨by simp, rfl⟩
  | fault => exact .inl ⟨by simp, rfl⟩
  | busy =>
    cases hd : decode s.engine.cmd with
    | ok i => exact .inr (.inl ⟨rfl, i, rfl, rfl⟩)
    | error err => exact .inr (.inr ⟨rfl, err, rfl, rfl⟩)

/-- Everything one step can be: a wait, the completion of a command, the fault of an illegal word, a hard reset, or a host
access; in the state `s'` that has consumed the event. -/
theorem step_cases (s : State) :
    ∃ s' : State, s'.engine = s.engine ∧ s'.draws = s.draws ∧ s'.answers = s.answers ∧
      ((s.engine.phase ≠ .busy ∧ step s = .next s') ∨
       (s.engine.phase = .busy ∧ ∃ i, decode s.engine.cmd = .ok i ∧ step s = exec i s') ∨
       (s.engine.phase = .busy ∧ (∃ err, decode s.engine.cmd = .error err) ∧ step s = .next (runIllegal s')) ∨
       (∃ rest, s.pending = .hardReset :: rest ∧ step s = .next (hardReset s')) ∨
       (∃ a rest, s.pending = .access a :: rest ∧ step s = .next (hostAccess a s'))) := by
  have turn : ∀ s' : State, nextMove s = engineTurn s' → s'.engine = s.engine →
      (s.engine.phase ≠ .busy ∧ step s = .next s') ∨
      (s.engine.phase = .busy ∧ ∃ i, decode s.engine.cmd = .ok i ∧ step s = exec i s') ∨
      (s.engine.phase = .busy ∧ (∃ err, decode s.engine.cmd = .error err) ∧ step s = .next (runIllegal s')) := by
    intro s' hm he
    rcases engineTurn_cases s' with ⟨hp, ht⟩ | ⟨hp, i, hd, ht⟩ | ⟨hp, err, hd, ht⟩ <;> rw [he] at hp
    · exact .inl ⟨hp, by simp [step, hm, ht]⟩
    · rw [he] at hd; exact .inr (.inl ⟨hp, i, hd, by simp [step, hm, ht]⟩)
    · rw [he] at hd; exact .inr (.inr ⟨hp, ⟨err, hd⟩, by simp [step, hm, ht]⟩)
  cases hpend : s.pending with
  | nil =>
    refine ⟨s, rfl, rfl, rfl, ?_⟩
    rcases turn s (by simp [nextMove, hpend]) rfl with h | h | h
    · exact .inl h
    · exact .inr (.inl h)
    · exact .inr (.inr (.inl h))
  | cons ev rest =>
    refine ⟨{ s with pending := rest }, rfl, rfl, rfl, ?_⟩
    cases ev with
    | engineTurn =>
      rcases turn { s with pending := rest } (by simp [nextMove, hpend]) rfl with h | h | h
      · exact .inl h
      · exact .inr (.inl h)
      · exact .inr (.inr (.inl h))
    | hardReset => exact .inr (.inr (.inr (.inl ⟨rest, rfl, by simp [step, nextMove, hpend]⟩)))
    | access a => exact .inr (.inr (.inr (.inr ⟨a, rest, rfl, by simp [step, nextMove, hpend]⟩)))

end Sys2Proof.Laws
end

