-- ==== Sys2Proof/Laws/Encoding.lean ====
section
/-! SUPPORT. The laws of command words: the fields and the encodings as numbers, and what each decoding of fields answers. -/

namespace Sys2Proof.Laws

open Sys2Proof

/-! ### Fields as numbers (R110) -/

theorem opcField_eq (v : Word) : opcField v = v.toNat % 256 := by simp [opcField]

theorem ridxField_eq (v : Word) : ridxField v = v.toNat / 256 % 256 := by
  simp [ridxField, Nat.shiftRight_eq_div_pow]

theorem wField_eq (v : Word) : wField v = v.toNat / 65536 % 16 := by
  simp [wField, Nat.shiftRight_eq_div_pow]

theorem xField_toNat (v : Word) : (xField v).toNat = v.toNat / 1048576 % 16 := by
  simp [xField, Nat.shiftRight_eq_div_pow]

theorem reservedField_toNat (v : Word) : (reservedField v).toNat = v.toNat / 16777216 % 256 := by
  simp [reservedField, Nat.shiftRight_eq_div_pow]

theorem xField_eq_zero_iff (v : Word) : xField v = 0 ↔ v.toNat / 1048576 % 16 = 0 := by
  rw [← xField_toNat, ← BitVec.toNat_inj]; rfl

theorem reservedField_eq_zero_iff (v : Word) : reservedField v = 0 ↔ v.toNat / 16777216 % 256 = 0 := by
  rw [← reservedField_toNat, ← BitVec.toNat_inj]; rfl

/-- A word is the number of its fields. -/
theorem word_eq_fields (v : Word) :
    v.toNat = opcField v + 256 * ridxField v + 65536 * wField v + 1048576 * (xField v).toNat +
      16777216 * (reservedField v).toNat := by
  rw [opcField_eq, ridxField_eq, wField_eq, xField_toNat, reservedField_toNat]
  have := v.isLt
  omega

/-! ### Encodings as numbers (R120) -/

theorem encodeRidx_toNat {opc r : Nat} (ho : opc < 256) (hr : r ≤ 255) :
    (encodeRidx (BitVec.ofNat 32 opc) r).toNat = opc + 256 * r := by
  have h : opc ||| r <<< 8 = opc + 256 * r := by
    rw [Nat.or_comm, ← Nat.shiftLeft_add_eq_or_of_lt (by simpa using ho), Nat.shiftLeft_eq]; omega
  simp only [encodeRidx, BitVec.toNat_or, BitVec.toNat_ofNat, BitVec.toNat_shiftLeft]
  rw [Nat.mod_eq_of_lt (by omega), Nat.mod_eq_of_lt (by omega : r < 2 ^ 32), Nat.mod_eq_of_lt, h]
  rw [Nat.shiftLeft_eq]; omega

theorem encodeWX_toNat {opc w : Nat} (x : Cell) (ho : opc < 256) (hw : w ≤ 15) :
    (encodeWX (BitVec.ofNat 32 opc) w x).toNat = opc + 65536 * w + 1048576 * x.toNat := by
  have hx := x.isLt
  have h1 : opc ||| w <<< 16 = opc + 65536 * w := by
    rw [Nat.or_comm, ← Nat.shiftLeft_add_eq_or_of_lt (by omega), Nat.shiftLeft_eq]; omega
  have h2 : (opc + 65536 * w) ||| x.toNat <<< 20 = opc + 65536 * w + 1048576 * x.toNat := by
    rw [Nat.or_comm, ← Nat.shiftLeft_add_eq_or_of_lt (by omega), Nat.shiftLeft_eq]; omega
  simp only [encodeWX, BitVec.toNat_or, BitVec.toNat_ofNat, BitVec.toNat_shiftLeft, BitVec.toNat_setWidth]
  rw [Nat.mod_eq_of_lt (by omega : opc < 2 ^ 32), Nat.mod_eq_of_lt (by omega : w < 2 ^ 32),
    Nat.mod_eq_of_lt (by omega : x.toNat < 2 ^ 32), Nat.mod_eq_of_lt (a := w <<< 16), Nat.mod_eq_of_lt (a := x.toNat <<< 20),
    h1, h2]
  all_goals rw [Nat.shiftLeft_eq]; omega

/-! ### The masks of R116 -/

theorem toNat_append_eq {a b : Nat} (x : BitVec a) (y : BitVec b) : (x ++ y).toNat = x.toNat * 2 ^ b + y.toNat := by
  rw [BitVec.toNat_append, ← Nat.shiftLeft_add_eq_or_of_lt y.isLt, Nat.shiftLeft_eq]

/-- Under the mask of a command that uses `RIDX`, every other field stays. -/
theorem and_ridxMask (v : Word) :
    (v &&& 0xFFFF00FF#32).toNat = opcField v + 65536 * wField v + 1048576 * (xField v).toNat + 16777216 * (reservedField v).toNat := by
  have h : v &&& 0xFFFF00FF#32 = v.extractLsb' 16 16 ++ 0#8 ++ v.extractLsb' 0 8 := by
    apply BitVec.eq_of_getLsbD_eq
    intro j hj
    have hm : ∀ j < 32, (0xFFFF00FF#32).getLsbD j = (decide (j < 8) || decide (16 ≤ j)) := by decide
    rw [BitVec.getLsbD_and, hm j hj]
    simp only [BitVec.getLsbD_append, BitVec.getLsbD_extractLsb', BitVec.getLsbD_zero]
    by_cases h1 : j < 8
    · simp [h1]
    · by_cases h2 : j < 16
      · simp [h1, show ¬ 16 ≤ j by omega, show j - 8 < 8 by omega]
      · simp [h1, show 16 ≤ j by omega, show ¬ j - 8 < 8 by omega, show j - 8 - 8 < 16 by omega, show 16 + (j - 8 - 8) = j by omega]
  rw [h, toNat_append_eq, toNat_append_eq, opcField_eq, wField_eq, xField_toNat, reservedField_toNat]
  simp [Nat.shiftRight_eq_div_pow]
  omega

/-- Under the mask of a command that uses `W` and `X`, every other field stays. -/
theorem and_wxMask (v : Word) :
    (v &&& 0xFF00FFFF#32).toNat = opcField v + 256 * ridxField v + 16777216 * (reservedField v).toNat := by
  have h : v &&& 0xFF00FFFF#32 = v.extractLsb' 24 8 ++ 0#8 ++ v.extractLsb' 0 16 := by
    apply BitVec.eq_of_getLsbD_eq
    intro j hj
    have hm : ∀ j < 32, (0xFF00FFFF#32).getLsbD j = (decide (j < 16) || decide (24 ≤ j)) := by decide
    rw [BitVec.getLsbD_and, hm j hj]
    simp only [BitVec.getLsbD_append, BitVec.getLsbD_extractLsb', BitVec.getLsbD_zero]
    by_cases h1 : j < 16
    · simp [h1]
    · by_cases h2 : j < 24
      · simp [h1, show ¬ 24 ≤ j by omega, show j - 16 < 8 by omega]
      · simp [h1, show 24 ≤ j by omega, show ¬ j - 16 < 8 by omega, show j - 16 - 8 < 8 by omega, show 24 + (j - 16 - 8) = j by omega]
  rw [h, toNat_append_eq, toNat_append_eq, opcField_eq, ridxField_eq, reservedField_toNat]
  simp [Nat.shiftRight_eq_div_pow]
  omega

theorem and_fullMask (v : Word) : v &&& 0xFFFFFFFF#32 = v := BitVec.and_allOnes

/-! ### Decoding the fields -/

theorem decodePlain_eq_ok_iff {v : Word} {i j : Instr} :
    decodePlain v i = .ok j ↔ j = i ∧ reservedField v = 0 ∧ ridxField v = 0 ∧ wField v = 0 ∧ xField v = 0 := by
  by_cases hr : reservedField v = 0
  · by_cases hu : ridxField v ≠ 0 ∨ wField v ≠ 0 ∨ xField v ≠ 0
    · simp only [decodePlain, hr, ne_eq, not_true_eq_false, if_false, if_pos hu, reduceCtorEq, false_iff]
      rintro ⟨-, -, h1, h2, h3⟩
      exact (by simp [h1, h2, h3] : ¬ _) hu
    · simp only [ne_eq, not_or, not_not] at hu
      simp [decodePlain, hr, hu, eq_comm]
  · simp only [decodePlain, hr, not_false_eq_true, if_true, reduceCtorEq, false_and, and_false, ne_eq]

theorem decodeRidx_eq_ok_iff {v : Word} {mk : Nat → Instr} {j : Instr} :
    decodeRidx v mk = .ok j ↔ j = mk (ridxField v) ∧ reservedField v = 0 ∧ wField v = 0 ∧ xField v = 0 := by
  by_cases hr : reservedField v = 0
  · by_cases hu : wField v ≠ 0 ∨ xField v ≠ 0
    · simp only [decodeRidx, hr, ne_eq, not_true_eq_false, if_false, if_pos hu, reduceCtorEq, false_iff]
      rintro ⟨-, -, h1, h2⟩
      exact (by simp [h1, h2] : ¬ _) hu
    · simp only [ne_eq, not_or, not_not] at hu
      simp [decodeRidx, hr, hu, eq_comm]
  · simp only [decodeRidx, hr, not_false_eq_true, if_true, reduceCtorEq, false_and, and_false, ne_eq]

theorem decodeWX_eq_ok_iff {v : Word} {mk : Nat → Cell → Instr} {j : Instr} :
    decodeWX v mk = .ok j ↔ j = mk (wField v) (xField v) ∧ reservedField v = 0 ∧ ridxField v = 0 := by
  by_cases hr : reservedField v = 0
  · by_cases hu : ridxField v = 0
    · simp [decodeWX, hr, hu, eq_comm]
    · simp [decodeWX, hr, hu]
  · simp only [decodeWX, hr, not_false_eq_true, if_true, reduceCtorEq, false_and, and_false, ne_eq]

end Sys2Proof.Laws
end

