-- ==== Sys2Proof/Laws/Window.lean ====
section
/-! SUPPORT. The laws of the register window: which register an offset reaches, and everything a host access can do. -/

namespace Sys2Proof.Laws

open Sys2Proof Sys2Proof.Machine

/-! ### Offsets (R81) -/

theorem regAt_state {h : Nat} (hh : h < 2) : regAt (0x040 + 4 * h) = some (.state h) := by
  obtain rfl | rfl : h = 0 ∨ h = 1 := by omega
  all_goals rfl

theorem regAt_aux {h : Nat} (hh : h < 2) : regAt (0x048 + 4 * h) = some (.aux h) := by
  obtain rfl | rfl : h = 0 ∨ h = 1 := by omega
  all_goals rfl

theorem regAt_key {k : Nat} (hk : k < 13) : regAt (0x080 + 4 * k) = some (.key k) :=
  (by decide : ∀ k < 13, regAt (0x080 + 4 * k) = some (.key k)) k hk

theorem regAt_sched {e w h : Nat} (he : e < 256) (hw : w < 4) (hh : h < 2) :
    regAt (0x1000 + 32 * e + 8 * w + 4 * h) = some (.sched e w h) := by
  unfold regAt
  simp only [schedBase, schedTop]
  rw [if_neg (by omega)]
  repeat rw [if_neg (by omega)]
  rw [if_pos (by omega)]
  congr 2 <;> omega

theorem regAt_misaligned {off : Nat} (h : off % 4 ≠ 0) : regAt off = none := by unfold regAt; rw [if_pos h]

/-- The offsets that reach no register (R81, R140). -/
theorem regAt_reserved {off : Nat}
    (h : (0x024 ≤ off ∧ off < 0x040) ∨ (0x050 ≤ off ∧ off < 0x080) ∨ (0x0B4 ≤ off ∧ off < 0x1000) ∨ 0x3000 ≤ off) :
    regAt off = none := by
  by_cases h4 : off % 4 ≠ 0
  · exact regAt_misaligned h4
  · unfold regAt
    simp only [schedBase, schedTop]
    rw [if_neg h4]
    repeat rw [if_neg (by omega)]

/-! ### Accesses -/

/-- A pending access is what the next step performs. -/
theorem step_access {s : State} {a : Access} {rest : List Event} (h : s.pending = .access a :: rest) :
    step s = .next (hostAccess a { s with pending := rest }) := by simp [step, nextMove, h]

/-- Everything a host access can do. -/
theorem hostAccess_cases (a : Access) (s : State) :
    (regOfAccess a = none ∧ hostAccess a s = s.answer a.host (.busError Config.params.busErrEffect)) ∨
    (∃ r, regOfAccess a = some r ∧ a.kind = .read ∧ hostAccess a s = hostRead a.host r s) ∨
    (∃ r v, regOfAccess a = some r ∧ a.kind = .write v ∧ hostAccess a s = (writeReg r v s).answer a.host .ack) := by
  unfold hostAccess
  cases hr : regOfAccess a with
  | none => exact .inl ⟨rfl, rfl⟩
  | some r =>
    cases hk : a.kind with
    | read => exact .inr (.inl ⟨r, rfl, rfl, rfl⟩)
    | write v => exact .inr (.inr ⟨r, v, rfl, rfl, rfl⟩)

/-- A read of a register whose contents show, in this phase. -/
theorem hostRead_exact {host : Nat} {r : Reg} {s : State} (h : (s.engine.busyFlag && r.hiddenWhileBusy) = false) :
    hostRead host r s = s.answer host (.data (regWord Config.params s.engine r)) := by simp [hostRead, h]

/-- A read of a data register while BUSY. -/
theorem hostRead_free {host : Nat} {r : Reg} {s : State} (hb : s.engine.busyFlag = true) (h : r.hiddenWhileBusy = true) :
    hostRead host r s = { s.answer host (.data (Config.freeWord s.draws)) with draws := s.draws + 1 } := by
  simp [hostRead, hb, h]

/-- Everything a write of a register that only IDLE accepts can do. -/
theorem writeIfIdle_cases (e : Engine) (store : Engine → Engine) :
    (e.phase = .idle ∧ e.writeIfIdle store = store e) ∨
    (e.phase = .busy ∧ e.writeIfIdle store = { e with ovr := true }) ∨
    (e.phase = .fault ∧ e.writeIfIdle store = e) := by
  have h : e.phase = .idle ∨ e.phase = .busy ∨ e.phase = .fault := by cases e.phase <;> simp
  rcases h with h | h | h
  · exact .inl ⟨h, by simp only [Engine.writeIfIdle, h]⟩
  · exact .inr (.inl ⟨h, by simp only [Engine.writeIfIdle, h]⟩)
  · exact .inr (.inr ⟨h, by simp only [Engine.writeIfIdle, h]⟩)

/-- Everything a write of a read-only register can do. -/
theorem writeReadOnly_cases (e : Engine) :
    (e.phase = .busy ∧ e.writeReadOnly = { e with ovr := true }) ∨ (e.phase ≠ .busy ∧ e.writeReadOnly = e) := by
  rcases writeIfIdle_cases e (fun e => e) with ⟨h, he⟩ | ⟨h, he⟩ | ⟨h, he⟩
  · exact .inr ⟨by simp [h], he⟩
  · exact .inl ⟨h, he⟩
  · exact .inr ⟨by simp [h], he⟩

/-- Everything a soft reset can do. -/
theorem softReset_cases (s : State) :
    (s.engine.phase = .busy ∧
      softReset s = { s with engine := s.engine.clearControl.forgetData s.draws, draws := s.draws + 2 }) ∨
    (s.engine.phase ≠ .busy ∧ softReset s = { s with engine := s.engine.clearControl }) := by
  have h : s.engine.phase = .idle ∨ s.engine.phase = .busy ∨ s.engine.phase = .fault := by cases s.engine.phase <;> simp
  rcases h with h | h | h
  · exact .inr ⟨by simp [h], by simp only [softReset, h]⟩
  · exact .inl ⟨h, by simp only [softReset, h]⟩
  · exact .inr ⟨by simp [h], by simp only [softReset, h]⟩

end Sys2Proof.Laws
end

