-- ==== Sys2Proof/Laws/HostProgram.lean ====
section
/-! SUPPORT. The laws of host programs (R121): what expands, what a host's turn is on the machine, and everything the operations
that look at STATUS can do. -/

namespace Sys2Proof.Laws

open Sys2Proof Sys2Proof.Machine

/-! ### Expansion -/

@[simp] theorem assemble_wellFormed {i : Instr} (h : i.wellFormed = true) : assemble i = some (encode i) := by
  simp [assemble, h]

@[simp] theorem assemble_illFormed {i : Instr} (h : i.wellFormed = false) : assemble i = none := by simp [assemble, h]

/-- `RUN` of a well-formed command. -/
theorem expandStmt_run {i : Instr} (h : i.wellFormed = true) :
    expandStmt (.run i) = some [.write 0x00C (encode i), .poll] := by simp [expandStmt, h]

/-! ### A host's turn -/

@[simp] theorem hostTurn_failed (host : Nat) (s : State) : hostTurn host .failed s = (.failed, s) := rfl

@[simp] theorem hostTurn_finished (host : Nat) (s : State) : hostTurn host (.todo []) s = (.todo [], s) := rfl

/-- A host's turn is the step of the machine in which its access is the first pending event. -/
theorem hostTurn_isStep (host : Nat) (op : HostOp) (ops : List HostOp) (s : State) :
    step { s with pending := .access (op.access host) :: s.pending } = .next (hostTurn host (.todo (op :: ops)) s).2 :=
  step_access rfl

/-- A read of STATUS answers it exactly in every phase (R88). -/
theorem hostAccess_status (host : Nat) (s : State) :
    hostAccess (memRead host 0x004) s = s.answer host (.data (statusWord s.engine)) := by
  have h : regOfAccess (memRead host 0x004) = some .status := by simp [regOfAccess, memRead, regAt]
  have hx : (s.engine.busyFlag && Reg.status.hiddenWhileBusy) = false := by cases s.engine.busyFlag <;> rfl
  simp only [hostAccess, h]
  exact hostRead_exact hx

/-- Bits 0 and 2 of a STATUS word put together from its fields. -/
theorem status_bits : ∀ (c : Byte) (o f d b : Bool),
    (0#16 ++ c ++ 0#4 ++ flagBit o ++ flagBit f ++ flagBit d ++ flagBit b).getLsbD 0 = b ∧
    (0#16 ++ c ++ 0#4 ++ flagBit o ++ flagBit f ++ flagBit d ++ flagBit b).getLsbD 2 = f := by decide +kernel

/-- Bit 0 of STATUS is BUSY (R40). -/
theorem statusBusyBit_statusWord (e : Engine) : statusBusyBit (statusWord e) = e.busyFlag :=
  (status_bits _ _ _ _ _).1

/-- Bit 2 of STATUS is FAULT (R40). -/
theorem statusFaultBit_statusWord (e : Engine) : statusFaultBit (statusWord e) = e.faultFlag :=
  (status_bits _ _ _ _ _).2

/-- Everything one poll can do: it ends the wait exactly when the engine is not BUSY. -/
theorem hostTurn_poll (host : Nat) (ops : List HostOp) (s : State) :
    hostTurn host (.todo (.poll :: ops)) s =
      (if s.engine.busyFlag then .todo (.poll :: ops) else .todo ops, s.answer host (.data (statusWord s.engine))) := by
  have h := statusBusyBit_statusWord s.engine
  cases hb : s.engine.busyFlag <;> rw [hb] at h <;>
    simp [hostTurn, HostOp.access, hostAccess_status, newestResponse, State.answer, HostRun.afterAccess, HostOp.ended,
      Response.value, h]

/-- Everything a `CHECK` can do: it fails exactly in FAULT. -/
theorem hostTurn_check (host : Nat) (ops : List HostOp) (s : State) :
    hostTurn host (.todo (.check :: ops)) s =
      (if s.engine.faultFlag then .failed else .todo ops, s.answer host (.data (statusWord s.engine))) := by
  have h := statusFaultBit_statusWord s.engine
  cases hb : s.engine.faultFlag <;> rw [hb] at h <;>
    simp [hostTurn, HostOp.access, hostAccess_status, newestResponse, State.answer, HostRun.afterAccess, HostOp.ended,
      Response.value, h]

/-- The write of CMD in IDLE: the word is accepted and answered, and the program goes on (R42). -/
theorem hostTurn_cmd {s : State} (host : Nat) (v : Word) (ops : List HostOp) (hi : s.engine.phase = .idle) :
    hostTurn host (.todo (.write 0x00C v :: ops)) s =
      (.todo ops, ({ s with engine := s.engine.acceptCommand v } : State).answer host .ack) := by
  have h : regOfAccess (memWrite host 0x00C v) = some .cmd := by simp [regOfAccess, memWrite, regAt]
  have hw : writeReg .cmd v s = { s with engine := s.engine.acceptCommand v } := by
    simp [writeReg, Engine.writeIfIdle, hi]
  simp only [hostTurn, HostOp.access, hostAccess, h]
  show (HostRun.afterAccess _ ops (newestResponse ((writeReg .cmd v s).answer host .ack)),
    (writeReg .cmd v s).answer host .ack) = _
  rw [hw]
  rfl

/-- While the engine is BUSY any number of polls only adds answers. -/
theorem runProgram_polls (host k : Nat) (turns : List Turn) (ops : List HostOp) :
    ∀ s : State, s.engine.phase = .busy → ∃ a,
      runProgram host (List.replicate k .host ++ turns) (.todo (.poll :: ops)) s =
        runProgram host turns (.todo (.poll :: ops)) { s with answers := a } := by
  induction k with
  | zero => exact fun s _ => ⟨s.answers, rfl⟩
  | succ k ih =>
    intro s hb
    have hbf : s.engine.busyFlag = true := by simp [Engine.busyFlag, hb]
    rw [List.replicate_succ, List.cons_append, runProgram, hostTurn_poll, hbf]
    exact ih (s.answer host (.data (statusWord s.engine))) hb

end Sys2Proof.Laws
end

