-- ==== Sys2Proof/Laws/Layers.lean ====
section
/-! SUPPORT. The laws of the round layers as functions: cells, and which function undoes which. -/

namespace Sys2Proof.Laws

open Sys2Proof Sys2Proof.Machine

/-! ### SubCells (R191, R192) -/

theorem subCellsInv_subCells (m : Mat4) : subCellsInv (subCells m) = m := cells_ext fun n hn => by
  rw [subCellsInv, cellAt_tabulate _ hn, subCells, cellAt_tabulate _ hn]
  exact (by decide : ∀ x, cellTable sboxInvTable (cellTable sboxTable x) = x) _

theorem subCells_subCellsInv (m : Mat4) : subCells (subCellsInv m) = m := cells_ext fun n hn => by
  rw [subCells, cellAt_tabulate _ hn, subCellsInv, cellAt_tabulate _ hn]
  exact (by decide : ∀ x, cellTable sboxTable (cellTable sboxInvTable x) = x) _

/-! ### AddConstants and AddRoundTweakey: XOR layers (R194 to R197) -/

theorem addConstantsC_cancel (p : Params) (key : KeyCells) (m : Mat4) (r : Nat) :
    addConstantsC p key (addConstantsC p key m r) r = m := xorMat_xorMat_cancel _ _

theorem addConstants_cancel (p : Params) (e : Engine) (m : Mat4) (r : Nat) :
    addConstants p e (addConstants p e m r) r = m := by
  unfold addConstants
  split
  · apply cells_ext
    intro n hn
    rw [addConstantsAB, cellAt_tabulate _ hn, addConstantsAB, cellAt_tabulate _ hn, BitVec.xor_assoc, BitVec.xor_self,
      BitVec.xor_zero]
  · exact addConstantsC_cancel _ _ _ _

theorem addTweakeyAB_cancel (e : Engine) (m : Mat4) (r : Nat) : addTweakeyAB e (addTweakeyAB e m r) r = m := by
  apply cells_ext
  intro n hn
  rw [addTweakeyAB, cellAt_tabulate _ hn, addTweakeyAB, cellAt_tabulate _ hn]
  split
  · rw [BitVec.xor_assoc, BitVec.xor_self, BitVec.xor_zero]
  · rfl

theorem addTweakeyC_cancel (e : Engine) (m : Mat4) (r : Nat) : addTweakeyC e (addTweakeyC e m r) r = m := by
  apply cells_ext
  intro n hn
  rw [addTweakeyC, cellAt_tabulate _ hn, addTweakeyC, cellAt_tabulate _ hn]
  have cancel : ∀ t : Cell, t ^^^ t = 0 := fun t => BitVec.xor_self
  split
  · generalize cellAt (schedRead e.sched r 0) n = a
    generalize cellAt (schedRead e.sched r 1) n = b
    generalize cellAt (schedRead e.sched r 2) n = c
    generalize cellAt (schedRead e.sched r 3) n = d
    generalize cellAt m n = x
    rw [show x ^^^ a ^^^ b ^^^ c ^^^ d ^^^ a ^^^ b ^^^ c ^^^ d = x ^^^ ((a ^^^ b ^^^ c ^^^ d) ^^^ (a ^^^ b ^^^ c ^^^ d)) by
      simp only [BitVec.xor_assoc], cancel]
    exact BitVec.xor_zero
  · rw [BitVec.xor_assoc, cancel]
    exact BitVec.xor_zero

theorem addRoundTweakey_cancel (e : Engine) (m : Mat4) (r : Nat) :
    addRoundTweakey e (addRoundTweakey e m r) r = m := by
  unfold addRoundTweakey
  split
  · exact addTweakeyAB_cancel _ _ _
  · exact addTweakeyC_cancel _ _ _

/-! ### ShiftRows (R198, R199) -/

theorem shiftRowsInv_shiftRows (m : Mat4) : shiftRowsInv (shiftRows m) = m := permuteCells_cancel (by decide) m

theorem shiftRows_shiftRowsInv (m : Mat4) : shiftRows (shiftRowsInv m) = m := permuteCells_cancel (by decide) m

/-! ### MixColumns (R200, R201) -/

theorem cellAt_mixColumns (m : Mat4) {i j : Nat} (hi : i < 4) (hj : j < 4) :
    cellAt (mixColumns m) (4 * i + j) = mixedCell m i j := by
  rw [mixColumns, cellAt_tabulate _ (by omega), show (4 * i + j) / 4 = i by omega, show (4 * i + j) % 4 = j by omega]

theorem cellAt_mixColumnsInv (m : Mat4) {i j : Nat} (hi : i < 4) (hj : j < 4) :
    cellAt (mixColumnsInv m) (4 * i + j) = unmixedCell m i j := by
  rw [mixColumnsInv, cellAt_tabulate _ (by omega), show (4 * i + j) / 4 = i by omega, show (4 * i + j) % 4 = j by omega]

/-- Matrices equal row by row and column by column are equal. -/
theorem rows_ext {a b : Mat4} (h : ∀ i j, i < 4 → j < 4 → cellAt a (4 * i + j) = cellAt b (4 * i + j)) : a = b :=
  cells_ext fun n hn => by
    have := h (n / 4) (n % 4) (by omega) (by omega)
    rwa [show 4 * (n / 4) + n % 4 = n by omega] at this

theorem mixColumnsInv_mixColumns (m : Mat4) : mixColumnsInv (mixColumns m) = m := rows_ext fun i j hi hj => by
  have h := fun (i : Nat) (hi : i < 4) => cellAt_mixColumns m hi hj
  have h0 := h 0 (by omega)
  have h1 := h 1 (by omega)
  have h2 := h 2 (by omega)
  have h3 := h 3 (by omega)
  simp only [Nat.mul_zero, Nat.zero_add, Nat.mul_one, mixedCell, Nat.reduceMul] at h0 h1 h2 h3
  rw [cellAt_mixColumnsInv _ hi hj]
  have : i = 0 ∨ i = 1 ∨ i = 2 ∨ i = 3 := by omega
  rcases this with rfl | rfl | rfl | rfl <;>
    simp only [unmixedCell, h0, h1, h2, h3, Nat.mul_zero, Nat.zero_add, Nat.mul_one, Nat.reduceMul] <;>
    generalize cellAt m j = a <;> generalize cellAt m (4 + j) = b <;> generalize cellAt m (8 + j) = c <;>
    generalize cellAt m (12 + j) = d
  · exact (by decide +kernel : ∀ a b c : Cell, a ^^^ (b ^^^ c) ^^^ (a ^^^ c) = b) a b c
  · exact (by decide +kernel : ∀ a c : Cell, a ^^^ (a ^^^ c) = c) a c
  · exact (by decide +kernel : ∀ a c d : Cell, a ^^^ c ^^^ d ^^^ (a ^^^ c) = d) a c d

theorem mixColumns_mixColumnsInv (m : Mat4) : mixColumns (mixColumnsInv m) = m := rows_ext fun i j hi hj => by
  have h := fun (i : Nat) (hi : i < 4) => cellAt_mixColumnsInv m hi hj
  have h0 := h 0 (by omega)
  have h1 := h 1 (by omega)
  have h2 := h 2 (by omega)
  have h3 := h 3 (by omega)
  simp only [Nat.mul_zero, Nat.zero_add, Nat.mul_one, unmixedCell, Nat.reduceMul] at h0 h1 h2 h3
  rw [cellAt_mixColumns _ hi hj]
  have : i = 0 ∨ i = 1 ∨ i = 2 ∨ i = 3 := by omega
  rcases this with rfl | rfl | rfl | rfl <;>
    simp only [mixedCell, h0, h1, h2, h3, Nat.mul_zero, Nat.zero_add, Nat.mul_one, Nat.reduceMul] <;>
    generalize cellAt m j = a <;> generalize cellAt m (4 + j) = b <;> generalize cellAt m (8 + j) = c <;>
    generalize cellAt m (12 + j) = d
  · exact (by decide +kernel : ∀ a b d : Cell, b ^^^ (b ^^^ d) ^^^ (a ^^^ d) = a) a b d
  · exact (by decide +kernel : ∀ b c d : Cell, b ^^^ c ^^^ d ^^^ (b ^^^ d) = c) b c d
  · exact (by decide +kernel : ∀ b d : Cell, b ^^^ (b ^^^ d) = d) b d

end Sys2Proof.Laws
end

