-- ==== Sys2Proof/Laws/Memory.lean ====
section
/-! SUPPORT. The laws of the schedule memory: a read after a write, the canonical form kept by every write, and the same for a
matrix at a schedule entry. -/

namespace Sys2Proof.Laws

open Sys2Proof Sys2Proof.Machine

/-! ### Reading -/

theorem read_append_of_not_mem {m n : Memory} {a : Nat} (h : ∀ c ∈ m, c.1 ≠ a) :
    Memory.read (m ++ n) a = Memory.read n a := by
  induction m with
  | nil => rfl
  | cons c rest ih =>
    obtain ⟨k, b⟩ := c
    have hk : k ≠ a := h (k, b) (by simp)
    simp only [List.cons_append, Memory.read, if_neg hk]
    exact ih fun c hc => h c (by simp [hc])

theorem read_of_not_mem {m : Memory} {a : Nat} (h : ∀ c ∈ m, c.1 ≠ a) : Memory.read m a = 0 := by
  have := read_append_of_not_mem (n := []) h
  simpa [Memory.read] using this

/-- Keeping only pairs that satisfy a test the offset satisfies does not change the byte read there. -/
theorem read_filter {m : Memory} {a : Nat} (q : Nat → Bool) (h : q a = true) :
    Memory.read (m.filter fun c => q c.1) a = Memory.read m a := by
  induction m with
  | nil => rfl
  | cons c rest ih =>
    obtain ⟨k, b⟩ := c
    by_cases hk : k = a
    · subst hk; simp [h, Memory.read]
    · by_cases hq : q k = true
      · simp [hq, Memory.read, hk, ih]
      · simp [hq, Memory.read, hk, ih]

/-- A pair listed by `cellsFrom a bs` lies in the block and lists a byte that is not 0. -/
theorem mem_cellsFrom {bs : List Byte} {a : Nat} {c : Host.Cell} (h : c ∈ Memory.cellsFrom a bs) :
    a ≤ c.1 ∧ c.1 < a + bs.length ∧ c.2 ≠ 0 := by
  induction bs generalizing a with
  | nil => simp [Memory.cellsFrom] at h
  | cons b bs ih =>
    simp only [Memory.cellsFrom] at h
    simp only [List.length_cons]
    split at h
    · obtain ⟨h1, h2, h3⟩ := ih h
      exact ⟨by omega, by omega, h3⟩
    · rename_i hb
      rcases List.mem_cons.mp h with rfl | h
      · exact ⟨Nat.le_refl _, by omega, hb⟩
      · obtain ⟨h1, h2, h3⟩ := ih h
        exact ⟨by omega, by omega, h3⟩

theorem read_cellsFrom {bs : List Byte} {a x : Nat} :
    Memory.read (Memory.cellsFrom a bs) x = if a ≤ x ∧ x < a + bs.length then bs.getD (x - a) 0 else 0 := by
  induction bs generalizing a with
  | nil => simp [Memory.cellsFrom, Memory.read]
  | cons b bs ih =>
    by_cases hx : x = a
    · subst hx
      by_cases hb : b = 0
      · simp only [Memory.cellsFrom, hb, if_true]
        rw [ih, if_neg (by omega)]; simp
      · simp only [Memory.cellsFrom, if_neg hb, Memory.read, if_true]
        rw [if_pos (by simp only [List.length_cons]; omega), Nat.sub_self, List.getD_cons_zero]
    · have hstep : Memory.read (Memory.cellsFrom a (b :: bs)) x = Memory.read (Memory.cellsFrom (a + 1) bs) x := by
        simp only [Memory.cellsFrom]
        split
        · rfl
        · simp [Memory.read, Ne.symm hx]
      rw [hstep, ih]
      by_cases hr : a + 1 ≤ x ∧ x < a + 1 + bs.length
      · rw [if_pos hr, if_pos (by simp only [List.length_cons]; omega),
          show x - a = (x - (a + 1)) + 1 by omega, List.getD_cons_succ]
      · rw [if_neg hr, if_neg (by simp only [List.length_cons]; omega)]

/-- Read after a block write: the bytes written inside the block, the old byte everywhere else. -/
theorem read_writeBlock (m : Memory) (off : Nat) (bytes : List Byte) (x : Nat) :
    Memory.read (Memory.writeBlock m off bytes) x =
      if off ≤ x ∧ x < off + bytes.length then bytes.getD (x - off) 0 else Memory.read m x := by
  unfold Memory.writeBlock
  by_cases hlow : x < off
  · rw [if_neg (by omega)]
    rw [List.append_assoc]
    have key : ∀ (l r : Memory), (∀ c ∈ r, c.1 ≠ x) → Memory.read (l ++ r) x = Memory.read l x := by
      intro l r hr
      induction l with
      | nil => simpa [Memory.read] using read_of_not_mem hr
      | cons c rest ih => obtain ⟨k, b⟩ := c; simp only [List.cons_append, Memory.read, ih]
    rw [key]
    · exact read_filter (fun k => decide (k < off)) (by simpa using hlow)
    · intro c hc
      rcases List.mem_append.mp hc with hc | hc
      · have := mem_cellsFrom hc; omega
      · have := (List.mem_filter.mp hc).2; simp at this; omega
  · rw [List.append_assoc, read_append_of_not_mem (by intro c hc; have := (List.mem_filter.mp hc).2; simp at this; omega)]
    by_cases hin : x < off + bytes.length
    · rw [if_pos ⟨by omega, hin⟩]
      have key : ∀ (l r : Memory), (∀ c ∈ r, c.1 ≠ x) → Memory.read (l ++ r) x = Memory.read l x := by
        intro l r hr
        induction l with
        | nil => simpa [Memory.read] using read_of_not_mem hr
        | cons c rest ih => obtain ⟨k, b⟩ := c; simp only [List.cons_append, Memory.read, ih]
      rw [key _ _ (by intro c hc; have := (List.mem_filter.mp hc).2; simp at this; omega), read_cellsFrom,
        if_pos ⟨by omega, hin⟩]
    · rw [if_neg (by omega), read_append_of_not_mem (by intro c hc; have := mem_cellsFrom hc; omega)]
      exact read_filter (fun k => decide (off + bytes.length ≤ k)) (by simpa using by omega)

/-! ### The canonical form -/

/-- The canonical form as facts about the pairs: every pair in range, no zero byte, offsets strictly rising. -/
theorem wfFrom_iff {lo : Nat} {m : Memory} :
    Memory.wfFrom lo m = true ↔ (∀ c ∈ m, lo ≤ c.1 ∧ c.1 < schedTop ∧ c.2 ≠ 0) ∧ m.Pairwise (fun c d => c.1 < d.1) := by
  induction m generalizing lo with
  | nil => simp [Memory.wfFrom]
  | cons c rest ih =>
    obtain ⟨k, b⟩ := c
    simp only [Memory.wfFrom, Bool.and_eq_true, decide_eq_true_eq, bne_iff_ne, ne_eq, ih, List.forall_mem_cons,
      List.pairwise_cons]
    constructor
    · rintro ⟨⟨⟨h1, h2⟩, h3⟩, h4, h5⟩
      exact ⟨⟨⟨h1, h2, h3⟩, fun c hc => ⟨by have := (h4 c hc).1; omega, (h4 c hc).2⟩⟩,
        fun c hc => by have := (h4 c hc).1; omega, h5⟩
    · rintro ⟨⟨⟨h1, h2, h3⟩, h4⟩, h5, h6⟩
      exact ⟨⟨⟨h1, h2⟩, h3⟩, fun c hc => ⟨by have := h5 c hc; omega, (h4 c hc).2⟩, h6⟩

theorem pairwise_cellsFrom (a : Nat) (bs : List Byte) : (Memory.cellsFrom a bs).Pairwise (fun c d => c.1 < d.1) := by
  induction bs generalizing a with
  | nil => simp [Memory.cellsFrom]
  | cons b bs ih =>
    simp only [Memory.cellsFrom]
    split
    · exact ih _
    · exact List.pairwise_cons.mpr ⟨fun c hc => by have := mem_cellsFrom hc; omega, ih _⟩

/-- A block write inside the schedule window keeps the canonical form. -/
theorem writeBlock_keeps_wf {m : Memory} {off : Nat} {bytes : List Byte} (hm : Memory.wf m = true) (hlo : schedBase ≤ off)
    (hhi : off + bytes.length ≤ schedTop) : Memory.wf (Memory.writeBlock m off bytes) = true := by
  rw [Memory.wf, wfFrom_iff] at hm ⊢
  obtain ⟨hr, hp⟩ := hm
  unfold Memory.writeBlock
  refine ⟨?_, ?_⟩
  · intro c hc
    simp only [List.mem_append, List.mem_filter] at hc
    rcases hc with (hc | hc) | hc
    · exact hr c hc.1
    · have := mem_cellsFrom hc; exact ⟨by omega, by omega, this.2.2⟩
    · exact hr c hc.1
  · refine List.pairwise_append.mpr ⟨List.pairwise_append.mpr ⟨hp.filter _, pairwise_cellsFrom _ _, ?_⟩, hp.filter _, ?_⟩
    · intro c hc d hd
      have h1 := (List.mem_filter.mp hc).2
      have h2 := mem_cellsFrom hd
      simp at h1; omega
    · intro c hc d hd
      have h2 := (List.mem_filter.mp hd).2
      simp at h2
      rcases List.mem_append.mp hc with hc | hc
      · have h1 := (List.mem_filter.mp hc).2; simp at h1; omega
      · have h1 := mem_cellsFrom hc; omega

/-- Two canonical memories that read the same everywhere are the same data. -/
theorem wf_ext {m n : Memory} (hm : Memory.wf m = true) (hn : Memory.wf n = true)
    (h : ∀ a, Memory.read m a = Memory.read n a) : m = n := by
  have first : ∀ (lo : Nat) (l : Memory) (a : Nat), Memory.wfFrom lo l = true → a < lo → Memory.read l a = 0 := by
    intro lo l a hl ha
    rw [wfFrom_iff] at hl
    exact read_of_not_mem fun c hc => by have := (hl.1 c hc).1; omega
  have main : ∀ (l r : Memory) (lo lo' : Nat), Memory.wfFrom lo l = true → Memory.wfFrom lo' r = true →
      (∀ a, Memory.read l a = Memory.read r a) → l = r := by
    intro l
    induction l with
    | nil =>
      intro r lo lo' _ hr he
      cases r with
      | nil => rfl
      | cons d rest =>
        obtain ⟨k, b⟩ := d
        have := he k
        simp [Memory.read] at this
        simp [Memory.wfFrom, ← this] at hr
    | cons c rest ih =>
      intro r lo lo' hl hr he
      obtain ⟨k, b⟩ := c
      cases r with
      | nil =>
        have := he k
        simp [Memory.read] at this
        simp [Memory.wfFrom, this] at hl
      | cons d rest' =>
        obtain ⟨k', b'⟩ := d
        simp only [Memory.wfFrom, Bool.and_eq_true, decide_eq_true_eq, bne_iff_ne, ne_eq] at hl hr
        have hkk : k = k' := by
          by_contra hne
          rcases Nat.lt_or_gt_of_ne hne with hlt | hlt
          · have h1 := he k
            simp only [Memory.read, if_true, if_neg (Ne.symm hne)] at h1
            rw [first (k' + 1) rest' k hr.2 (by omega)] at h1
            exact hl.1.2 h1
          · have h1 := he k'
            simp only [Memory.read, if_true, if_neg hne] at h1
            rw [first (k + 1) rest k' hl.2 (by omega)] at h1
            exact hr.1.2 h1.symm
        subst hkk
        have hb : b = b' := by simpa [Memory.read] using he k
        subst hb
        congr 1
        refine ih rest' (k + 1) (k + 1) hl.2 hr.2 fun a => ?_
        by_cases ha : k = a
        · subst ha
          rw [first _ _ _ hl.2 (by omega), first _ _ _ hr.2 (by omega)]
        · simpa [Memory.read, ha] using he a
  exact main m n schedBase schedBase hm hn h

/-! ### Words and matrices in the schedule memory -/

theorem length_wordBytes (v : Word) : (wordBytes v).length = 4 := rfl

theorem length_matBytes (t : Mat4) : (matBytes t).length = 8 := rfl

/-- The four bytes of a word make the word (R83). -/
theorem bytes_append (v : Word) :
    v.extractLsb' 24 8 ++ v.extractLsb' 16 8 ++ v.extractLsb' 8 8 ++ v.extractLsb' 0 8 = v := by
  apply BitVec.eq_of_getLsbD_eq
  intro i hi
  simp only [BitVec.getLsbD_append, BitVec.getLsbD_extractLsb']
  by_cases h1 : i < 8
  · simp [h1]
  · by_cases h2 : i < 16
    · simp [h1, show i - 8 < 8 by omega, show 8 + (i - 8) = i by omega]
    · by_cases h3 : i < 24
      · simp [h1, show ¬ i - 8 < 8 by omega, show i - 8 - 8 < 8 by omega, show 16 + (i - 8 - 8) = i by omega]
      · simp [h1, show ¬ i - 8 < 8 by omega, show ¬ i - 8 - 8 < 8 by omega, show i - 8 - 8 - 8 < 8 by omega,
          show 24 + (i - 8 - 8 - 8) = i by omega]

theorem read_writeBlock_in (m : Memory) {off x : Nat} {bytes : List Byte} (h1 : off ≤ x) (h2 : x < off + bytes.length) :
    Memory.read (Memory.writeBlock m off bytes) x = bytes.getD (x - off) 0 := by
  rw [read_writeBlock, if_pos ⟨h1, h2⟩]

theorem read_writeBlock_out (m : Memory) {off x : Nat} {bytes : List Byte} (h : x < off ∨ off + bytes.length ≤ x) :
    Memory.read (Memory.writeBlock m off bytes) x = Memory.read m x := by
  rw [read_writeBlock, if_neg (by omega)]

/-- Byte `i` of a matrix just written. -/
theorem read_writeBlock_mat (m : Memory) (off : Nat) (t : Mat4) {i : Nat} (hi : i < 8) :
    Memory.read (Memory.writeBlock m off (matBytes t)) (off + i) = (matBytes t).getD i 0 := by
  rw [read_writeBlock_in m (by omega) (by rw [length_matBytes]; omega), Nat.add_sub_cancel_left]

/-- The first word of a matrix just written. -/
theorem readWord_writeBlock_mat0 (m : Memory) (off : Nat) (t : Mat4) :
    Memory.readWord (Memory.writeBlock m off (matBytes t)) off = cellsWord t 0 := by
  have h0 := read_writeBlock_mat m off t (i := 0) (by omega)
  rw [Nat.add_zero] at h0
  rw [Memory.readWord, h0, read_writeBlock_mat m off t (by omega), read_writeBlock_mat m off t (by omega),
    read_writeBlock_mat m off t (by omega)]
  exact bytes_append (cellsWord t 0)

/-- The second word of a matrix just written. -/
theorem readWord_writeBlock_mat1 (m : Memory) (off : Nat) (t : Mat4) :
    Memory.readWord (Memory.writeBlock m off (matBytes t)) (off + 4) = cellsWord t 1 := by
  rw [Memory.readWord, Nat.add_assoc off 4 3, Nat.add_assoc off 4 2, Nat.add_assoc off 4 1,
    read_writeBlock_mat m off t (by omega), read_writeBlock_mat m off t (by omega), read_writeBlock_mat m off t (by omega),
    read_writeBlock_mat m off t (by omega)]
  exact bytes_append (cellsWord t 1)

/-- A word read outside the block written is the old one. -/
theorem readWord_writeBlock_outside (m : Memory) (off : Nat) (bytes : List Byte) {x : Nat}
    (h : x + 4 ≤ off ∨ off + bytes.length ≤ x) :
    Memory.readWord (Memory.writeBlock m off bytes) x = Memory.readWord m x := by
  rw [Memory.readWord, read_writeBlock_out m (by omega), read_writeBlock_out m (by omega), read_writeBlock_out m (by omega),
    read_writeBlock_out m (by omega), Memory.readWord]

/-- `Sched(e, w)` after `Sched(e, w) <- t` is `t`. -/
theorem schedRead_schedWrite_same (m : Memory) (e w : Nat) (t : Mat4) : schedRead (schedWrite m e w t) e w = t := by
  rw [schedRead, schedWrite, readWord_writeBlock_mat0, readWord_writeBlock_mat1, matOfWords_cellsWord]

/-- `Sched(e, w)` after a write of another entry or word is what it was. -/
theorem schedRead_schedWrite_other (m : Memory) {e w e' w' : Nat} (t : Mat4) (hw : w < 4) (hw' : w' < 4)
    (h : e' ≠ e ∨ w' ≠ w) : schedRead (schedWrite m e w t) e' w' = schedRead m e' w' := by
  have hd : schedOffset e' w' + 8 ≤ schedOffset e w ∨ schedOffset e w + 8 ≤ schedOffset e' w' := by
    simp only [schedOffset]; omega
  simp only [schedRead, schedWrite]
  rw [readWord_writeBlock_outside _ _ _ (by rw [length_matBytes]; omega),
    readWord_writeBlock_outside _ _ _ (by rw [length_matBytes]; omega)]

/-- A write of a schedule word keeps the canonical form. -/
theorem schedWrite_keeps_wf {m : Memory} {e w : Nat} (t : Mat4) (hm : Memory.wf m = true) (he : e < 256) (hw : w < 4) :
    Memory.wf (schedWrite m e w t) = true :=
  writeBlock_keeps_wf hm (by simp only [schedOffset]; omega)
    (by rw [length_matBytes]; simp only [schedOffset, schedBase, schedTop]; omega)

/-- A write of a schedule word changes only its eight bytes. -/
theorem read_schedWrite_outside (m : Memory) (e w : Nat) (t : Mat4) {x : Nat}
    (h : x < schedOffset e w ∨ schedOffset e w + 8 ≤ x) : Memory.read (schedWrite m e w t) x = Memory.read m x := by
  rw [schedWrite, read_writeBlock, if_neg (by rw [length_matBytes]; omega)]

end Sys2Proof.Laws
end

