-- ==== Sys2Proof/Laws/PerInstr.lean ====
section
/-! SUPPORT. One statement per command, about its encoding: the word of a well-formed command lies in the command's own row of the
opcode map (R116, R120). -/

namespace Sys2Proof.Laws

open Sys2Proof

/-- The word of a well-formed command meets `(v & mask) == match` of its row (R116). -/
def EncodesToRow.Statement (i : Instr) : Prop :=
  i.wellFormed = true → encode i &&& (opcodeRow i).maskBits = (opcodeRow i).matchBits

/-- The word of a command that uses `RIDX` only, under its mask. -/
theorem encodeRidx_and_mask {opc r : Nat} (ho : opc < 256) (hr : ridxFits r = true) :
    encodeRidx (BitVec.ofNat 32 opc) r &&& 0xFFFF00FF#32 = BitVec.ofNat 32 opc := by
  have hr : r ≤ 255 := by simpa [ridxFits] using hr
  apply BitVec.eq_of_toNat_eq
  have h := encodeRidx_toNat ho hr
  rw [and_ridxMask, opcField_eq, wField_eq, xField_toNat, reservedField_toNat, h, BitVec.toNat_ofNat]
  omega

/-- The word of a command that uses `W` and `X`, under its mask. -/
theorem encodeWX_and_mask {opc w : Nat} (x : Cell) (ho : opc < 256) (hw : wordFits w = true) :
    encodeWX (BitVec.ofNat 32 opc) w x &&& 0xFF00FFFF#32 = BitVec.ofNat 32 opc := by
  have hw : w ≤ 15 := by simpa [wordFits] using hw
  apply BitVec.eq_of_toNat_eq
  have h := encodeWX_toNat x ho hw
  have hx := x.isLt
  rw [and_wxMask, opcField_eq, ridxField_eq, reservedField_toNat, h, BitVec.toNat_ofNat]
  omega

theorem EncodesToRow.nop : EncodesToRow.Statement .nop := fun _ => rfl
theorem EncodesToRow.xors : EncodesToRow.Statement .xors := fun _ => rfl
theorem EncodesToRow.cpsa : EncodesToRow.Statement .cpsa := fun _ => rfl
theorem EncodesToRow.lff (w : Nat) (x : Cell) : EncodesToRow.Statement (.lff w x) := encodeWX_and_mask x (by decide)
theorem EncodesToRow.lfi (w : Nat) (x : Cell) : EncodesToRow.Statement (.lfi w x) := encodeWX_and_mask x (by decide)
theorem EncodesToRow.sc : EncodesToRow.Statement .sc := fun _ => rfl
theorem EncodesToRow.sci : EncodesToRow.Statement .sci := fun _ => rfl
theorem EncodesToRow.ac (r : Nat) : EncodesToRow.Statement (.ac r) := encodeRidx_and_mask (by decide)
theorem EncodesToRow.art (r : Nat) : EncodesToRow.Statement (.art r) := encodeRidx_and_mask (by decide)
theorem EncodesToRow.sr : EncodesToRow.Statement .sr := fun _ => rfl
theorem EncodesToRow.sri : EncodesToRow.Statement .sri := fun _ => rfl
theorem EncodesToRow.mc : EncodesToRow.Statement .mc := fun _ => rfl
theorem EncodesToRow.mci : EncodesToRow.Statement .mci := fun _ => rfl
theorem EncodesToRow.ksf : EncodesToRow.Statement .ksf := fun _ => rfl
theorem EncodesToRow.ksi : EncodesToRow.Statement .ksi := fun _ => rfl
theorem EncodesToRow.enc : EncodesToRow.Statement .enc := fun _ => rfl
theorem EncodesToRow.dec : EncodesToRow.Statement .dec := fun _ => rfl
theorem EncodesToRow.rnde (r : Nat) : EncodesToRow.Statement (.rnde r) := encodeRidx_and_mask (by decide)
theorem EncodesToRow.rndd (r : Nat) : EncodesToRow.Statement (.rndd r) := encodeRidx_and_mask (by decide)

end Sys2Proof.Laws
end

