-- ==== Sys2Proof/Laws/Schedule.lean ====
section
/-! SUPPORT. The laws of the tweakey schedule: the step functions word by word, the entries of a schedule by index, and what is
read back after a schedule is stored. -/

namespace Sys2Proof.Laws

open Sys2Proof Sys2Proof.Machine

/-! ### Steps word by word -/

theorem length_stepWordsFrom (f : Nat → Mat4 → Mat4) (w : Nat) (ts : List Mat4) :
    (stepWordsFrom f w ts).length = ts.length := by
  induction ts generalizing w with
  | nil => rfl
  | cons t ts ih => simp [stepWordsFrom, ih]

/-- Word `k` of a stepped list. -/
theorem getElem?_stepWordsFrom (f : Nat → Mat4 → Mat4) (w k : Nat) (ts : List Mat4) :
    (stepWordsFrom f w ts)[k]? = ts[k]?.map (f (w + k)) := by
  induction ts generalizing w k with
  | nil => simp [stepWordsFrom]
  | cons t ts ih =>
    cases k with
    | zero => simp [stepWordsFrom]
    | succ k => simp [stepWordsFrom, ih, show w + 1 + k = w + (k + 1) by omega]

theorem length_tkStep (p : Params) (v : Variant) (ts : List Mat4) : (tkStep p v ts).length = ts.length :=
  length_stepWordsFrom _ _ _

theorem length_tkInvStep (p : Params) (ts : List Mat4) : (tkInvStep p ts).length = ts.length := length_stepWordsFrom _ _ _

theorem getElem?_tkStep (p : Params) (v : Variant) (ts : List Mat4) (w : Nat) :
    (tkStep p v ts)[w]? = ts[w]?.map (tkStepWord p v w) := by simp [tkStep, getElem?_stepWordsFrom]

theorem getElem?_tkInvStep (p : Params) (ts : List Mat4) (w : Nat) :
    (tkInvStep p ts)[w]? = ts[w]?.map (tkInvStepWord p w) := by simp [tkInvStep, getElem?_stepWordsFrom]

/-! ### A word's step and its inverse (R245) -/

theorem cellAt_lfsrTopRows (f : Option (Cell → Cell)) (t : Mat4) {n : Nat} (h : n < 16) :
    cellAt (lfsrTopRows f t) n = if n < 8 then applyLfsr f (cellAt t n) else cellAt t n := by
  simp [lfsrTopRows, cellAt_tabulate _ h]

theorem lfsrTopRows_cancel {f g : Option (Cell → Cell)} (h : ∀ x, applyLfsr g (applyLfsr f x) = x) (t : Mat4) :
    lfsrTopRows g (lfsrTopRows f t) = t :=
  cells_ext fun n hn => by
    rw [cellAt_lfsrTopRows _ _ hn, cellAt_lfsrTopRows _ _ hn]
    split
    · exact h _
    · rfl

theorem applyLfsr_inv_fwd (p : Params) (w : Nat) (x : Cell) : applyLfsr (lfInv p w) (applyLfsr (lf p .c w) x) = x := by
  simp only [lfInv, lf, lfsrPairC]
  split <;> simp [applyLfsr, LfsrPair.inv_fwd]

theorem applyLfsr_fwd_inv (p : Params) (w : Nat) (x : Cell) : applyLfsr (lf p .c w) (applyLfsr (lfInv p w) x) = x := by
  simp only [lfInv, lf, lfsrPairC]
  split <;> simp [applyLfsr, LfsrPair.fwd_inv]

theorem permute_pt_ptInv (t : Mat4) : permuteCells ptInvTable (permuteCells ptTable t) = t :=
  permuteCells_cancel (by decide) t

theorem permute_ptInv_pt (t : Mat4) : permuteCells ptTable (permuteCells ptInvTable t) = t :=
  permuteCells_cancel (by decide) t

theorem tkInvStepWord_tkStepWord (p : Params) (w : Nat) (t : Mat4) : tkInvStepWord p w (tkStepWord p .c w t) = t := by
  rw [tkInvStepWord, tkStepWord, lfsrTopRows_cancel (applyLfsr_inv_fwd p w), permute_pt_ptInv]

theorem tkStepWord_tkInvStepWord (p : Params) (w : Nat) (t : Mat4) : tkStepWord p .c w (tkInvStepWord p w t) = t := by
  rw [tkInvStepWord, tkStepWord, permute_ptInv_pt, lfsrTopRows_cancel (applyLfsr_fwd_inv p w)]

/-! ### Entries of a schedule (R243, R251) -/

/-- `n` steps of a function: the entry after `n` steps. -/
def stepTimes (f : List Mat4 → List Mat4) : Nat → List Mat4 → List Mat4
  | 0, ts => ts
  | n + 1, ts => stepTimes f n (f ts)

theorem stepTimes_succ' (f : List Mat4 → List Mat4) (n : Nat) (ts : List Mat4) :
    stepTimes f (n + 1) ts = f (stepTimes f n ts) := by
  induction n generalizing ts with
  | zero => rfl
  | succ n ih => rw [stepTimes, ih, stepTimes]

theorem length_stepTimes {f : List Mat4 → List Mat4} (hf : ∀ ts, (f ts).length = ts.length) (n : Nat) (ts : List Mat4) :
    (stepTimes f n ts).length = ts.length := by
  induction n generalizing ts with
  | zero => rfl
  | succ n ih => rw [stepTimes, ih, hf]

theorem length_scheduleForward (p : Params) (v : Variant) (r : Nat) (ts : List Mat4) :
    (scheduleForward p v r ts).length = r + 1 := by
  induction r generalizing ts with
  | zero => rfl
  | succ r ih => simp [scheduleForward, ih]

/-- Entry `n` of a forward schedule is `n` steps from entry 0. -/
theorem getElem?_scheduleForward (p : Params) (v : Variant) {r n : Nat} (ts : List Mat4) (h : n ≤ r) :
    (scheduleForward p v r ts)[n]? = some (stepTimes (tkStep p v) n ts) := by
  induction r generalizing ts n with
  | zero => obtain rfl : n = 0 := by omega
            rfl
  | succ r ih =>
    cases n with
    | zero => rfl
    | succ n => simpa [scheduleForward, stepTimes] using ih (tkStep p v ts) (by omega)

theorem length_scheduleBackward (p : Params) (r : Nat) (ts : List Mat4) (later : List (List Mat4)) :
    (scheduleBackward p r ts later).length = r + 1 + later.length := by
  induction r generalizing ts later with
  | zero => simp [scheduleBackward]; omega
  | succ r ih => simp [scheduleBackward, ih]; omega

/-- A backward schedule is the forward schedule of its entry 0, followed by the later entries. -/
theorem scheduleBackward_eq (p : Params) (r : Nat) (ts : List Mat4) (later : List (List Mat4))
    (hstep : ∀ us, tkStep p .c (tkInvStep p us) = us) :
    scheduleBackward p r ts later = scheduleForward p .c r (stepTimes (tkInvStep p) r ts) ++ later := by
  induction r generalizing ts later with
  | zero => rfl
  | succ r ih =>
    rw [scheduleBackward, ih, stepTimes]
    have key : ∀ (n : Nat) (us : List Mat4),
        scheduleForward p .c (n + 1) us = scheduleForward p .c n us ++ [stepTimes (tkStep p .c) (n + 1) us] := by
      intro n
      induction n with
      | zero => intro us; rfl
      | succ n ihn => intro us; rw [scheduleForward, ihn]; rfl
    have back : ∀ (n : Nat) (us : List Mat4), stepTimes (tkStep p .c) n (stepTimes (tkInvStep p) n us) = us := by
      intro n
      induction n with
      | zero => intro us; rfl
      | succ n ihn => intro us; rw [stepTimes_succ' (tkInvStep p), stepTimes, hstep, ihn]
    have := back (r + 1) ts
    rw [show stepTimes (tkInvStep p) (r + 1) ts = stepTimes (tkInvStep p) r (tkInvStep p ts) from rfl] at this
    rw [key, this, List.append_assoc]
    rfl

/-! ### Stepping a list of words and its inverse (R245) -/

theorem tkStep_tkInvStep (p : Params) (ts : List Mat4) : tkStep p .c (tkInvStep p ts) = ts := by
  apply List.ext_getElem?
  intro w
  rw [getElem?_tkStep, getElem?_tkInvStep]
  cases ts[w]? <;> simp [tkStepWord_tkInvStepWord]

theorem tkInvStep_tkStep (p : Params) (ts : List Mat4) : tkInvStep p (tkStep p .c ts) = ts := by
  apply List.ext_getElem?
  intro w
  rw [getElem?_tkInvStep, getElem?_tkStep]
  cases ts[w]? <;> simp [tkInvStepWord_tkStepWord]

/-- Forward steps undo as many inverse steps (R245). -/
theorem stepTimes_tkStep_tkInvStep (p : Params) (n : Nat) (ts : List Mat4) :
    stepTimes (tkStep p .c) n (stepTimes (tkInvStep p) n ts) = ts := by
  induction n generalizing ts with
  | zero => rfl
  | succ n ih => rw [stepTimes_succ' (tkInvStep p), stepTimes, tkStep_tkInvStep, ih]

/-- Inverse steps undo as many forward steps (R245). -/
theorem stepTimes_tkInvStep_tkStep (p : Params) (n : Nat) (ts : List Mat4) :
    stepTimes (tkInvStep p) n (stepTimes (tkStep p .c) n ts) = ts := by
  induction n generalizing ts with
  | zero => rfl
  | succ n ih => rw [stepTimes_succ' (tkStep p .c), stepTimes, tkInvStep_tkStep, ih]

/-- The backward schedule of R251 is the forward schedule of its entry 0. -/
theorem scheduleBackward_nil (p : Params) (r : Nat) (ts : List Mat4) :
    scheduleBackward p r ts [] = scheduleForward p .c r (stepTimes (tkInvStep p) r ts) := by
  rw [scheduleBackward_eq p r ts [] (tkStep_tkInvStep p), List.append_nil]

/-! ### KEY after its tweakey words are written (R251) -/

/-- Writing the words `w ..` leaves the words before `w` alone. -/
theorem cellAt_withTkWordsFrom_before {w x n : Nat} (ts : List Mat4) (key : KeyCells) (hn : n < 16) (hx : x < w)
    (hb : 32 + 16 * x + 16 ≤ 100) : cellAt (withTkWordsFrom w ts key) (32 + 16 * x + n) = cellAt key (32 + 16 * x + n) := by
  induction ts generalizing w key with
  | nil => rfl
  | cons t ts ih => rw [withTkWordsFrom, ih _ (by omega), cellAt_withKeyMat_outside _ _ (by omega) (by omega)]

/-- Word `k` of the list is written as word `w + k`. -/
theorem cellAt_withTkWordsFrom_same {w k n : Nat} (ts : List Mat4) (key : KeyCells) (hl : w + ts.length ≤ 4) (hn : n < 16)
    (hk : k < ts.length) : cellAt (withTkWordsFrom w ts key) (32 + 16 * (w + k) + n) = cellAt ts[k] n := by
  induction ts generalizing w key k with
  | nil => simp at hk
  | cons t ts ih =>
    simp only [List.length_cons] at hl hk
    cases k with
    | zero =>
      rw [withTkWordsFrom, Nat.add_zero, cellAt_withTkWordsFrom_before _ _ hn (by omega) (by omega),
        cellAt_withKeyMat _ _ _ (by omega), if_pos (by omega)]
      simp only [List.getElem_cons_zero]; congr 1; omega
    | succ k =>
      rw [withTkWordsFrom, show w + (k + 1) = w + 1 + k by omega, ih _ (by omega) (by omega)]; rfl

/-- The sub-keys and the seed row stay (R246). -/
theorem cellAt_withTkWordsFrom_outside {w n : Nat} (ts : List Mat4) (key : KeyCells) (hl : w + ts.length ≤ 4) (hn : n < 100)
    (ho : n < 32 ∨ 96 ≤ n) : cellAt (withTkWordsFrom w ts key) n = cellAt key n := by
  induction ts generalizing w key with
  | nil => rfl
  | cons t ts ih =>
    simp only [List.length_cons] at hl
    rw [withTkWordsFrom, ih _ (by omega), cellAt_withKeyMat_outside _ _ hn (by omega)]

/-! ### Storing and reading back (R248) -/

theorem length_tkWords (v : Variant) (z : Nat) (key : KeyCells) : (tkWords v z key).length = z := by simp [tkWords]

theorem getElem?_tkWords (v : Variant) {z w : Nat} (key : KeyCells) (h : w < z) :
    (tkWords v z key)[w]? = some (keyMat key (tkOffset v w)) := by simp [tkWords, h]

/-- After storing the words `w ..` of entry `e`, word `k` of the list is at `Sched(e, w + k)`. -/
theorem schedRead_storeWords_same (e w : Nat) (ts : List Mat4) (m : Memory) {k : Nat} (hk : k < ts.length)
    (hw : w + ts.length ≤ 4) : schedRead (storeWords e w ts m) e (w + k) = ts[k] := by
  have keep : ∀ (us : List Mat4) (w' : Nat) (m' : Memory) (x : Nat), x < w' → w' + us.length ≤ 4 →
      schedRead (storeWords e w' us m') e x = schedRead m' e x := by
    intro us
    induction us with
    | nil => intros; rfl
    | cons u us ih =>
      intro w' m' x hx hlen
      simp only [List.length_cons] at hlen
      rw [storeWords, ih _ _ _ (by omega) (by omega), schedRead_schedWrite_other _ _ (by omega) (by omega) (.inr (by omega))]
  induction ts generalizing w k m with
  | nil => simp at hk
  | cons t ts ih =>
    simp only [List.length_cons] at hk hw
    cases k with
    | zero =>
      rw [storeWords, keep _ _ _ _ (by omega) (by omega)]
      exact schedRead_schedWrite_same m e w t
    | succ k =>
      rw [storeWords, show w + (k + 1) = w + 1 + k by omega, ih (w + 1) _ (by omega) (by omega)]; rfl

/-- Storing the words of an entry leaves other entries, and words outside its list, alone. -/
theorem schedRead_storeWords_other (e w : Nat) (ts : List Mat4) (m : Memory) {e' w' : Nat} (hw : w + ts.length ≤ 4)
    (hw' : w' < 4) (h : e' ≠ e ∨ w' < w ∨ w + ts.length ≤ w') :
    schedRead (storeWords e w ts m) e' w' = schedRead m e' w' := by
  induction ts generalizing w m with
  | nil => rfl
  | cons t ts ih =>
    simp only [List.length_cons] at hw h
    rw [storeWords, ih (w + 1) _ (by omega) (by omega),
      schedRead_schedWrite_other _ _ (by omega) hw' (by omega)]

theorem storeWords_keeps_wf {e w : Nat} {ts : List Mat4} {m : Memory} (hm : Memory.wf m = true) (he : e < 256)
    (hw : w + ts.length ≤ 4) : Memory.wf (storeWords e w ts m) = true := by
  induction ts generalizing w m with
  | nil => exact hm
  | cons t ts ih =>
    simp only [List.length_cons] at hw
    exact ih (schedWrite_keeps_wf t hm he (by omega)) (by omega)

theorem read_storeWords_outside (e w : Nat) (ts : List Mat4) (m : Memory) {x : Nat}
    (h : x < schedOffset e w ∨ schedOffset e (w + ts.length) ≤ x) :
    Memory.read (storeWords e w ts m) x = Memory.read m x := by
  induction ts generalizing w m with
  | nil => rfl
  | cons t ts ih =>
    simp only [List.length_cons, schedOffset] at h ih
    rw [storeWords, ih _ _ (by omega), read_schedWrite_outside _ _ _ _ (by simp only [schedOffset]; omega)]

/-- After storing a schedule from entry `e` up, entry `k` of the list is at entry `e + k`, word by word. -/
theorem schedRead_storeEntries_same (e : Nat) (es : List (List Mat4)) (m : Memory) {k w : Nat} (hk : k < es.length)
    (hlen : ∀ ts ∈ es, ts.length ≤ 4) (hw : w < es[k].length) :
    schedRead (storeEntries e es m) (e + k) w = es[k][w] := by
  have keep : ∀ (fs : List (List Mat4)) (e' : Nat) (m' : Memory) (x : Nat), x < e' → (∀ ts ∈ fs, ts.length ≤ 4) → w < 4 →
      schedRead (storeEntries e' fs m') x w = schedRead m' x w := by
    intro fs
    induction fs with
    | nil => intros; rfl
    | cons ts fs ih =>
      intro e' m' x hx hl hw4
      rw [storeEntries, ih _ _ _ (by omega) (fun us hus => hl us (by simp [hus])) hw4,
        schedRead_storeWords_other _ _ _ _ (by have := hl ts (by simp); omega) hw4 (.inl (by omega))]
  induction es generalizing e k m with
  | nil => simp at hk
  | cons ts es ih =>
    simp only [List.length_cons] at hk
    have hts := hlen ts (by simp)
    cases k with
    | zero =>
      simp only [List.getElem_cons_zero] at hw ⊢
      rw [storeEntries, Nat.add_zero, keep _ _ _ _ (by omega) (fun us hus => hlen us (by simp [hus])) (by omega)]
      have := schedRead_storeWords_same e 0 ts m hw (by omega)
      rwa [Nat.zero_add] at this
    | succ k =>
      simp only [List.getElem_cons_succ] at hw ⊢
      rw [storeEntries, show e + (k + 1) = e + 1 + k by omega]
      exact ih (e + 1) _ (by omega) (fun us hus => hlen us (by simp [hus])) hw

theorem storeEntries_keeps_wf {e : Nat} {es : List (List Mat4)} {m : Memory} (hm : Memory.wf m = true)
    (he : e + es.length ≤ 256) (hlen : ∀ ts ∈ es, ts.length ≤ 4) : Memory.wf (storeEntries e es m) = true := by
  induction es generalizing e m with
  | nil => exact hm
  | cons ts es ih =>
    simp only [List.length_cons] at he
    exact ih (storeWords_keeps_wf hm (by omega) (by have := hlen ts (by simp); omega)) (by omega)
      fun us hus => hlen us (by simp [hus])

/-- Storing a schedule changes only bytes of the words it stores. -/
theorem read_storeEntries_outside (e z : Nat) (es : List (List Mat4)) (m : Memory) {x : Nat}
    (hlen : ∀ ts ∈ es, ts.length = z)
    (h : ∀ k w, k < es.length → w < z → x < schedOffset (e + k) w ∨ schedOffset (e + k) w + 8 ≤ x) :
    Memory.read (storeEntries e es m) x = Memory.read m x := by
  induction es generalizing e m with
  | nil => rfl
  | cons ts es ih =>
    have hts := hlen ts (by simp)
    rw [storeEntries, ih (e + 1) _ (fun us hus => hlen us (by simp [hus])) fun k w hk hw => by
      have := h (k + 1) w (by simp only [List.length_cons]; omega) hw
      rwa [show e + (k + 1) = e + 1 + k by omega] at this]
    apply read_storeWords_outside
    by_cases hz0 : z = 0
    · simp only [schedOffset, hts, hz0]; omega
    · by_cases hx : x < schedOffset e 0
      · exact .inl hx
      · right
        rw [hts]
        have hall : ∀ w, w ≤ z → schedOffset e w ≤ x := by
          intro w
          induction w with
          | zero => intro _; omega
          | succ w ihw =>
            intro hw
            have h1 := ihw (by omega)
            have h2 := h 0 w (by simp) (by omega)
            simp only [Nat.add_zero, schedOffset] at h1 h2 ⊢
            omega
        simpa using hall z (Nat.le_refl z)

/-! ### What an engine reads after a schedule is stored -/

theorem length_of_mem_scheduleForward {p : Params} {v : Variant} {r : Nat} {ts us : List Mat4}
    (h : us ∈ scheduleForward p v r ts) : us.length = ts.length := by
  induction r generalizing ts with
  | zero => simp [scheduleForward] at h; rw [h]
  | succ r ih =>
    rcases List.mem_cons.mp h with rfl | h
    · rfl
    · rw [ih h, length_tkStep]

/-- `Sched(n, w)` after the schedule of `ts` is stored: word `w` after `n` steps. -/
theorem schedRead_stored (p : Params) (v : Variant) (r : Nat) (ts : List Mat4) (m : Memory) {n w : Nat} (hn : n ≤ r)
    (hts : ts.length ≤ 4) (hw : w < ts.length) :
    (stepTimes (tkStep p v) n ts)[w]? =
      some (schedRead (storeEntries 0 (scheduleForward p v r ts) m) n w) := by
  have hlen : ∀ us ∈ scheduleForward p v r ts, us.length ≤ 4 := fun us hus => by
    rw [length_of_mem_scheduleForward hus]; exact hts
  have hn' : n < (scheduleForward p v r ts).length := by rw [length_scheduleForward]; omega
  have hget : (scheduleForward p v r ts)[n] = stepTimes (tkStep p v) n ts := by
    have := getElem?_scheduleForward p v ts hn
    rw [List.getElem?_eq_getElem hn'] at this
    exact Option.some.inj this
  have hw' : w < (scheduleForward p v r ts)[n].length := by
    rw [hget, length_stepTimes (length_tkStep p v)]; exact hw
  have := schedRead_storeEntries_same 0 _ m hn' hlen hw'
  rw [Nat.zero_add] at this
  rw [this]
  simp only [hget]
  exact List.getElem?_eq_getElem _

end Sys2Proof.Laws
end

