-- ==== Sys2Proof/Tests/Slice0.lean ====
section
/-! SUPPORT. Tests: expected results from 95_test_vectors.md (the id stands in the comment) or from the rule named; and, for every
obligation with hypotheses, a state and operands that meet them. -/

namespace Sys2Proof.Tests

open Sys2Proof Sys2Proof.Machine Sys2Proof.Laws Sys2Proof.Claims Sys2Proof.Safety

set_option Elab.async false

/-! ### Helpers -/

/-- A matrix from its 16-digit spelling (R15). -/
def mat (v : BitVec 64) : Mat4 := matOfWords (v.extractLsb' 32 32) (v.extractLsb' 0 32)

/-- KEY from its words KEY0, KEY1, ... -/
def keyOf (words : List Word) : KeyCells := Vector.ofFn fun n => wordCell (words.getD (n.val / 8) 0) (n.val % 8)

/-- An IDLE engine with the given CFG word, KEY words and STATE. -/
def engineWith (cfg : Word) (words : List Word) (st : BitVec 64) : Engine :=
  { Engine.reset with cfg := cfgOfWord cfg, key := keyOf words, state := mat st }

/-- The machine around an engine, with nothing pending. -/
def around (e : Engine) : State := { engine := e, pending := [], answers := [], draws := 0 }

/-- A machine about to complete a command word. -/
def busyWith (v : Word) (e : Engine) : State := around (e.acceptCommand v)

/-- The engine after an outcome. -/
def after : Outcome → Engine
  | .next t => t.engine
  | .fault _ => Engine.reset
  | .refused _ => Engine.reset

/-- The newest answer after an outcome. -/
def answered : Outcome → Option Response
  | .next t => t.answers.head?.map (·.response)
  | .fault _ => none
  | .refused _ => none

/-- What the host reads at an offset. -/
def readAt (off : Nat) (e : Engine) : Option Response := answered (step (withRead 0 off [] (around e)))

/-- The engine after a host's write. -/
def wrote (off : Nat) (v : Word) (e : Engine) : Engine := after (step (withWrite 0 off v [] (around e)))

/-- `LFSR2` as Variant B's fourth LFSR under TC1. -/
def tc1Lfsr : Lfsr := { fn := lfsr2, linear := by decide, injective := by decide }

/-- `LFSR2` with inverse `LFSR3` (R165). -/
def tc1Pair : LfsrPair := { fwd := lfsr2, inv := lfsr3, linear := by decide, inv_fwd := by decide, fwd_inv := by decide }

/-- `LFSR3` with inverse `LFSR2` (R165). -/
def tc1PairRev : LfsrPair := { fwd := lfsr3, inv := lfsr2, linear := by decide, inv_fwd := by decide, fwd_inv := by decide }

/-- The test configuration TC1 of 95_test_vectors.md section 4. -/
def tc1 : Params :=
  { rMaxC := 64, rMaxC_range := by decide, rDefC := 1, rDefC_range := by decide, lfsrB4 := tc1Lfsr, lfsrC1 := tc1Pair,
    lfsrC2 := tc1PairRev, lfsrC3 := tc1Pair, rcc := fun s r => Vector.ofFn fun n => BitVec.ofNat 4 (r + n.val + s.toNat),
    busErrEffect := .exception }

/-- The completion of a command under TC1 (`exec_eq` with another configuration). -/
def completeTc1 (i : Instr) (e : Engine) : Engine := completeCommand tc1 (commandChecks i) (commandEffect i tc1) e

/-- The key K_C of 95_test_vectors.md section 4. -/
def keyC : List Word :=
  [0x00112233#32, 0x44556677#32, 0x8899AABB#32, 0xCCDDEEFF#32, 0xF5269826#32, 0xFC681238#32, 0x9EB93640#32] ++
  [0xD088DA63#32, 0x76A39D1C#32, 0x8BEA71E1#32, 0xED00C85B#32, 0x120D6861#32, 0x50000000#32]

/-- The key of PV1. -/
def keyPv1 : List Word := [0xF5269826#32, 0xFC681238#32]

/-- The plaintext of PV1. -/
def plain1 : BitVec 64 := 0x06034f957724d19d#64

/-! ### WellFormed (R120): an ill-formed term for each check -/

theorem test_wellFormed_ridx : Instr.wellFormed (.ac 256) = false ∧ Instr.wellFormed (.art 256) = false ∧
    Instr.wellFormed (.rnde 256) = false ∧ Instr.wellFormed (.rndd 256) = false ∧ Instr.wellFormed (.rndd 255) = true := by decide

theorem test_wellFormed_word : Instr.wellFormed (.lff 16 0) = false ∧ Instr.wellFormed (.lfi 16 0) = false ∧
    Instr.wellFormed (.lfi 15 0xF) = true := by decide

theorem test_assemble_out_of_range : assemble (.ac 256) = none ∧ assemble (.ac 5) = some 0x00000512#32 := by decide

/-! ### Decoding, a word written out for every constructor (R110, R116, V-E) -/

theorem test_decode_state_group : decode 0x00000000#32 = .ok .nop ∧ decode 0x00000001#32 = .ok .xors ∧
    decode 0x00000002#32 = .ok .cpsa := by decide

theorem test_decode_lfsr : decode 0b00000000_1010_0001_00000000_00001000#32 = .ok (.lff 1 0xA#4) ∧
    decode 0b00000000_0101_0001_00000000_00001001#32 = .ok (.lfi 1 0x5#4) := by decide

theorem test_decode_layers : decode 0x00000010#32 = .ok .sc ∧ decode 0x00000011#32 = .ok .sci ∧
    decode 0b00000000_0000_0000_00000101_00010010#32 = .ok (.ac 5) ∧ decode 0x0000FF13#32 = .ok (.art 255) ∧
    decode 0x00000014#32 = .ok .sr ∧ decode 0x00000015#32 = .ok .sri ∧ decode 0x00000016#32 = .ok .mc ∧
    decode 0x00000017#32 = .ok .mci := by decide

theorem test_decode_schedule : decode 0x00000020#32 = .ok .ksf ∧ decode 0x00000021#32 = .ok .ksi := by decide

theorem test_decode_cipher : decode 0x00000030#32 = .ok .enc ∧ decode 0x00000031#32 = .ok .dec ∧
    decode 0b00000000_0000_0000_00011111_00110010#32 = .ok (.rnde 31) ∧ decode 0x00000733#32 = .ok (.rndd 7) := by decide

/-- V-E, illegal words; the reason is the model's own name. -/
theorem test_decode_illegal : decode 0x00000003#32 = .error .unknownOpcode ∧ decode 0x00000110#32 = .error .unusedField ∧
    decode 0x01000000#32 = .error .reservedBits ∧ decode 0x00A10108#32 = .error .unusedField ∧
    decode 0x00100012#32 = .error .unusedField ∧ decode 0xFFFFFFFF#32 = .error .unknownOpcode := by decide

/-- R117: the ranges of illegal opcodes, at their ends. -/
theorem test_illegal_ranges : [0x03#32, 0x07#32, 0x0A#32, 0x0F#32, 0x18#32, 0x1F#32, 0x22#32, 0x2F#32, 0x34#32, 0xFF#32].map decode =
    List.replicate 10 (.error .unknownOpcode) := by decide +kernel

/-- The word placed by `withFetchWord` is the one the next step completes, for the table's numbering of bits. -/
theorem test_withFetchWord : (after (step (State.reset.withFetchWord 32 0x03))).ecode = some .illegalOpcode ∧
    (after (step (State.reset.withFetchWord 32 0x10))).state = mat 0xcccccccccccccccc#64 ∧
    decodeTableWord 32 0x00A10008 = some (.lff 1 0xA#4) ∧ decodeTableWord 32 0x00000003 = none := by decide +kernel

/-! ### Registers (V-H) -/

/-- V-H1. -/
theorem test_reset_reads : readAt 0x004 Engine.reset = some (.data 0) ∧ readAt 0x008 Engine.reset = some (.data 0) ∧
    readAt 0x014 Engine.reset = some (.data 0) ∧ readAt 0x020 Engine.reset = some (.data 0) := by decide +kernel

/-- V-H2, V-H6; V-H3 under TC1. -/
theorem test_constants : readAt 0x018 Engine.reset = some (.data 0x534B4E59#32) ∧ readAt 0x00C Engine.reset = some (.data 0) ∧
    capsWord tc1 = 0x00033E40#32 := by decide +kernel

/-- V-H4. -/
theorem test_cfg_reserved_bits : readAt 0x008 (wrote 0x008 0xFFFFFFFF#32 Engine.reset) = some (.data 0x0000FF73#32) := by
  decide +kernel

/-- V-H5. -/
theorem test_key12_reserved_bits : readAt 0x0B0 (wrote 0x0B0 0xFFFFFFFF#32 Engine.reset) = some (.data 0xFFFF0000#32) := by
  decide +kernel

/-- V-H7. -/
theorem test_result_read_only : readAt 0x010 (wrote 0x010 0xF#32 (Engine.reset.setResult 0x5#4)) = some (.data 0x5#32) := by
  decide +kernel

/-- V-H8: no register is reached. -/
theorem test_bus_errors : regAt 0x024 = none ∧ regAt 0x041 = none ∧ regAt 0x3000 = none ∧
    regOfAccess { host := 0, off := 0x040, width := .w16, kind := .read } = none := by decide

/-- V-H9. -/
theorem test_state_packing : readAt 0x040 (engineWith 0 [] plain1) = some (.data 0x06034F95#32) ∧
    readAt 0x044 (engineWith 0 [] plain1) = some (.data 0x7724D19D#32) := by decide +kernel

/-- V-H11: an accepted KEY write clears `SCHED_LEN`, and so does a CFG write (R39). -/
theorem test_key_write_invalidates :
    (wrote 0x084 0xFC681238#32 { engineWith 0x10#32 keyPv1 0 with schedLen := 33 }).schedLen = 0 ∧
    (wrote 0x008 0x10#32 { engineWith 0x10#32 keyPv1 0 with schedLen := 33 }).schedLen = 0 := by decide +kernel

/-- V-H12, V-H13. -/
theorem test_status_write : statusWord (wrote 0x004 0x2#32 { Engine.reset with done := true }) = 0 ∧
    statusWord (wrote 0x004 0xFFFFFFFF#32 { Engine.reset with phase := .fault, ecode := some .notImplemented }) = 0x00000304#32 := by
  decide +kernel

/-- V-H14. -/
theorem test_dropped_command : statusWord (wrote 0x00C 0 (Engine.reset.acceptCommand 0x10#32)) = 0x00000009#32 ∧
    statusWord (after (exec .sc (around { Engine.reset.acceptCommand 0x10#32 with ovr := true }))) = 0x0000000A#32 := by
  decide +kernel

/-- V-H15, V-H16. -/
theorem test_irq : irq { Engine.reset with ie := true, done := true } = true ∧
    irq (wrote 0x004 0x2#32 { Engine.reset with ie := true, done := true }) = false ∧
    irq (wrote 0x000 0x1#32 { Engine.reset with done := true }) = true := by decide +kernel

/-- V-S3; and SRST wins over IE (R35). -/
theorem test_soft_reset : ((wrote 0x000 0x2#32 { engineWith 0x10#32 [] plain1 with
      phase := .fault, ecode := some .notImplemented, fcmd := 0x31#32 }) = engineWith 0 [] plain1) ∧
    (wrote 0x000 0x3#32 Engine.reset).ie = false := by decide +kernel

/-! ### Commands -/

/-- V-S1, V-S2. -/
theorem test_nop : after (step (busyWith 0 Engine.reset)) = { Engine.reset with done := true } ∧
    statusWord (after (step (busyWith 0 (engineWith 0x3#32 [] 0)))) = 0x00000002#32 := by decide +kernel

/-- V-M1. -/
theorem test_xors : (after (exec .xors (around { engineWith 0 [] plain1 with aux := mat 1#64 }))).state =
    mat 0x06034f957724d19c#64 := by decide +kernel

/-- V-M5: no check of CFG. -/
theorem test_xors_any_variant : (after (exec .xors (around { engineWith 0x3#32 [] 0xffffffffffffffff#64 with
    aux := mat 0xffffffffffffffff#64 }))).state = mat 0 := by decide +kernel

/-- V-M3. -/
theorem test_cpsa : (after (exec .cpsa (around (engineWith 0 [] 0xbb39dfb2429b8ac7#64)))).aux = mat 0xbb39dfb2429b8ac7#64 ∧
    (after (exec .cpsa (around (engineWith 0 [] 0xbb39dfb2429b8ac7#64)))).state = mat 0xbb39dfb2429b8ac7#64 := by decide +kernel

/-- V-L3, the order of the digits of V-L1 and V-L2 at x = 4 and 9. -/
theorem test_lff : (after (exec (.lff 1 0xA#4) (around Engine.reset))).result = 0x5#4 ∧
    (after (exec (.lff 2 0x5#4) (around Engine.reset))).result = 0xA#4 ∧
    (after (exec (.lff 1 0x4#4) (around Engine.reset))).result = 0x9#4 ∧
    (after (exec (.lff 2 0x9#4) (around Engine.reset))).result = 0x4#4 := by decide +kernel

/-- V-L6, V-L7. -/
theorem test_lff_words : (completeTc1 (.lff 3 0x5#4) (engineWith 0x1#32 [] 0)).result = 0xB#4 ∧
    statusWord (after (exec (.lff 0 0x5#4) (around Engine.reset))) = 0x00000704#32 ∧
    statusWord (after (exec (.lff 3 0x5#4) (around Engine.reset))) = 0x00000704#32 := by decide +kernel

/-- V-L4. -/
theorem test_lfi : (completeTc1 (.lfi 1 0x5#4) (engineWith 0x2#32 [] 0)).result = 0xA#4 ∧
    (completeTc1 (.lfi 2 0x1#4) (engineWith 0x2#32 [] 0)).result = 0x2#4 ∧
    (completeTc1 (.lfi 3 0xA#4) (engineWith 0x2#32 [] 0)).result = 0xD#4 := by decide +kernel

/-- V-L9. -/
theorem test_lfi_not_implemented : statusWord (after (step (busyWith 0x00510009#32 Engine.reset))) = 0x00000304#32 ∧
    (after (step (busyWith 0x00510009#32 Engine.reset))).fcmd = 0x00510009#32 := by decide +kernel

/-- V-R1. -/
theorem test_sc : (after (exec .sc (around (engineWith 0 [] plain1)))).state = mat 0xc2c01f8abb91e68e#64 := by decide +kernel

/-- V-R4. -/
theorem test_sci : (after (exec .sci (around (engineWith 0 [] plain1)))).state = mat 0x3138cf2aee6cb42b#64 := by decide +kernel

/-- V-R7 and V-R8 at the ends, V-R9, V-R10. -/
theorem test_ac : (after (exec (.ac 5) (around Engine.reset))).state = mat 0xe000300020000000#64 ∧
    (after (exec (.ac 61) (around Engine.reset))).state = mat 0x0000200020000000#64 ∧
    (after (exec (.ac 0) (around (engineWith 0 [] 0xc2c01f8abb91e68e#64)))).state = mat 0xd2c01f8a9b91e68e#64 ∧
    statusWord (after (exec (.ac 62) (around Engine.reset))) = 0x00000604#32 := by decide +kernel

/-- V-T9, AC 1 under Variant C with seed 5. -/
theorem test_ac_variant_c : (completeTc1 (.ac 1) (engineWith 0x242#32 keyC 0)).state = mat 0x6789abcdef012345#64 := by
  decide +kernel

/-- V-R11. -/
theorem test_art : (after (exec (.art 0) (around { engineWith 0x10#32 keyPv1 0xd2c01f8a9b91e68e#64 with
    sched := schedWrite [] 0 0 (mat 0xf5269826fc681238#64), schedLen := 33 }))).state = mat 0x27e687ac9b91e68e#64 := by
  decide +kernel

/-- V-T9, ART 1 under Variant C: the schedule words of V-T6 and sub-key 1. -/
theorem test_art_variant_c : (completeTc1 (.art 1) { engineWith 0x242#32 keyC 0 with
    sched := storeWords 1 0 [mat 0xc8f26318f5269826#64, mat 0x06a51da19eb93640#64, mat 0x58c8ffbd76a39d1c#64,
      mat 0x42210ddaed00c85b#64] [], schedLen := 3 }).state = mat 0xd4be8cde44556677#64 := by decide +kernel

/-- V-R12. -/
theorem test_sr : (after (exec .sr (around (engineWith 0 [] 0x0123456789abcdef#64)))).state = mat 0x01237456ab89defc#64 := by
  decide +kernel

/-- V-R14. -/
theorem test_sri : (after (exec .sri (around (engineWith 0 [] 0x0123456789abcdef#64)))).state = mat 0x01235674ab89fcde#64 := by
  decide +kernel

/-- V-R17. -/
theorem test_mc : (after (exec .mc (around (engineWith 0 [] plain1)))).state = mat 0xa0ba060338b17127#64 := by decide +kernel

/-- V-R22. -/
theorem test_mci : (after (exec .mci (around (engineWith 0 [] plain1)))).state = mat 0x4f95e92c9e08d79e#64 := by decide +kernel

/-- V-K1, one step of word 0; V-K3, one step of words 0 and 1 of PV2. -/
theorem test_schedule_step : tkStepWord tc1 .a 0 (mat 0x0123456789abcdef#64) = mat 0x9f8daecb01234567#64 ∧
    tkStep tc1 .a [mat 0x9eb93640d088da63#64, mat 0x76a39d1c8bea71e1#64] =
      [mat 0x03da86d89eb93640#64, mat 0x7212ccf576a39d1c#64] := by decide +kernel

/-- The machine after KSF with PV1's key and three rounds. -/
def ksfPv1 : Engine := after (exec .ksf (around (engineWith 0x310#32 keyPv1 0)))

/-- V-K2, V-H10: entries 1 and 3 in the window, and 0 for an entry that is not valid and a word `w >= z`. -/
theorem test_ksf : ksfPv1.schedLen = 4 ∧ readAt 0x1020 ksfPv1 = some (.data 0xC8F26318#32) ∧
    readAt 0x1024 ksfPv1 = some (.data 0xF5269826#32) ∧ readAt 0x1060 ksfPv1 = some (.data 0x88C3F162#32) ∧
    readAt 0x1080 ksfPv1 = some (.data 0) ∧ readAt 0x1008 ksfPv1 = some (.data 0) := by decide +kernel

/-- V-K9: the longest legal schedule. -/
theorem test_ksf_longest : firstFault tc1 (engineWith 0x3E10#32 keyPv1 0) checksForwardCipher = none ∧
    firstFault tc1 (engineWith 0x3F10#32 keyPv1 0) checksForwardCipher = some .badRounds := by decide +kernel

/-- V-T6 backwards: KSI of one round from entry 1 finds the tweakey words of K_C. -/
theorem test_ksi : (completeTc1 .ksi (engineWith 0x142#32
    ([0x00112233#32, 0x44556677#32, 0x8899AABB#32, 0xCCDDEEFF#32, 0xC8F26318#32, 0xF5269826#32, 0x06A51DA1#32] ++
      [0x9EB93640#32, 0x58C8FFBD#32, 0x76A39D1C#32, 0x42210DDA#32, 0xED00C85B#32, 0x50000000#32]) 0)).key = keyOf keyC := by
  decide +kernel

/-- V-K10. -/
theorem test_ksi_not_implemented : (after (exec .ksi (around (engineWith 0x11#32 keyPv1 0)))).ecode = some .notImplemented := by
  decide +kernel

/-- V-C2 with two rounds. -/
theorem test_enc : (after (exec .enc (around (engineWith 0x210#32 keyPv1 plain1)))).state = mat 0x42171f72d90e69fa#64 ∧
    (after (exec .enc (around (engineWith 0x210#32 keyPv1 plain1)))).schedLen = 3 := by decide +kernel

/-- V-T1. -/
theorem test_enc_variant_c : (completeTc1 .enc (engineWith 0x142#32 keyC plain1)).state = mat 0x7c7c6484078414e1#64 := by
  decide +kernel

/-- V-T4, the last row of V-T3 that is short: R = 2. -/
theorem test_dec : (completeTc1 .dec (engineWith 0x242#32 keyC 0x26a10783450262e3#64)).state = mat plain1 := by decide +kernel

/-- V-C8. -/
theorem test_dec_not_implemented : statusWord (after (step (busyWith 0x31#32 (engineWith 0x10#32 keyPv1 plain1)))) =
    0x00000304#32 := by decide +kernel

/-- V-C6. -/
theorem test_rnde : (after (exec (.rnde 1) (around { ksfPv1 with state := mat 0xde9327e659e1b67d#64 }))).state =
    mat 0x42171f72d90e69fa#64 := by decide +kernel

/-- V-K7. -/
theorem test_rnde_schedule_invalid : statusWord (after (step (busyWith 0x32#32 (engineWith 0x10#32 keyPv1 plain1)))) =
    0x00000904#32 := by decide +kernel

/-- V-T11. -/
theorem test_rndd : (completeTc1 (.rndd 0) { completeTc1 .ksf (engineWith 0x142#32 keyC 0) with
    state := mat 0x7c7c6484078414e1#64 }).state = mat plain1 := by decide +kernel

/-- The fault codes by number (R331), and the lowest code wins: V-F4, `CFG = 0`, DEC. -/
theorem test_fault_priority : FaultCode.code .illegalOpcode = 1 ∧ FaultCode.code .schedInvalid = 9 ∧
    (after (exec .dec (around Engine.reset))).ecode = some .notImplemented := by decide +kernel

/-- R87, R390: a write of ID or of the schedule window is ignored, and sets OVR while BUSY only. -/
theorem test_read_only_write_busy : statusWord (wrote 0x018 1#32 (Engine.reset.acceptCommand 0x10#32)) = 0x00000009#32 ∧
    statusWord (wrote 0x1000 1#32 (Engine.reset.acceptCommand 0x10#32)) = 0x00000009#32 ∧
    wrote 0x018 1#32 Engine.reset = Engine.reset := by decide +kernel

/-- R121: `CFG A, 1, 0`, `LDS`, `LDK` of 3 digits and of none, `RUN`, and `RUN` of an operand out of range. -/
theorem test_host_statements : expandStmt (.cfg 0 1 0) = some [.write 0x008 0x10#32] ∧
    expandStmt (.lds (mat plain1)) = some [.write 0x040 0x06034F95#32, .write 0x044 0x7724D19D#32] ∧
    expandStmt (.ldk [1#4, 2#4, 3#4]) = some [.write 0x080 0x12300000#32] ∧ expandStmt (.ldk []) = some [] ∧
    expandProgram [.run .enc, .check] = some [.write 0x00C 0x30#32, .poll, .check] ∧
    expandProgram [.srst, .run (.ac 256)] = none := by decide +kernel

/-- How a program stands after its turns. -/
def standing : Host.Outcome (HostRun × State) Fault Refusal → Option HostRun
  | .next c => some c.1
  | .fault _ => none
  | .refused _ => none

/-- R121: WAIT reads STATUS again while the engine is BUSY, and ends once it is not. -/
theorem test_wait : standing (runProgram 0 [.host, .host, .host] (.todo [.write 0x00C 0#32, .poll]) State.reset) =
      some (.todo [.poll]) ∧
    standing (runProgram 0 [.host, .host, .machine, .host] (.todo [.write 0x00C 0#32, .poll]) State.reset) =
      some (.todo []) := by decide +kernel

/-- R121: CHECK fails after an illegal word, and not after a NOP; a read of ID that states another value fails. -/
theorem test_check : standing (runProgram 0 [.host, .machine, .host] (.todo [.write 0x00C 3#32, .check]) State.reset) =
      some .failed ∧
    standing (runProgram 0 [.host, .machine, .host] (.todo [.write 0x00C 0#32, .check]) State.reset) = some (.todo []) ∧
    standing (runProgram 0 [.host] (.todo [.readIs 0x018 0#32]) State.reset) = some .failed := by decide +kernel

/-- R385: RNDE checks z, so CFG counts, and a soft reset clears its mark but not STATE's. -/
theorem test_cfg_mark : Safety.readsWritten (.rnde 0) (wrote 0x044 0#32 (wrote 0x040 0#32 Engine.reset)) = false ∧
    Safety.readsWritten (.rnde 0) (wrote 0x008 0x10#32 (wrote 0x044 0#32 (wrote 0x040 0#32 Engine.reset))) = true ∧
    (wrote 0x000 0x2#32 (wrote 0x008 0x10#32 (wrote 0x040 0#32 Engine.reset))).written =
      { Written.nothing with state0 := true } := by decide +kernel

/-! ### Witnesses: for each obligation with hypotheses, what meets them -/

/-- Variant A, z = 1, one round, a schedule of two entries. -/
def engineA : Engine := { engineWith 0x110#32 keyPv1 plain1 with schedLen := 2 }

/-- Variant A, z = 3, `ROUNDS = 62`, a schedule of 63 entries: the largest legal values. -/
def engineA3 : Engine := { engineWith 0x3E30#32 keyPv1 plain1 with schedLen := 63 }

/-- Variant B, z = 4. -/
def engineB : Engine := { engineWith 0x141#32 keyC plain1 with schedLen := 2 }

/-- Variant C, z = 4, one round, K_C, a schedule of two entries. One round is legal under every `R_MAX_C`. -/
def engineC : Engine := { engineWith 0x142#32 keyC plain1 with schedLen := 2 }

/-- A command runs when its checks pass one by one. -/
theorem runs_of {i : Instr} {e : Engine} (h2 : usesVariant i = true → e.cfg.variant ≠ 3)
    (h3 : onlyVariantC i = true → e.cfg.variant = 2) (h4 : usesWordCount i = true → wordCountLegal e.cfg)
    (h5 : usesRoundCount i = true → 1 ≤ effectiveRounds Config.params e.cfg ∧
      effectiveRounds Config.params e.cfg ≤ roundLimit Config.params e.cfg)
    (h6 : ∀ r, roundIndexOf i = some r → r < roundLimit Config.params e.cfg)
    (h7 : ∀ w, lfsrWordOf i = some w → 1 ≤ w ∧ w ≤ if e.cfg.variant = 0 then 2 else 3)
    (h8 : usesKey i = true → e.cfg.variant = 2 → keyRowLegal e.key)
    (h9 : ∀ r, scheduleEntryOf i = some r → r < e.schedLen.toNat) : runs i e := by
  intro c hc
  cases c with
  | illegalOpcode => exact hc
  | badVariant => exact h2 hc.1 hc.2
  | notImplemented =>
    have h := h3 hc.1
    rcases hc.2 with h' | h' <;> exact absurd (h.symm.trans h') (by decide)
  | badTkCount => exact hc.2 (h4 hc.1)
  | badRounds => exact hc.2 (h5 hc.1)
  | badRoundIndex => obtain ⟨r, hr, hle⟩ := hc; exact absurd (h6 r hr) (by omega)
  | badLfsrWord => obtain ⟨w, hw, hn⟩ := hc; exact hn (h7 w hw)
  | badKeyFormat => exact hc.2.2 (h8 hc.1 hc.2.1)
  | schedInvalid => obtain ⟨r, hr, hle⟩ := hc; exact absurd (h9 r hr) (by omega)

theorem engineA_legal : wordCountLegal engineA.cfg := .inl (by decide)
theorem engineA3_legal : wordCountLegal engineA3.cfg := .inl (by decide)
theorem engineB_legal : wordCountLegal engineB.cfg := .inr (.inl (by decide))
theorem engineC_legal : wordCountLegal engineC.cfg := .inr (.inr (by decide))
theorem engineC_key : keyRowLegal engineC.key := by unfold keyRowLegal; decide +kernel
theorem engineC_limit : 0 < roundLimit Config.params engineC.cfg := Config.params.rMaxC_range.1

/-- LFF at every word that has an LFSR, under A, B and C. -/
theorem witness_LffResult : (∀ w ∈ [1, 2], runs (.lff w 0xF#4) engineA) ∧ (∀ w ∈ [1, 3], runs (.lff w 0#4) engineB) ∧
    (∀ w ∈ [1, 2, 3], runs (.lff w 0xA#4) engineC) := by
  refine ⟨?_, ?_, ?_⟩ <;> intro w hw <;>
    refine runs_of (fun _ => by decide) (fun h => by cases h) (fun h => by cases h) (fun h => by cases h)
      (fun r h => by cases h) (fun w' h => ?_) (fun h => by cases h) (fun r h => by cases h) <;>
    cases h <;> revert w <;> decide

/-- LFI at words 1, 2 and 3 under C. -/
theorem witness_LfiResult : ∀ w ∈ [1, 2, 3], runs (.lfi w 0x5#4) engineC := by
  intro w hw
  refine runs_of (fun _ => by decide) (fun _ => by decide) (fun h => by cases h) (fun h => by cases h)
    (fun r h => by cases h) (fun w' h => ?_) (fun h => by cases h) (fun r h => by cases h)
  cases h; revert w; decide

/-- AC at the first and last round index under A. -/
theorem witness_AcResultSimpleVariants : engineA.cfg.variant ≠ 2 ∧ ∀ r ∈ [0, 61], runs (.ac r) engineA := by
  refine ⟨by decide, fun r hr => ?_⟩
  refine runs_of (fun _ => by decide) (fun h => by cases h) (fun h => by cases h) (fun h => by cases h)
    (fun r' h => ?_) (fun w h => by cases h) (fun _ h => absurd h (by decide)) (fun r h => by cases h)
  cases h
  have : r < 62 := by revert r; decide
  exact this

/-- AC 0 under C. -/
theorem witness_AcResultVariantC : engineC.cfg.variant = 2 ∧ runs (.ac 0) engineC := by
  refine ⟨by decide, ?_⟩
  refine runs_of (fun _ => by decide) (fun h => by cases h) (fun h => by cases h) (fun h => by cases h)
    (fun r h => ?_) (fun w h => by cases h) (fun _ _ => engineC_key) (fun r h => by cases h)
  cases h; exact engineC_limit

/-- ART at the first and last entry under A, and under B with four words. -/
theorem witness_ArtResultSimpleVariants : (engineA3.cfg.variant ≠ 2 ∧ ∀ r ∈ [0, 61], runs (.art r) engineA3) ∧
    engineB.cfg.variant ≠ 2 ∧ runs (.art 1) engineB := by
  refine ⟨⟨by decide, fun r hr => ?_⟩, by decide, ?_⟩
  · refine runs_of (fun _ => by decide) (fun h => by cases h) (fun _ => engineA3_legal) (fun h => by cases h)
      (fun r' h => ?_) (fun w h => by cases h) (fun _ h => absurd h (by decide)) (fun r' h => ?_)
    · cases h
      have : r < 62 := by revert r; decide
      exact this
    · cases h; revert r; decide
  · refine runs_of (fun _ => by decide) (fun h => by cases h) (fun _ => engineB_legal) (fun h => by cases h)
      (fun r' h => ?_) (fun w h => by cases h) (fun _ h => absurd h (by decide)) (fun r' h => ?_)
    · cases h; exact (by decide : 1 < 62)
    · cases h; decide

/-- The commands with a round index run under C at index 0. -/
theorem runs_indexed_C (i : Instr) (h : i = .art 0 ∨ i = .rnde 0 ∨ i = .rndd 0) : runs i engineC := by
  rcases h with rfl | rfl | rfl <;>
    refine runs_of (fun _ => by decide) (fun _ => by decide) (fun _ => engineC_legal) (fun h => by cases h)
      (fun r h => ?_) (fun w h => by cases h) (fun _ _ => engineC_key) (fun r h => ?_) <;>
    cases h <;> first | exact engineC_limit | decide

/-- ART 0 under C. -/
theorem witness_ArtResultVariantC : engineC.cfg.variant = 2 ∧ runs (.art 0) engineC :=
  ⟨by decide, runs_indexed_C _ (.inl rfl)⟩

/-- The commands that build a schedule run under C with one round. -/
theorem runs_building_C (i : Instr) (h : i = .ksf ∨ i = .ksi ∨ i = .enc ∨ i = .dec) : runs i engineC := by
  rcases h with rfl | rfl | rfl | rfl <;>
    exact runs_of (fun _ => by decide) (fun _ => by decide) (fun _ => engineC_legal)
      (fun _ => ⟨Nat.le_refl 1, engineC_limit⟩) (fun r h => by cases h) (fun w h => by cases h) (fun _ _ => engineC_key)
      (fun r h => by cases h)

/-- KSF and ENC run under A with the most rounds. -/
theorem runs_building_A (i : Instr) (h : i = .ksf ∨ i = .enc) : runs i engineA3 := by
  rcases h with rfl | rfl <;>
    exact runs_of (fun _ => by decide) (fun h => by cases h) (fun _ => engineA3_legal)
      (fun _ => (by decide : 1 ≤ 62 ∧ 62 ≤ 62)) (fun r h => by cases h) (fun w h => by cases h)
      (fun _ h => absurd h (by decide)) (fun r h => by cases h)

theorem witness_KsfResult : runs .ksf engineA3 ∧ runs .ksf engineC :=
  ⟨runs_building_A _ (.inl rfl), runs_building_C _ (.inl rfl)⟩

theorem witness_KsiResult : runs .ksi engineC := runs_building_C _ (.inr (.inl rfl))

theorem witness_EncIsKsfThenRounds : runs .enc engineA3 ∧ runs .enc engineC :=
  ⟨runs_building_A _ (.inr rfl), runs_building_C _ (.inr (.inr (.inl rfl)))⟩

theorem witness_DecIsKsfThenInverseRounds : runs .dec engineC := runs_building_C _ (.inr (.inr (.inr rfl)))

theorem witness_DecUndoesEnc : runs .dec engineC := witness_DecIsKsfThenInverseRounds

/-- RNDE at the last entry of the schedule, under A, and under C. -/
theorem witness_RndeIsFiveLayers : runs (.rnde 1) engineA ∧ runs (.rnde 0) engineC := by
  refine ⟨?_, runs_indexed_C _ (.inr (.inl rfl))⟩
  refine runs_of (fun _ => by decide) (fun h => by cases h) (fun _ => engineA_legal) (fun h => by cases h)
    (fun r h => ?_) (fun w h => by cases h) (fun _ h => absurd h (by decide)) (fun r h => ?_)
  · cases h; exact (by decide : 1 < 62)
  · cases h; decide

theorem witness_RnddIsFiveInverseLayers : runs (.rndd 0) engineC := runs_indexed_C _ (.inr (.inr rfl))

theorem witness_RoundAndInverseRoundCancel : runs (.rndd 0) engineC := witness_RnddIsFiveInverseLayers

theorem witness_XorCommandsAreInvolutions : runs (.ac 0) engineC ∧ runs (.art 0) engineC :=
  ⟨witness_AcResultVariantC.2, witness_ArtResultVariantC.2⟩

theorem witness_CommandCompletesWithoutCause : runs .enc engineA3 := witness_EncIsKsfThenRounds.1

/-- KSI after KSF: the key whose tweakey region is entry 1 and whose other cells are K_C's. -/
theorem witness_KsiUndoesKsf : runs .ksi (around engineC).engine ∧ ∀ t, exec .ksf (around engineC) = .next t →
    ∃ key' : KeyCells,
      (∀ w n, w < 4 → n < 16 → cellAt key' (32 + 16 * w + n) =
        cellAt (schedRead t.engine.sched (effectiveRounds Config.params (around engineC).engine.cfg) w) n) ∧
      ∀ n : Fin 100, n.val < 32 ∨ 96 ≤ n.val → key'[n] = (around engineC).engine.key[n] := by
  refine ⟨witness_KsiResult, fun t _ => ?_⟩
  refine ⟨Vector.ofFn fun n => if 32 ≤ n.val ∧ n.val < 96 then
    cellAt (schedRead t.engine.sched (effectiveRounds Config.params (around engineC).engine.cfg) ((n.val - 32) / 16))
      ((n.val - 32) % 16) else engineC.key[n], ?_, ?_⟩
  · intro w n hw hn
    have h1 : 32 + 16 * w + n < 100 := by omega
    simp only [cellAt, h1, dite_true, Vector.getElem_ofFn]
    rw [if_pos (by omega), show (32 + 16 * w + n - 32) / 16 = w by omega, show (32 + 16 * w + n - 32) % 16 = n by omega]
  · intro n hn
    simp only [Fin.getElem_fin, Vector.getElem_ofFn]
    rw [if_neg (by omega)]; rfl

theorem witness_ScheduleStepIsLinear : 0 < 1 ∧ 1 < 16 ∧ 0 < 15 ∧ 15 < 16 := by decide

theorem witness_DecodeEncodeRoundTrip : Instr.wellFormed (.rnde 255) = true ∧ Instr.wellFormed (.lff 15 0xF#4) = true := by
  decide

theorem witness_EncodeDecodeRoundTrip : decode 0x00FF0008#32 = .ok (.lff 15 0xF#4) ∧ decode 0x0000FF33#32 = .ok (.rndd 255) := by
  decide

/-- A word of the map, one outside it, and a row that covers the first. -/
theorem witness_OpcodeMapDecides : decode 0x0000FF12#32 = .ok (.ac 255) ∧ (.ac 0) ∈ opcodeMap ∧
    0x0000FF12#32 &&& (opcodeRow (.ac 0)).maskBits = (opcodeRow (.ac 0)).matchBits := by decide

theorem witness_StepRunsDecodedCommand : (busyWith 0x10#32 engineA).engine.phase = .busy ∧
    decode (busyWith 0x10#32 engineA).engine.cmd = .ok .sc ∧ (busyWith 0x10#32 engineA).pending = [] ∧
    ({ busyWith 0x10#32 engineA with pending := [.engineTurn, .hardReset] } : State).pending = .engineTurn :: [.hardReset] := by
  decide

theorem witness_IllegalWordFaults : (busyWith 0x3#32 engineA).engine.phase = .busy ∧
    (∀ i, decode (busyWith 0x3#32 engineA).engine.cmd ≠ .ok i) ∧ (busyWith 0x3#32 engineA).pending = [] ∧
    ({ busyWith 0x3#32 engineA with pending := [.engineTurn, .hardReset] } : State).pending = .engineTurn :: [.hardReset] :=
  ⟨rfl, fun _ h => (by cases h), rfl, rfl⟩

theorem witness_EngineWaitsUnlessBusy : State.reset.engine.phase ≠ .busy ∧ State.reset.pending = [] ∧
    ({ State.reset with pending := [.engineTurn] } : State).pending = .engineTurn :: [] := by decide

/-- ENC right after reset: `CFG.Z = 0`, and no lower code applies. -/
theorem witness_LowestCauseIsReported : cause Config.params .enc Engine.reset .badTkCount ∧
    ∀ d, cause Config.params .enc Engine.reset d → faultNumber .badTkCount ≤ faultNumber d := by
  refine ⟨⟨rfl, ?_⟩, fun d hd => ?_⟩
  · rintro (h | h | h) <;> revert h <;> decide
  · cases d with
    | illegalOpcode => exact absurd hd id
    | badVariant => exact absurd hd.2 (by decide)
    | notImplemented => exact absurd hd.1 (by decide)
    | _ => decide

/-- The same word latched in the engine right after reset, with nothing pending or the turn ahead of a reset; and a word that is
no command. -/
theorem witness_LowestCauseAtCompletion : (busyWith 0x30#32 Engine.reset).engine.phase = .busy ∧
    (busyWith 0x30#32 Engine.reset).pending = [] ∧
    ({ busyWith 0x30#32 Engine.reset with pending := [.engineTurn, .hardReset] } : State).pending = .engineTurn :: [.hardReset] ∧
    wordCause Config.params 0x30#32 (busyWith 0x30#32 Engine.reset).engine .badTkCount ∧
    (∀ d, wordCause Config.params 0x30#32 (busyWith 0x30#32 Engine.reset).engine d →
      faultNumber .badTkCount ≤ faultNumber d) ∧
    wordCause Config.params 0x3#32 (busyWith 0x3#32 Engine.reset).engine .illegalOpcode := by
  refine ⟨rfl, rfl, rfl, .inr ⟨.enc, rfl, witness_LowestCauseIsReported.1⟩, fun d hd => ?_, .inl ⟨rfl, fun _ h => (by cases h)⟩⟩
  rcases hd with hd | ⟨i, hi, hc⟩
  · exact absurd rfl (hd.2 .enc)
  · cases hi; exact witness_LowestCauseIsReported.2 d hc

theorem witness_VariantBExtendsVariantA : (around engineA3).engine.cfg.variant = 0 ∧
    (around engineA3).engine.cfg.z.toNat ≤ 3 ∧ ∀ x, Instr.lff 2 x ≠ .lff 3 x := by
  refine ⟨by decide, by decide, fun x h => by cases h⟩

/-- Two keys that differ in the last cell, which z = 3 does not use. -/
theorem witness_UnusedKeyCellsHaveNoEffect : (around engineA3).engine.cfg.variant = 0 ∧
    ∃ key' : KeyCells, key' ≠ engineA3.key ∧ sameUsedKey (around engineA3).engine.cfg.z.toNat engineA3.key key' := by
  refine ⟨by decide, engineA3.key.set 99 0xF#4, by decide +kernel, fun n h hn => ?_⟩
  have h3 : (around engineA3).engine.cfg.z.toNat = 3 := by decide
  rw [h3] at hn
  exact (Vector.getElem_set_ne _ _ (by omega)).symm

/-- Each reason for a bus error, at the ends of the reserved ranges. -/
theorem witness_BusErrorChangesNothing : (AccessWidth.w16 ≠ .w32 ∧ AccessWidth.w8 ≠ .w32 ∧ AccessWidth.w64 ≠ .w32) ∧
    0x041 % 4 ≠ 0 ∧ ∀ off ∈ [0x024, 0x03C, 0x050, 0x07C, 0x0B4, 0xFFC, 0x3000, 0x3FFC], reservedOffset off := by
  refine ⟨by decide, by decide, ?_⟩
  simp [reservedOffset]

theorem witness_OutsideWindowIsBusError : (withRead 0 0x4000 [] State.reset).pending =
    .access { host := 0, off := 0x4000, width := .w32, kind := .read } :: [] ∧ 0x4000 ≤ 0x4000 := ⟨rfl, Nat.le_refl _⟩

theorem witness_ReadsChangeNothing : (withRead 0 0x040 [] (busyWith 0 engineA)).pending =
    .access { host := 0, off := 0x040, width := .w32, kind := .read } :: [] := rfl

theorem witness_DataRegistersReadContents : (around engineA).engine.phase ≠ .busy := by decide

/-- A valid entry at a word `z` leaves in use, a word it does not, and an entry that is not valid. -/
theorem witness_ScheduleWindowReads : (around engineA).engine.phase ≠ .busy ∧ 1 < engineA.schedLen.toNat ∧
    (0 < engineA.cfg.z.toNat ∧ engineA.cfg.z.toNat ≤ 1 ∧ engineA.cfg.variant = 0) ∧ engineA.schedLen.toNat ≤ 255 := by decide

theorem witness_BusyReadsAreFree : (busyWith 0 engineA).engine.phase = .busy ∧
    ∀ off ∈ [0x010, 0x014, 0x040, 0x04C, 0x080, 0x0B0, 0x1000, 0x2FFC], off % 4 = 0 ∧
      (off = 0x010 ∨ off = 0x014 ∨ (0x040 ≤ off ∧ off ≤ 0x04C) ∨ (0x080 ≤ off ∧ off ≤ 0x0B0) ∨
        (0x1000 ≤ off ∧ off < 0x3000)) := by decide

/-- The offsets only IDLE accepts, at the ends of their ranges. -/
theorem witness_WritesRefusedByPhase : (∀ off ∈ [0x008, 0x00C, 0x040, 0x04C, 0x080, 0x0B0], idleOnlyOffset off) ∧
    (busyWith 0 engineA).engine.phase = .busy ∧ ({ engineA with phase := .fault } : Engine).phase = .fault :=
  ⟨by simp [idleOnlyOffset], rfl, rfl⟩

/-- The read-only offsets at the ends of their ranges; none of them is one that IDLE accepts. -/
theorem witness_ReadOnlyRegistersIgnoreWrites :
    (∀ off ∈ [0x010, 0x014, 0x018, 0x01C, 0x020, 0x1000, 0x2FFC], readOnlyOffset off) ∧
    (busyWith 0 engineA).engine.phase = .busy ∧ ({ engineA with phase := .fault } : Engine).phase ≠ .busy ∧
    ∀ off, ¬ (idleOnlyOffset off ∧ readOnlyOffset off) := by
  refine ⟨by simp [readOnlyOffset], rfl, by decide, fun off h => ?_⟩
  simp only [idleOnlyOffset, readOnlyOffset] at h
  omega

theorem witness_WritesAcceptedInIdle : (around engineA).engine.phase = .idle := rfl

theorem witness_InterruptLevelAndEnable : (0x1#32).getLsbD 1 = false := by decide

theorem witness_SoftResetEffect : (0x3#32).getLsbD 1 = true ∧ (around engineA).engine.phase ≠ .busy ∧
    (busyWith 0 engineA).engine.phase = .busy := by decide

theorem witness_HardResetEffect : ({ busyWith 0 engineA with pending := [.hardReset] } : State).pending = .hardReset :: [] := rfl

/-- The machine at reset meets the invariant, and it steps. -/
theorem witness_StepKeepsInvariant : engineInv Config.params State.reset.engine ∧ step State.reset = .next State.reset :=
  ⟨⟨fun h => (by cases h), rfl, fun _ => rfl, rfl, fun h => absurd rfl h⟩, rfl⟩

/-- An access that is no reset: a write of STATUS, and one of CTRL with bit 1 clear. -/
theorem noReset_writes : noReset (.access { host := 0, off := 0x004, width := .w32, kind := .write 0xFFFFFFFF#32 }) ∧
    noReset (.access { host := 1, off := 0x000, width := .w32, kind := .write 0x1#32 }) := by
  refine ⟨⟨by simp, fun a v ha _ ho _ => ?_⟩, ⟨by simp, fun a v ha _ _ hk => ?_⟩⟩
  · cases ha; exact absurd ho (by decide)
  · cases ha; cases hk; decide

theorem witness_FaultIsSticky : (around { engineA with phase := .fault }).engine.phase = .fault ∧
    ∀ ev rest, (withWrite 0 0x004 0xFFFFFFFF#32 [] (around { engineA with phase := .fault })).pending = ev :: rest → noReset ev := by
  refine ⟨rfl, fun ev rest h => ?_⟩
  cases h; exact noReset_writes.1

theorem witness_BusyFreezesCommandAndData : (withWrite 0 0x004 0xFFFFFFFF#32 [] (busyWith 0x30#32 engineA)).engine.phase = .busy ∧
    noReset (.access { host := 0, off := 0x004, width := .w32, kind := .write 0xFFFFFFFF#32 }) := ⟨rfl, noReset_writes.1⟩

/-- A BUSY engine with a write of STATUS pending, and a word of each kind. -/
theorem witness_CommandEventuallyCompletes : (withWrite 0 0x004 0xFFFFFFFF#32 [] (busyWith 0x30#32 engineA)).engine.phase = .busy ∧
    (∀ ev ∈ (withWrite 0 0x004 0xFFFFFFFF#32 [] (busyWith 0x30#32 engineA)).pending, noReset ev) ∧
    decode (withWrite 0 0x004 0xFFFFFFFF#32 [] (busyWith 0x30#32 engineA)).engine.cmd = .ok .enc ∧
    ∀ i, decode (withWrite 0 0x004 0xFFFFFFFF#32 [] (busyWith 0x3#32 engineA)).engine.cmd ≠ .ok i := by
  refine ⟨rfl, fun ev h => ?_, rfl, fun _ h => (by cases h)⟩
  rw [List.mem_singleton.mp h]; exact noReset_writes.1

/-- SC with STATE written and nothing else: another engine holds other AUX, KEY and RESULT. -/
theorem witness_UnwrittenRegistersHaveNoEffect :
    let e : Engine := { Engine.reset with written := { Written.nothing with state0 := true, state1 := true } }
    let e' : Engine := { e with aux := mat plain1, key := keyOf keyC, result := 0xF#4 }
    readsWritten .sc (around e).engine = true ∧ e ≠ e' ∧ sameWritten (around e).engine e' := by
  refine ⟨rfl, by decide +kernel, rfl, fun _ _ _ => rfl, fun n _ h => ?_, fun n hn h => ?_, fun h => (by cases h)⟩
  · split at h <;> cases h
  · exact absurd (h.symm.trans (Vector.getElem_replicate (by omega))) (by decide)

theorem witness_HostProgramsRun : Instr.wellFormed (.ac 256) = false ∧ Instr.wellFormed (.ac 255) = true ∧
    (around engineA).engine.phase = .idle ∧ (around engineA).pending = [] ∧
    (around { engineA with phase := .fault }).engine.phase = .fault := by decide

end Sys2Proof.Tests
end

/-! ## The engine's invariant is kept by every step (R40, R46, R47, R51, R391) -/

namespace Sys2Proof.Proofs

open Sys2Proof Sys2Proof.Machine Sys2Proof.Safety Sys2Proof.Claims Sys2Proof.Laws

/-! ### What CFG gives -/

section

variable {e e' : Engine}

theorem variant_congr (h : e'.cfg = e.cfg) : e'.variant = e.variant := congrArg (fun c : Cfg => variantOf c.variant) h

theorem z_congr (h : e'.cfg = e.cfg) : e'.z = e.z := congrArg (fun c : Cfg => c.z.toNat) h

theorem rEff_congr (p : Params) (h : e'.cfg = e.cfg) : rEff p e' = rEff p e := by
  rw [rEff, rEff, h, variant_congr h, z_congr h]

end

/-! ### The schedule of an engine -/

/-- The entry that `scheduleFresh` speaks of is the one the laws of the schedule speak of. -/
theorem scheduleEntry_eq_stepTimes (p : Params) (e : Engine) (n : Nat) :
    scheduleEntry p e n = stepTimes (tkStep p e.variant) n (tkWords e.variant e.z e.key) := by
  induction n with
  | zero => rfl
  | succ n ih => rw [scheduleEntry, ih, stepTimes_succ']

theorem scheduleEntry_congr {e e' : Engine} (p : Params) (hc : e'.cfg = e.cfg) (hk : e'.key = e.key) (n : Nat) :
    scheduleEntry p e' n = scheduleEntry p e n := by
  simp only [scheduleEntry_eq_stepTimes, variant_congr hc, z_congr hc, hk]

/-- Freshness of the schedule looks at CFG, KEY, `SCHED_LEN` and the schedule memory only. -/
theorem scheduleFresh_congr {p : Params} {e e' : Engine} (h : scheduleFresh p e) (hc : e'.cfg = e.cfg)
    (hk : e'.key = e.key) (hl : e'.schedLen = e.schedLen) (hs : e'.sched = e.sched) : scheduleFresh p e' := by
  simp only [scheduleFresh, scheduleLegal, scheduleEntry_congr p hc hk, variant_congr hc, z_congr hc, rEff_congr p hc, hk,
    hl, hs] at h ⊢
  exact h

/-- With no valid entry there is nothing to be fresh. -/
theorem scheduleFresh_of_schedLen_zero {p : Params} {e : Engine} (h : e.schedLen = 0) : scheduleFresh p e :=
  fun hne => absurd h hne

/-- A legal configuration has at most four tweakey words. -/
theorem z_le_four_of_zLegal {v : Variant} {z : Nat} (h : zLegal v z = true) : z ≤ 4 := by
  cases v <;> simp [zLegal] at h <;> omega

/-- A legal round count fits the 8 bits of a round index. -/
theorem rMax_le_255 (p : Params) (v : Variant) : rMax p v ≤ 255 := by
  have hc := p.rMaxC_range.2
  cases v <;> simp [rMax, rMaxAB, hc]

/-- The checks of KSF and ENC pass exactly in a legal configuration (R333). -/
theorem scheduleLegal_of_checks {p : Params} {e : Engine} (h : firstFault p e checksForwardCipher = none) :
    scheduleLegal p e := by
  rw [firstFault_eq_none_iff] at h
  simp only [checksForwardCipher, List.forall_mem_cons, checkPasses, decide_eq_true_eq, Bool.and_eq_true, Bool.or_eq_true,
    List.not_mem_nil, false_implies, implies_true, and_true] at h
  obtain ⟨hv, hz, ⟨hr1, hr2⟩, hk⟩ := h
  exact ⟨hv, hz, hr1, hr2, fun hC => hk.resolve_left (not_not_intro hC)⟩

/-- The checks of KSI and DEC are those of KSF and ENC and Variant C (R333). -/
theorem variant_and_scheduleLegal_of_checks {p : Params} {e : Engine} (h : firstFault p e checksInverseCipher = none) :
    e.variant = .c ∧ scheduleLegal p e := by
  rw [firstFault_eq_none_iff] at h
  refine ⟨by simpa [checkPasses] using h .onlyC (by simp [checksInverseCipher]), ?_⟩
  exact scheduleLegal_of_checks (firstFault_eq_none_iff.mpr fun k hk => h k (by
    simp only [checksForwardCipher, checksInverseCipher, List.mem_cons] at hk ⊢; tauto))

/-- Storing the schedule of KEY and CFG in a legal configuration makes it fresh and keeps the memory canonical (R248, R250). -/
theorem buildSchedule_fresh {p : Params} {e : Engine} (hl : scheduleLegal p e) (hm : memoryCanonical e) :
    memoryCanonical (buildSchedule p e) ∧ scheduleFresh p (buildSchedule p e) := by
  obtain ⟨-, hz, -, hr, -⟩ := id hl
  have hz4 : (tkWords e.variant e.z e.key).length ≤ 4 := by rw [length_tkWords]; exact z_le_four_of_zLegal hz
  have hr255 : rEff p e ≤ 255 := hr.trans (rMax_le_255 p e.variant)
  refine ⟨storeEntries_keeps_wf hm (by rw [length_scheduleForward]; omega) fun ts hts => ?_, fun _ => ⟨hl, ?_, ?_⟩⟩
  · rw [length_of_mem_scheduleForward hts]; exact hz4
  · show (BitVec.ofNat 9 (scheduleForward p e.variant (rEff p e) _).length).toNat = rEff p e + 1
    rw [length_scheduleForward, BitVec.toNat_ofNat]; omega
  · intro n w hn hw
    rw [scheduleEntry_congr (e := e) (e' := buildSchedule p e) p rfl rfl, scheduleEntry_eq_stepTimes]
    exact schedRead_stored p e.variant (rEff p e) _ e.sched hn hz4 (by rw [length_tkWords]; exact hw)

/-! ### KSI stores the schedule of the KEY it leaves (R251) -/

/-- The four tweakey words of Variant C are read back from a KEY they were written to. -/
theorem tkWords_withTkWordsFrom (ts : List Mat4) (key : KeyCells) (h : ts.length = 4) :
    tkWords .c 4 (withTkWordsFrom 0 ts key) = ts := by
  apply List.ext_getElem (by rw [length_tkWords, h])
  intro w hw hw'
  rw [length_tkWords] at hw
  apply cells_ext
  intro n hn
  have hread := cellAt_withTkWordsFrom_same (w := 0) ts key (by omega) hn hw'
  simp only [tkWords, List.getElem_map, List.getElem_range, cellAt_keyMat _ _ hn]
  simpa [tkOffset, Variant.isAB] using hread

/-- The words of KEY that KSI leaves: `R_eff` inverse steps from the tweakey region (R251). -/
def ksiKey (p : Params) (e : Engine) : KeyCells :=
  withTkWordsFrom 0 (stepTimes (tkInvStep p) (rEff p e) (tkWords .c 4 e.key)) e.key

theorem tkWords_ksiKey (p : Params) (e : Engine) :
    tkWords .c 4 (ksiKey p e) = stepTimes (tkInvStep p) (rEff p e) (tkWords .c 4 e.key) :=
  tkWords_withTkWordsFrom _ _ (by rw [length_stepTimes (length_tkInvStep p), length_tkWords])

/-- KSI leaves the seed row, so KEY stays well formed (R49, R246). -/
theorem keyWellFormed_ksiKey (p : Params) (e : Engine) : keyWellFormed (ksiKey p e) = keyWellFormed e.key :=
  keyWellFormed_congr fun _ hlo hhi => cellAt_withTkWordsFrom_outside _ _
    (by rw [length_stepTimes (length_tkInvStep p), length_tkWords]) hhi (.inr hlo)

theorem headD_scheduleForward (p : Params) (v : Variant) (r : Nat) (ts : List Mat4) :
    (scheduleForward p v r ts).headD [] = ts := by cases r <;> rfl

/-- KSI is the forward schedule of the KEY it leaves (R245, R251). -/
theorem ksiEffect_eq_buildSchedule {p : Params} {e : Engine} (hv : e.variant = .c) (hz : e.z = 4) :
    ksiEffect p e = buildSchedule p (e.setTweakeyRegion (ksiKey p e)) := by
  have hentries : scheduleBackward p (rEff p e) (tkWords .c 4 e.key) [] =
      scheduleForward p .c (rEff p e) (tkWords .c 4 (ksiKey p e)) := by
    rw [scheduleBackward_nil, tkWords_ksiKey]
  have hv' : (e.setTweakeyRegion (ksiKey p e)).variant = .c := hv
  have hz' : (e.setTweakeyRegion (ksiKey p e)).z = 4 := hz
  simp only [ksiEffect, buildSchedule, hentries, headD_scheduleForward, hv', hz', setTweakeyRegion_key]
  rw [tkWords_ksiKey]
  rfl

/-! ### Commands keep the schedule fresh and the memory canonical -/

/-- A command that neither stores a schedule nor faults leaves what freshness looks at. -/
theorem commandEffect_keeps_schedule {i : Instr} (h : storesSchedule i = false) {p : Params} {e : Engine}
    (hm : memoryCanonical e) (hf : scheduleFresh p e) :
    memoryCanonical (commandEffect i p e) ∧ scheduleFresh p (commandEffect i p e) := by
  obtain ⟨hs, hl⟩ := commandEffect_sched h p e
  have hi : i ≠ .ksi := by rintro rfl; cases h
  exact ⟨by rwa [memoryCanonical, hs], scheduleFresh_congr hf (commandEffect_cfg i p e) (commandEffect_key hi p e) hl hs⟩

/-- A command whose checks pass leaves a canonical memory and a fresh schedule. -/
theorem commandEffect_fresh {i : Instr} {p : Params} {e : Engine} (h : firstFault p e (commandChecks i) = none)
    (hm : memoryCanonical e) (hf : scheduleFresh p e) :
    memoryCanonical (commandEffect i p e) ∧ scheduleFresh p (commandEffect i p e) := by
  cases hi : storesSchedule i with
  | false => exact commandEffect_keeps_schedule hi hm hf
  | true =>
    cases i
    case ksf => exact buildSchedule_fresh (scheduleLegal_of_checks h) hm
    case enc =>
      obtain ⟨hm', hf'⟩ := buildSchedule_fresh (scheduleLegal_of_checks h) hm
      exact ⟨hm', scheduleFresh_congr hf' rfl rfl rfl rfl⟩
    case dec =>
      obtain ⟨hm', hf'⟩ := buildSchedule_fresh (variant_and_scheduleLegal_of_checks h).2 hm
      exact ⟨hm', scheduleFresh_congr hf' rfl rfl rfl rfl⟩
    case ksi =>
      obtain ⟨hv, hl⟩ := variant_and_scheduleLegal_of_checks h
      obtain ⟨hres, hz, hr1, hr2, hk⟩ := hl
      have hz4 : e.z = 4 := by simpa [hv, zLegal] using hz
      rw [commandEffect, ksiEffect_eq_buildSchedule hv hz4]
      exact buildSchedule_fresh ⟨hres, hz, hr1, hr2, fun hC => (keyWellFormed_ksiKey p e).trans (hk hC)⟩ hm
    all_goals cases hi

/-! ### The invariant through the operations -/

section

variable {p : Params} {e : Engine}

/-- A running engine has DONE 0, no code and no faulted word. -/
theorem engineInv_busy (hi : engineInv p e) (hb : e.phase = .busy) :
    e.done = false ∧ e.ecode = none ∧ e.fcmd = 0 := by
  obtain ⟨hd, hc, hw, -⟩ := hi
  refine ⟨?_, ?_, hw (by rw [hb]; decide)⟩
  · cases hdone : e.done with
    | false => rfl
    | true => exact absurd ((hd hdone).symm.trans hb) (by decide)
  · simpa [codeOnlyInFault, Engine.faultFlag, hb] using hc

theorem engineInv_takeFault (hi : engineInv p e) (hb : e.phase = .busy) (c : FaultCode) :
    engineInv p (takeFault c e) := by
  obtain ⟨hdone, -, -⟩ := engineInv_busy hi hb
  obtain ⟨-, -, -, hm, hf⟩ := hi
  exact ⟨fun h => absurd (h.symm.trans hdone) (by decide), rfl, fun h => absurd rfl h, hm,
    scheduleFresh_congr hf rfl rfl rfl rfl⟩

/-- The completion of a command whose checks pass. -/
theorem engineInv_finish {i : Instr} (hi : engineInv p e) (hb : e.phase = .busy)
    (h : firstFault p e (commandChecks i) = none) : engineInv p (finish (commandEffect i p e)) := by
  obtain ⟨-, hcode, hword⟩ := engineInv_busy hi hb
  obtain ⟨-, -, -, hm, hf⟩ := hi
  obtain ⟨hm', hf'⟩ := commandEffect_fresh h hm hf
  refine ⟨fun _ => rfl, ?_, fun _ => ?_, hm', scheduleFresh_congr hf' rfl rfl rfl rfl⟩
  · simp [codeOnlyInFault, Engine.faultFlag, hcode]
  · simp [hword]

/-- An engine in IDLE with DONE 0, no code, no word and no valid schedule, in a canonical memory. -/
theorem engineInv_of_cleared (hp : e.phase = .idle) (hc : e.ecode = none) (hw : e.fcmd = 0)
    (hl : e.schedLen = 0) (hm : memoryCanonical e) : engineInv p e :=
  ⟨fun _ => hp, by simp [codeOnlyInFault, Engine.faultFlag, hp, hc], fun _ => hw, hm, scheduleFresh_of_schedLen_zero hl⟩

/-- A change of no register that the invariant looks at but DONE, which may only fall. -/
theorem engineInv_congr {e' : Engine} (hi : engineInv p e) (hp : e'.phase = e.phase)
    (hd : e'.done = true → e.done = true) (hc : e'.ecode = e.ecode) (hw : e'.fcmd = e.fcmd) (hm : e'.sched = e.sched)
    (hf : scheduleFresh p e → scheduleFresh p e') : engineInv p e' := by
  obtain ⟨hdone, hcode, hword, hmem, hfresh⟩ := hi
  exact ⟨fun h => hp.trans (hdone (hd h)), by simpa only [codeOnlyInFault, Engine.faultFlag, hc, hp] using hcode,
    fun h => hw.trans (hword (by rwa [← hp])), by rwa [memoryCanonical, hm], hf hfresh⟩

end

/-! ### The invariant through the events of a step -/

/-- A write that only IDLE accepts keeps the invariant if what it stores does. -/
theorem engineInv_writeIfIdle {p : Params} {e : Engine} {store : Engine → Engine} (hi : engineInv p e)
    (hs : e.phase = .idle → engineInv p (store e)) : engineInv p (e.writeIfIdle store) := by
  rcases writeIfIdle_cases e store with ⟨hp, he⟩ | ⟨-, he⟩ | ⟨-, he⟩ <;> rw [he]
  · exact hs hp
  · exact engineInv_congr hi rfl id rfl rfl rfl fun h => scheduleFresh_congr h rfl rfl rfl rfl
  · exact hi

theorem engineInv_acceptCommand {p : Params} {e : Engine} (v : Word) (hi : engineInv p e) (hp : e.phase = .idle) :
    engineInv p (e.acceptCommand v) := by
  obtain ⟨-, hcode, hword, hmem, hfresh⟩ := hi
  refine ⟨fun h => (by cases h), ?_, fun _ => hword (by rw [hp]; decide), hmem, scheduleFresh_congr hfresh rfl rfl rfl rfl⟩
  simpa [codeOnlyInFault, Engine.faultFlag, hp] using hcode

/-- A reset clears what the invariant asks to be clear, and its free schedule memory is canonical. -/
theorem engineInv_reset {p : Params} {e : Engine} (n : Nat) : engineInv p (e.clearControl.forgetData n) :=
  engineInv_of_cleared rfl rfl rfl rfl (Config.freeSched n).wf

theorem engineInv_softReset {p : Params} {s : State} (hi : engineInv p s.engine) : engineInv p (softReset s).engine := by
  rcases softReset_cases s with ⟨-, hs⟩ | ⟨-, hs⟩ <;> rw [hs]
  · exact engineInv_reset s.draws
  · obtain ⟨-, -, -, hm, -⟩ := hi
    exact engineInv_of_cleared rfl rfl rfl rfl hm

theorem engineInv_writeReg {p : Params} {s : State} (r : Reg) (v : Word) (hi : engineInv p s.engine) :
    engineInv p (writeReg r v s).engine := by
  have ignored : engineInv p s.engine.writeReadOnly := engineInv_writeIfIdle hi fun _ => hi
  cases r with
  | ctrl =>
    simp only [writeReg, writeCtrl]
    split
    · exact engineInv_softReset hi
    · exact engineInv_congr hi rfl id rfl rfl rfl fun h => scheduleFresh_congr h rfl rfl rfl rfl
  | status =>
    refine engineInv_congr hi rfl (fun h => ?_) rfl rfl rfl fun h => scheduleFresh_congr h rfl rfl rfl rfl
    rw [writeReg, acknowledge_done, Bool.and_eq_true] at h
    exact h.1
  | cmd => exact engineInv_writeIfIdle hi (engineInv_acceptCommand v hi)
  | cfg =>
    exact engineInv_writeIfIdle hi fun _ =>
      engineInv_congr hi rfl id rfl rfl rfl fun _ => scheduleFresh_of_schedLen_zero rfl
  | key k =>
    exact engineInv_writeIfIdle hi fun _ =>
      engineInv_congr hi (by simp) (by simp) (by simp) (by simp) (by simp)
        fun _ => scheduleFresh_of_schedLen_zero (by simp)
  | state h =>
    exact engineInv_writeIfIdle hi fun _ =>
      engineInv_congr hi (by simp) (by simp) (by simp) (by simp) (by simp)
        fun h => scheduleFresh_congr h (by simp) (by simp) (by simp) (by simp)
  | aux h =>
    exact engineInv_writeIfIdle hi fun _ =>
      engineInv_congr hi (by simp) (by simp) (by simp) (by simp) (by simp)
        fun h => scheduleFresh_congr h (by simp) (by simp) (by simp) (by simp)
  | result | schedLen | id | caps | fcmd | sched entry w h => exact ignored

/-- A read changes no engine state (R87). -/
@[simp] theorem hostRead_engine (host : Nat) (r : Reg) (s : State) : (hostRead host r s).engine = s.engine := by
  unfold hostRead; split <;> rfl

theorem engineInv_hostAccess {p : Params} {s : State} (a : Access) (hi : engineInv p s.engine) :
    engineInv p (hostAccess a s).engine := by
  rcases hostAccess_cases a s with ⟨-, h⟩ | ⟨r, -, -, h⟩ | ⟨r, v, -, -, h⟩ <;> rw [h]
  · exact hi
  · rwa [hostRead_engine]
  · exact engineInv_writeReg r v hi

theorem engineInv_exec {s t : State} {i : Instr} (hi : engineInv Config.params s.engine) (hb : s.engine.phase = .busy)
    (h : exec i s = .next t) : engineInv Config.params t.engine := by
  rcases exec_cases i s with ⟨c, -, he⟩ | ⟨hn, he⟩ <;> (rw [he] at h; cases h)
  · exact engineInv_takeFault hi hb c
  · exact engineInv_finish hi hb hn

/-- Settles O55: every kind of step keeps the invariant; a command that stores a schedule makes it the one of the KEY and CFG it
leaves, and a write of KEY or CFG leaves no valid entry. -/
theorem stepKeepsInvariant : Obligations.StepKeepsInvariant := by
  intro s t hi ht
  obtain ⟨s', he, -, -, hcases⟩ := step_cases s
  rw [← he] at hi hcases
  rcases hcases with ⟨-, h⟩ | ⟨hb, i, -, h⟩ | ⟨hb, -, h⟩ | ⟨_, -, h⟩ | ⟨a, _, -, h⟩ <;> rw [h] at ht
  · cases ht; exact hi
  · exact engineInv_exec hi hb ht
  · cases ht; exact engineInv_takeFault hi hb _
  · cases ht; exact engineInv_reset s'.draws
  · cases ht; exact engineInv_hostAccess a hi

/-- Settles O54: at reset nothing is recorded, no entry is valid and the memory lists nothing. -/
theorem invariantAtReset : Obligations.InvariantAtReset :=
  engineInv_of_cleared rfl rfl rfl rfl rfl

end Sys2Proof.Proofs

/-! ## Checks and causes: a command to which no cause applies completes (R331, R332, R90) -/

namespace Sys2Proof.Proofs

open Sys2Proof Sys2Proof.Machine Sys2Proof.Safety Sys2Proof.Claims Sys2Proof.Laws

/-! ### The configuration, as the model's functions and as the claims read its bits -/

/-- The four values of `CFG.VARIANT` (R36). -/
theorem variantOf_eq (v : BitVec 2) :
    (variantOf v = .a ↔ v = 0) ∧ (variantOf v = .b ↔ v = 1) ∧ (variantOf v = .c ↔ v = 2) ∧
      (variantOf v = .reserved ↔ v = 3) := by
  revert v; decide

theorem variant_eq_a_iff {e : Engine} : e.variant = .a ↔ e.cfg.variant = 0 := (variantOf_eq _).1
theorem variant_eq_b_iff {e : Engine} : e.variant = .b ↔ e.cfg.variant = 1 := (variantOf_eq _).2.1
theorem variant_eq_c_iff {e : Engine} : e.variant = .c ↔ e.cfg.variant = 2 := (variantOf_eq _).2.2.1
theorem variant_eq_reserved_iff {e : Engine} : e.variant = .reserved ↔ e.cfg.variant = 3 := (variantOf_eq _).2.2.2

/-- The simple variants, by the bits of `CFG.VARIANT`. -/
theorem isAB_iff {e : Engine} : e.variant.isAB = true ↔ e.cfg.variant = 0 ∨ e.cfg.variant = 1 := by
  rw [← variant_eq_a_iff, ← variant_eq_b_iff]
  cases e.variant <;> simp [Variant.isAB]

/-- Variant C is the only one besides A, B and the reserved value. -/
theorem isAB_eq_false_iff {v : Variant} (h : v ≠ .reserved) : v.isAB = false ↔ v = .c := by
  cases v <;> simp [Variant.isAB] at h ⊢

/-- The model's variant and the bits of CFG, case by case. -/
theorem variant_cases (e : Engine) :
    (e.variant = .a ∧ e.cfg.variant = 0) ∨ (e.variant = .b ∧ e.cfg.variant = 1) ∨
      (e.variant = .c ∧ e.cfg.variant = 2) ∨ (e.variant = .reserved ∧ e.cfg.variant = 3) := by
  rw [← variant_eq_a_iff, ← variant_eq_b_iff, ← variant_eq_c_iff, ← variant_eq_reserved_iff]
  cases e.variant <;> simp

theorem zLegal_iff_wordCountLegal {e : Engine} : zLegal e.variant e.z = true ↔ wordCountLegal e.cfg := by
  have hz : e.z = e.cfg.z.toNat := rfl
  rcases variant_cases e with ⟨h, hb⟩ | ⟨h, hb⟩ | ⟨h, hb⟩ | ⟨h, hb⟩ <;> simp [zLegal, wordCountLegal, h, hb, ← hz]

/-- The round limits agree but under the reserved variant, where the model's is 0. -/
theorem rMax_eq_roundLimit {p : Params} {e : Engine} (h : e.variant ≠ .reserved) :
    rMax p e.variant = roundLimit p e.cfg := by
  rcases variant_cases e with ⟨hv, hb⟩ | ⟨hv, hb⟩ | ⟨hv, hb⟩ | ⟨hv, hb⟩
  · simp [rMax, roundLimit, hv, hb]
  · simp [rMax, roundLimit, hv, hb]
  · simp [rMax, roundLimit, hv, hb]
  · exact absurd hv h

/-- The default round counts agree for a legal `CFG.Z` (R38). -/
theorem rDef_eq_defaultRounds {p : Params} {e : Engine} (h : wordCountLegal e.cfg) :
    rDef p e.variant e.z = defaultRounds p e.cfg := by
  have hz : e.z = e.cfg.z.toNat := rfl
  rcases h with ⟨hv, h1, h3⟩ | ⟨hv, h1, h4⟩ | ⟨hv, h4⟩
  · have : e.z = 1 ∨ e.z = 2 ∨ e.z = 3 := by omega
    rcases this with h | h | h <;> simp [rDef, defaultRounds, variant_eq_a_iff.mpr hv, hv, h, ← hz]
  · have : e.z = 1 ∨ e.z = 2 ∨ e.z = 3 ∨ e.z = 4 := by omega
    rcases this with h | h | h | h <;> simp [rDef, defaultRounds, variant_eq_b_iff.mpr hv, hv, h, ← hz]
  · simp [rDef, defaultRounds, variant_eq_c_iff.mpr hv, hv]

/-- The default round count is never out of range (R10). -/
theorem defaultRounds_range (p : Params) (c : Cfg) :
    1 ≤ defaultRounds p c ∧ defaultRounds p c ≤ roundLimit p c := by
  have hC := p.rDefC_range
  have hB := p.rDefB4_range
  have hz := c.z.isLt
  unfold defaultRounds roundLimit
  split
  · exact hC
  · split
    · exact hB
    · omega

theorem rEff_eq_effectiveRounds {p : Params} {e : Engine} (h : wordCountLegal e.cfg) :
    rEff p e = effectiveRounds p e.cfg := by
  simp only [rEff, effectiveRounds, rDef_eq_defaultRounds h, ne_eq, ite_not]

theorem keyWellFormed_iff_keyRowLegal {key : KeyCells} : keyWellFormed key = true ↔ keyRowLegal key := by
  simp [keyWellFormed, keyRowLegal, cellAt_of_lt, and_assoc]

/-! ### Which checks a command has (R333) -/

/-- The check is one the command makes, by the rows of R331. -/
def makesCheck (i : Instr) : Check → Prop
  | .variant => usesVariant i = true
  | .onlyC => onlyVariantC i = true
  | .tkCount => usesWordCount i = true
  | .rounds => usesRoundCount i = true
  | .roundIndex r => roundIndexOf i = some r
  | .lfsrWord w => lfsrWordOf i = some w
  | .keyFormat => usesKey i = true
  | .schedule r => scheduleEntryOf i = some r

theorem mem_commandChecks_iff {i : Instr} {k : Check} : k ∈ commandChecks i ↔ makesCheck i k := by
  cases k <;> cases i <;>
    simp [commandChecks, makesCheck, usesVariant, onlyVariantC, usesWordCount, usesRoundCount, roundIndexOf, lfsrWordOf,
      usesKey, scheduleEntryOf, checksLff, checksLfi, checksAc, checksForwardRound, checksInverseRound,
      checksForwardCipher, checksInverseCipher, eq_comm]

/-- Every command with checks checks the variant (R333). -/
theorem variant_mem_of_mem {i : Instr} {k : Check} (hk : k ∈ commandChecks i) : .variant ∈ commandChecks i := by
  cases i with
  | nop | xors | cpsa | sc | sci | sr | sri | mc | mci => exact absurd hk List.not_mem_nil
  | lff w x | lfi w x | ac r | art r | ksf | ksi | enc | dec | rnde r | rndd r => exact List.mem_cons_self

/-- Every command that counts rounds checks `CFG.Z` (R333). -/
theorem usesWordCount_of_usesRoundCount {i : Instr} (h : usesRoundCount i = true) : usesWordCount i = true := by
  cases i with
  | ksf | ksi | enc | dec => rfl
  | nop | xors | cpsa | lff w x | lfi w x | sc | sci | ac r | art r | sr | sri | mc | mci | rnde r | rndd r => cases h

/-- The variant's code is the lowest after decoding (R331). -/
theorem variant_code_lowest {k : Check} (h : k ≠ .variant) :
    faultNumber Check.variant.fault < faultNumber k.fault := by
  cases k <;> simp [Check.fault, faultNumber] at h ⊢

/-! ### A failed check is a cause, and a cause fails its check (R331, R332) -/

/-- A check that fails, when those with lower codes pass, gives its cause. -/
theorem cause_of_check_fails {p : Params} {e : Engine} {i : Instr} {k : Check} (hk : k ∈ commandChecks i)
    (hf : checkPasses p e k = false)
    (hlow : ∀ j ∈ commandChecks i, faultNumber j.fault < faultNumber k.fault → checkPasses p e j = true) :
    cause p i e k.fault := by
  have hres : k ≠ .variant → e.variant ≠ .reserved := fun hne => by
    have := hlow .variant (variant_mem_of_mem hk) (variant_code_lowest hne)
    simpa [checkPasses] using this
  cases k with
  | variant =>
    exact ⟨mem_commandChecks_iff.mp hk, variant_eq_reserved_iff.mp (by simpa [checkPasses] using hf)⟩
  | onlyC =>
    refine ⟨mem_commandChecks_iff.mp hk, ?_⟩
    have hr := hres (by decide)
    have hnc : e.variant ≠ .c := by simpa [checkPasses] using hf
    rcases variant_cases e with ⟨-, hb⟩ | ⟨-, hb⟩ | ⟨hv, -⟩ | ⟨hv, -⟩
    · exact .inl hb
    · exact .inr hb
    · exact absurd hv hnc
    · exact absurd hv hr
  | tkCount =>
    refine ⟨mem_commandChecks_iff.mp hk, fun hl => ?_⟩
    exact absurd hf (by simp [checkPasses, zLegal_iff_wordCountLegal.mpr hl])
  | rounds =>
    have hcount := mem_commandChecks_iff.mp hk
    have hz := hlow .tkCount (mem_commandChecks_iff.mpr (usesWordCount_of_usesRoundCount hcount)) (by decide)
    rw [checkPasses, zLegal_iff_wordCountLegal] at hz
    refine ⟨hcount, ?_⟩
    rw [← rEff_eq_effectiveRounds hz, ← rMax_eq_roundLimit (hres (by decide))]
    simpa [checkPasses] using hf
  | roundIndex r =>
    refine ⟨r, mem_commandChecks_iff.mp hk, ?_⟩
    rw [← rMax_eq_roundLimit (hres (by simp))]
    simpa [checkPasses] using hf
  | lfsrWord w =>
    refine ⟨w, mem_commandChecks_iff.mp hk, ?_⟩
    have hr := hres (by simp)
    rcases variant_cases e with ⟨hv, hb⟩ | ⟨hv, hb⟩ | ⟨hv, hb⟩ | ⟨hv, -⟩
    · simpa [checkPasses, lastLfsrWord, hv, hb] using hf
    · simpa [checkPasses, lastLfsrWord, hv, hb] using hf
    · simpa [checkPasses, lastLfsrWord, hv, hb] using hf
    · exact absurd hv hr
  | keyFormat =>
    simp only [checkPasses, Bool.or_eq_false_iff, decide_eq_false_iff_not, ne_eq, not_not] at hf
    exact ⟨mem_commandChecks_iff.mp hk, variant_eq_c_iff.mp hf.1,
      fun hl => absurd hf.2 (by simp [keyWellFormed_iff_keyRowLegal.mpr hl])⟩
  | schedule r => exact ⟨r, mem_commandChecks_iff.mp hk, by simpa [checkPasses] using hf⟩

/-- A cause fails the check with its code, whatever the other checks do. -/
theorem check_fails_of_cause {p : Params} {e : Engine} {i : Instr} {c : FaultCode} (h : cause p i e c) :
    ∃ k ∈ commandChecks i, k.fault = c ∧ checkPasses p e k = false := by
  cases c with
  | illegalOpcode => exact h.elim
  | badVariant =>
    exact ⟨.variant, mem_commandChecks_iff.mpr h.1, rfl, by simp [checkPasses, variant_eq_reserved_iff.mpr h.2]⟩
  | notImplemented =>
    refine ⟨.onlyC, mem_commandChecks_iff.mpr h.1, rfl, ?_⟩
    have hnc : e.variant ≠ .c := fun hc => by
      rw [variant_eq_c_iff] at hc
      rcases h.2 with hb | hb <;> exact absurd (hc.symm.trans hb) (by decide)
    simp [checkPasses, hnc]
  | badTkCount =>
    refine ⟨.tkCount, mem_commandChecks_iff.mpr h.1, rfl, ?_⟩
    simpa [checkPasses, ← zLegal_iff_wordCountLegal] using h.2
  | badRounds =>
    obtain ⟨hc, hn⟩ := h
    refine ⟨.rounds, mem_commandChecks_iff.mpr hc, rfl, ?_⟩
    by_cases hv : e.variant = .reserved
    · simp [checkPasses, hv, rMax]; omega
    · have hr : e.cfg.rounds ≠ 0 := fun h0 => hn (by
        rw [effectiveRounds, if_pos h0]; exact defaultRounds_range p e.cfg)
      have he : rEff p e = effectiveRounds p e.cfg := by rw [rEff, effectiveRounds, if_pos hr, if_neg hr]
      simpa [checkPasses, he, rMax_eq_roundLimit hv] using hn
  | badRoundIndex =>
    obtain ⟨r, hr, hle⟩ := h
    refine ⟨.roundIndex r, mem_commandChecks_iff.mpr hr, rfl, ?_⟩
    by_cases hv : e.variant = .reserved
    · simp [checkPasses, hv, rMax]
    · simpa [checkPasses, rMax_eq_roundLimit hv] using hle
  | badLfsrWord =>
    obtain ⟨w, hw, hn⟩ := h
    refine ⟨.lfsrWord w, mem_commandChecks_iff.mpr hw, rfl, ?_⟩
    rcases variant_cases e with ⟨hv, hb⟩ | ⟨hv, hb⟩ | ⟨hv, hb⟩ | ⟨hv, hb⟩ <;>
      simp [checkPasses, lastLfsrWord, hv, hb] at hn ⊢ <;> omega
  | badKeyFormat =>
    obtain ⟨hk, hv, hn⟩ := h
    refine ⟨.keyFormat, mem_commandChecks_iff.mpr hk, rfl, ?_⟩
    simpa [checkPasses, variant_eq_c_iff.mpr hv, ← keyWellFormed_iff_keyRowLegal] using hn
  | schedInvalid =>
    obtain ⟨r, hr, hle⟩ := h
    exact ⟨.schedule r, mem_commandChecks_iff.mpr hr, rfl, by simpa [checkPasses] using hle⟩

/-- The checks of a command pass exactly when no cause applies to it (R332). -/
theorem runs_iff_checks_pass {i : Instr} {e : Engine} :
    runs i e ↔ firstFault Config.params e (commandChecks i) = none := by
  constructor
  · intro h
    rw [firstFault_eq_none_iff]
    intro k hk
    induction hn : faultNumber k.fault using Nat.strong_induction_on generalizing k with
    | _ n ih =>
      by_contra hf
      exact h _ (cause_of_check_fails hk (by simpa using hf) fun j hj hlt => ih _ (hn ▸ hlt) j hj rfl)
  · intro h c hc
    obtain ⟨k, hk, -, hf⟩ := check_fails_of_cause hc
    exact absurd (firstFault_eq_none_iff.mp h k hk) (by simp [hf])

/-- A command that checks the variant and passes its checks runs under A, B or C. -/
theorem variant_ne_reserved_of_checks {p : Params} {e : Engine} {i : Instr} (h : firstFault p e (commandChecks i) = none)
    (hu : usesVariant i = true) : e.variant ≠ .reserved := by
  simpa [checkPasses] using firstFault_eq_none_iff.mp h .variant (mem_commandChecks_iff.mpr hu)

/-- A command of Variant C only that passes its checks runs under C. -/
theorem variant_eq_c_of_checks {p : Params} {e : Engine} {i : Instr} (h : firstFault p e (commandChecks i) = none)
    (hu : onlyVariantC i = true) : e.variant = .c := by
  simpa [checkPasses] using firstFault_eq_none_iff.mp h .onlyC (mem_commandChecks_iff.mpr hu)

/-- What a command to which no cause applies answers. -/
theorem exec_of_runs {i : Instr} {s : State} (h : runs i s.engine) :
    exec i s = .next { s with engine := finish (commandEffect i Config.params s.engine) } :=
  exec_passes (runs_iff_checks_pass.mp h)

/-- Settles O11: with no cause the checks pass, and the effect of a command leaves the control registers. -/
theorem commandCompletesWithoutCause : Obligations.CommandCompletesWithoutCause := by
  intro i s h
  exact ⟨_, exec_of_runs h, rfl, rfl, by simp, by simp, by simp, by simp, by simp, by simp⟩

/-! ### Completion in general (R90, R332) -/

/-- Checks that pass alike give the same fault. -/
theorem firstFault_congr {p : Params} {e e' : Engine} {ks : List Check}
    (h : ∀ k ∈ ks, checkPasses p e' k = checkPasses p e k) : firstFault p e' ks = firstFault p e ks := by
  induction ks with
  | nil => rfl
  | cons k ks ih =>
    rw [List.forall_mem_cons] at h
    rw [firstFault, firstFault, h.1, ih h.2]

/-- The engine after the completion of a command (R90). -/
def completed (i : Instr) (e : Engine) : Engine :=
  completeCommand Config.params (commandChecks i) (commandEffect i Config.params) e

/-- Every command answers a next state that differs in the engine only. -/
theorem exec_eq_completed (i : Instr) (s : State) : exec i s = .next { s with engine := completed i s.engine } :=
  exec_eq i s

/-- A completed command is no longer BUSY: it ended in IDLE or FAULT (R90, R340). -/
theorem completed_not_busy (i : Instr) (e : Engine) : (completed i e).busyFlag = false := by
  unfold completed completeCommand
  split <;> rfl

/-! ### Turns of the engine (R90) -/

theorem nextMove_nil {s : State} (h : s.pending = []) : nextMove s = engineTurn s := by simp only [nextMove, h]

theorem nextMove_turn {s : State} {rest : List Event} (h : s.pending = .engineTurn :: rest) :
    nextMove s = engineTurn { s with pending := rest } := by simp only [nextMove, h]

/-- A BUSY engine whose word decodes runs the command on its turn. -/
theorem engineTurn_runs {s : State} {i : Instr} (hb : s.engine.phase = .busy) (hd : decode s.engine.cmd = .ok i) :
    engineTurn s = .run i s := by simp only [engineTurn, hb, hd]

/-- An engine that is not BUSY waits on its turn (log entry 9). -/
theorem engineTurn_waits {s : State} (hb : s.engine.phase ≠ .busy) : engineTurn s = .other s := by
  rcases engineTurn_cases s with ⟨-, h⟩ | ⟨h, -⟩ | ⟨h, -⟩
  · exact h
  · exact absurd h hb
  · exact absurd h hb

/-- Settles O5: the next move of a BUSY engine on its turn is to run the command it latched. -/
theorem stepRunsDecodedCommand : Obligations.StepRunsDecodedCommand := by
  intro s i hb hd
  refine ⟨fun hp => ?_, fun rest hp => ?_⟩
  · rw [step, nextMove_nil hp, engineTurn_runs hb hd]
  · rw [step, nextMove_turn hp, engineTurn_runs (s := { s with pending := rest }) hb hd]

/-- Settles O7: the next move of an engine that is not BUSY is to stay as it is. -/
theorem engineWaitsUnlessBusy : Obligations.EngineWaitsUnlessBusy := by
  intro s hb
  refine ⟨fun hp => ?_, fun rest hp => ?_⟩
  · rw [step, nextMove_nil hp, engineTurn_waits hb]
  · rw [step, nextMove_turn hp, engineTurn_waits (s := { s with pending := rest }) hb]

end Sys2Proof.Proofs

/-! ## The register window: reads, writes and resets, one step each (R35 to R51, R56, R84 to R89, R380 to R382) -/

namespace Sys2Proof.Proofs

open Sys2Proof Sys2Proof.Machine Sys2Proof.Safety Sys2Proof.Claims Sys2Proof.Laws

/-! ### A read and a write as one step -/

/-- A read of a register whose contents show answers them and changes nothing else (R87 to R89). -/
theorem reads_regWord {s : State} {off : Nat} {r : Reg} (hr : regAt off = some r)
    (hx : (s.engine.busyFlag && r.hiddenWhileBusy) = false) : reads s off (regWord Config.params s.engine r) := by
  intro host rest
  rw [step_access rfl, hostAccess, regOfAccess, hr]
  exact congrArg Host.Outcome.next (hostRead_exact hx)

/-- While not BUSY every register shows its contents (R89). -/
theorem reads_of_not_busy {s : State} {off : Nat} {r : Reg} (hb : s.engine.phase ≠ .busy) (hr : regAt off = some r) :
    reads s off (regWord Config.params s.engine r) :=
  reads_regWord hr (by simp [Engine.busyFlag, hb])

/-- A control register shows its contents in every phase (R88). -/
theorem reads_control {s : State} {off : Nat} {r : Reg} (hr : regAt off = some r) (hh : r.hiddenWhileBusy = false) :
    reads s off (regWord Config.params s.engine r) :=
  reads_regWord hr (by rw [hh, Bool.and_false])

/-- A write of a register that changes the engine only. -/
theorem writes_of_regAt {s : State} {off : Nat} {r : Reg} {v : Word} {e : Engine} (hr : regAt off = some r)
    (hw : ∀ t : State, t.engine = s.engine → writeReg r v t = { t with engine := e }) : writes s off v e := by
  intro host rest
  rw [step_access rfl, hostAccess, regOfAccess, hr]
  exact congrArg (fun t => Host.Outcome.next (State.answer t host .ack)) (hw { s with pending := rest } rfl)

/-! ### Packed contents (R84) -/

/-- The word of eight cells packs them. -/
theorem packs_cellsWord {k : Nat} (m : Vector Cell k) (h : Nat) : packs m h (cellsWord m h) :=
  fun _ hi => wordCell_cellsWord m h hi

/-- The register with the cells of a word stored has them replaced. -/
theorem replaced_withCellsWord {k : Nat} (m : Vector Cell k) (h : Nat) (v : Word) :
    replaced m (withCellsWord m h v) h v := by
  intro n hn
  simp [withCellsWord, wordCell]

/-- Word `h` of a stored matrix is the word at its offset (R50). -/
theorem cellsWord_schedRead (m : Memory) (e w : Nat) {h : Nat} (hh : h < 2) :
    cellsWord (schedRead m e w) h = Memory.readWord m (schedOffset e w + 4 * h) := by
  have hw := cellsWord_matOfWords (Memory.readWord m (schedOffset e w)) (Memory.readWord m (schedOffset e w + 4))
  obtain rfl | rfl : h = 0 ∨ h = 1 := by omega
  · exact hw.1
  · exact hw.2

/-! ### What the host reads -/

/-- The code of a fault is its number in R331. -/
theorem code_eq_faultNumber (c : FaultCode) : c.code = BitVec.ofNat 8 (faultNumber c) := by cases c <;> rfl

/-- The flags of a STATUS word put together from its fields (R40). -/
theorem status_flags (c : Byte) (o f d b : Bool) :
    let v : Word := 0#16 ++ c ++ 0#4 ++ flagBit o ++ flagBit f ++ flagBit d ++ flagBit b
    v.getLsbD 0 = b ∧ v.getLsbD 1 = d ∧ v.getLsbD 2 = f ∧ v.getLsbD 3 = o := by
  simp only [BitVec.getLsbD_append, flagBit]
  simp

/-- The other fields of such a word (R40). -/
theorem status_fields (c : Byte) (o f d b : Bool) :
    let v : Word := 0#16 ++ c ++ 0#4 ++ flagBit o ++ flagBit f ++ flagBit d ++ flagBit b
    v.extractLsb' 4 4 = 0#4 ∧ v.extractLsb' 8 8 = c ∧ v.extractLsb' 16 16 = 0#16 := by
  refine ⟨?_, ?_, ?_⟩ <;> apply BitVec.eq_of_getLsbD_eq <;> intro i hi <;>
    simp only [BitVec.getLsbD_extractLsb', BitVec.getLsbD_append] <;> grind

/-- The fields of a CFG word put together (R36 to R38). -/
theorem cfgWord_fields (c : Cfg) :
    (cfgWord c).extractLsb' 0 2 = c.variant ∧ (cfgWord c).extractLsb' 2 2 = 0#2 ∧ (cfgWord c).extractLsb' 4 3 = c.z ∧
      (cfgWord c).extractLsb' 7 1 = 0#1 ∧ (cfgWord c).extractLsb' 8 8 = c.rounds ∧
      (cfgWord c).extractLsb' 16 16 = 0#16 := by
  refine ⟨?_, ?_, ?_, ?_, ?_, ?_⟩ <;> apply BitVec.eq_of_getLsbD_eq <;> intro i hi <;>
    simp only [cfgWord, BitVec.getLsbD_extractLsb', BitVec.getLsbD_append] <;> grind

/-- The fields of the CAPS word (R45). -/
theorem capsWord_fields (p : Params) :
    ((capsWord p).extractLsb' 0 8).toNat = p.rMaxC ∧ (capsWord p).extractLsb' 8 24 = 0x00033E#24 := by
  have hr := p.rMaxC_range.2
  rw [capsWord]
  generalize p.rMaxC = n at hr ⊢
  revert hr
  exact (by decide +kernel : ∀ n ≤ 255, ((0x00033E00#32 ||| BitVec.ofNat 32 n).extractLsb' 0 8).toNat = n ∧
    (0x00033E00#32 ||| BitVec.ofNat 32 n).extractLsb' 8 24 = 0x00033E#24) n

/-- Settles O42: the control registers show in every phase, and the words are put together from their fields. -/
theorem controlRegistersReadExactly : Obligations.ControlRegistersReadExactly := by
  intro s
  refine ⟨?_, ⟨statusWord s.engine, reads_control (r := .status) rfl rfl, ?_⟩,
    ⟨_, reads_control rfl rfl, cfgWord_fields _⟩,
    reads_control (r := .cmd) rfl rfl, reads_control (r := .id) rfl rfl,
    ⟨_, reads_control rfl rfl, capsWord_fields _⟩, reads_control (r := .fcmd) rfl rfl⟩
  · have hie : regWord Config.params s.engine .ctrl = if s.engine.ie then 1#32 else 0#32 := by
      cases h : s.engine.ie <;> simp [regWord, flagBit, h]
    rw [← hie]
    exact reads_control rfl rfl
  · obtain ⟨h0, h1, h2, h3⟩ := status_flags (ecodeBits s.engine.ecode) s.engine.ovr s.engine.faultFlag s.engine.done
      s.engine.busyFlag
    obtain ⟨h4, h8, h16⟩ := status_fields (ecodeBits s.engine.ecode) s.engine.ovr s.engine.faultFlag s.engine.done
      s.engine.busyFlag
    refine ⟨h0, h1, h2, h3, h4, h8.trans ?_, h16⟩
    cases s.engine.ecode with
    | none => rfl
    | some c => exact code_eq_faultNumber c

/-- Settles O43: while not BUSY a data register shows its cells, packed. -/
theorem dataRegistersReadContents : Obligations.DataRegistersReadContents := by
  intro s hb
  exact ⟨reads_of_not_busy (r := .result) hb rfl, reads_of_not_busy (r := .schedLen) hb rfl,
    fun h hh => ⟨_, reads_of_not_busy hb (regAt_state hh), packs_cellsWord _ h⟩,
    fun h hh => ⟨_, reads_of_not_busy hb (regAt_aux hh), packs_cellsWord _ h⟩,
    fun k hk => ⟨_, reads_of_not_busy hb (regAt_key hk), packs_cellsWord _ k⟩⟩

/-- The schedule window shows 0 outside the valid words (R50). -/
theorem schedWindowWord_invalid {e : Engine} {entry w : Nat} (h : Nat)
    (hinv : e.schedLen.toNat ≤ entry ∨ e.variant.isAB = true ∧ e.z ≤ w) : schedWindowWord e entry w h = 0 := by
  unfold schedWindowWord
  rcases hinv with hl | ⟨hv, hw⟩
  · rw [if_pos hl]
  · simp [hv, hw]

/-- The schedule window shows the stored word where it is valid (R50). -/
theorem schedWindowWord_valid {e : Engine} {entry w h : Nat} (hh : h < 2) (hl : entry < e.schedLen.toNat)
    (hz : e.variant.isAB = true → w < e.z) : schedWindowWord e entry w h = cellsWord (schedRead e.sched entry w) h := by
  have hw : (e.variant.isAB && decide (e.z ≤ w)) = false := by
    rw [Bool.and_eq_false_imp]
    exact fun hv => decide_eq_false (Nat.not_le.mpr (hz hv))
  rw [schedWindowWord, if_neg (Nat.not_le.mpr hl), hw, cellsWord_schedRead _ _ _ hh]
  rfl

/-- Settles O44: a word of the window is the packed half of the stored word, or 0. -/
theorem scheduleWindowReads : Obligations.ScheduleWindowReads := by
  intro s e w h hb he hw hh
  refine ⟨_, reads_of_not_busy hb (regAt_sched he hw hh), fun hinv => ?_, fun hl hz => ?_⟩
  · exact schedWindowWord_invalid h (by rwa [isAB_iff])
  · rw [regWord, schedWindowWord_valid hh hl (by rwa [isAB_iff])]
    exact packs_cellsWord _ h

/-! ### What a write does -/

/-- The registers that are read only: every write to one is `writeReadOnly`. -/
def isReadOnly : Reg → Bool
  | .result | .schedLen | .id | .caps | .fcmd | .sched _ _ _ => true
  | .ctrl | .status | .cfg | .cmd | .state _ | .aux _ | .key _ => false

theorem writeReg_readOnly {r : Reg} (h : isReadOnly r = true) (v : Word) (s : State) :
    writeReg r v s = { s with engine := s.engine.writeReadOnly } := by
  cases r with
  | result | schedLen | id | caps | fcmd | sched entry w h => rfl
  | ctrl | status | cfg | cmd | state h | aux h | key k => cases h

/-- The read-only offsets reach read-only registers (R81). -/
theorem regAt_readOnlyOffset {off : Nat} (h : readOnlyOffset off) : ∃ r, regAt off = some r ∧ isReadOnly r = true := by
  obtain ⟨h4, ⟨hlo, hhi⟩ | ⟨hlo, hhi⟩⟩ := h
  · obtain rfl | rfl | rfl | rfl | rfl : off = 0x010 ∨ off = 0x014 ∨ off = 0x018 ∨ off = 0x01C ∨ off = 0x020 := by omega
    all_goals exact ⟨_, rfl, rfl⟩
  · have hoff : off = 0x1000 + 32 * ((off - 0x1000) / 32) + 8 * ((off - 0x1000) % 32 / 8) + 4 * ((off - 0x1000) % 8 / 4) := by
      omega
    exact ⟨_, (congrArg regAt hoff).trans (regAt_sched (by omega) (by omega) (by omega)), rfl⟩

/-- Settles O47: a read-only register stores nothing, and while BUSY the write sets OVR. -/
theorem readOnlyRegistersIgnoreWrites : Obligations.ReadOnlyRegistersIgnoreWrites := by
  intro s off v hoff
  obtain ⟨r, hr, hro⟩ := regAt_readOnlyOffset hoff
  refine writes_of_regAt hr fun t ht => ?_
  rw [writeReg_readOnly hro, ht]
  rcases writeReadOnly_cases s.engine with ⟨hb, he⟩ | ⟨hb, he⟩
  · rw [he, if_pos hb]
  · rw [he, if_neg hb]

/-- In IDLE a write that only IDLE accepts is stored (R56). -/
theorem writeIfIdle_idle {e : Engine} (h : e.phase = .idle) (store : Engine → Engine) : e.writeIfIdle store = store e := by
  simp only [Engine.writeIfIdle, h]

/-- Settles O48: each accepted write is its store, and the stored cells are those of the word. -/
theorem writesAcceptedInIdle : Obligations.WritesAcceptedInIdle := by
  intro s v hi
  refine ⟨writes_of_regAt rfl fun t ht => ?_, writes_of_regAt rfl fun t ht => ?_,
    fun h hh => ⟨_, writes_of_regAt (regAt_state hh) fun t ht => ?_, replaced_withCellsWord _ h v⟩,
    fun h hh => ⟨_, writes_of_regAt (regAt_aux hh) fun t ht => ?_, replaced_withCellsWord _ h v⟩,
    fun k hk => ⟨_, markKeyWord k s.engine.written.key, writes_of_regAt (regAt_key hk) fun t ht => ?_,
      replaced_withCellsWord _ k v, fun j => ?_⟩⟩
  · rw [writeReg, ht, writeIfIdle_idle hi]; rfl
  · rw [writeReg, ht, writeIfIdle_idle hi]; rfl
  · simp only [writeReg, ht, writeIfIdle_idle hi, Engine.storeState, Bool.or_comm]
  · simp only [writeReg, ht, writeIfIdle_idle hi, Engine.storeAux, Bool.or_comm]
  · simp only [writeReg, ht, writeIfIdle_idle hi, Engine.storeKey]
  · simp [markKeyWord, Bool.or_comm]

/-- Settles O49: STATUS clears the flags whose bits are set. -/
theorem statusWriteAcknowledges : Obligations.StatusWriteAcknowledges := by
  intro s v
  refine writes_of_regAt rfl fun t ht => ?_
  have clear : ∀ flag bit : Bool, (flag && !bit) = if bit then false else flag := by decide
  rw [writeReg, ht, Engine.acknowledge, clear, clear]

/-- A write of CTRL with bit 1 clear sets IE (R35). -/
theorem writeCtrl_enable {v : Word} (hv : v.getLsbD 1 = false) (s : State) :
    writeCtrl v s = { s with engine := { s.engine with ie := v.getLsbD 0 } } := by
  rw [writeCtrl, hv]; rfl

/-- Settles O50: the IRQ level by its definition, and a CTRL write without SRST. -/
theorem interruptLevelAndEnable : Obligations.InterruptLevelAndEnable := by
  intro s v
  refine ⟨by simp [irq, Engine.faultFlag], fun hv => writes_of_regAt rfl fun t ht => ?_⟩
  rw [writeReg, writeCtrl_enable hv, ht]

/-! ### Resets -/

/-- A write of CTRL with bit 1 set is a soft reset (R35). -/
theorem step_softReset {s : State} {v : Word} (host : Nat) (rest : List Event) (hv : v.getLsbD 1 = true) :
    step (withWrite host 0x000 v rest s) = .next ((softReset { s with pending := rest }).answer host .ack) := by
  have hw : writeReg .ctrl v { s with pending := rest } = softReset { s with pending := rest } := by
    rw [writeReg, writeCtrl, if_pos hv]
  rw [← hw]
  exact step_access (s := withWrite host 0x000 v rest s) rfl

/-- Settles O51: both cases of a soft reset. -/
theorem softResetEffect : Obligations.SoftResetEffect := by
  intro s host v rest hv
  refine ⟨_, step_softReset host rest hv, ?_⟩
  rcases softReset_cases { s with pending := rest } with ⟨hb, h⟩ | ⟨hb, h⟩ <;> rw [h]
  · exact ⟨rfl, rfl, rfl, rfl, rfl, rfl, rfl, rfl, rfl, fun hn => absurd hb hn, fun _ => ⟨rfl, rfl, rfl, rfl, rfl, rfl⟩⟩
  · exact ⟨rfl, rfl, rfl, rfl, rfl, rfl, rfl, rfl, rfl, fun _ => ⟨rfl, rfl, rfl, rfl, rfl, rfl⟩, fun hp => absurd hp hb⟩

/-- A pending hard reset is what the next step performs (R380). -/
theorem step_hardReset {s : State} {rest : List Event} (h : s.pending = .hardReset :: rest) :
    step s = .next (hardReset { s with pending := rest }) := by simp only [step, nextMove, h]

/-- Settles O52: the hard reset, field by field. -/
theorem hardResetEffect : Obligations.HardResetEffect := by
  intro s rest h
  exact ⟨_, step_hardReset h, rfl, rfl, rfl, rfl, rfl, rfl, rfl, rfl, rfl, rfl, rfl, rfl, rfl, rfl, rfl, rfl⟩

/-- Settles O53: the values at reset. -/
theorem resetValues : Obligations.ResetValues := by
  refine ⟨rfl, rfl, ?_, ?_, rfl, rfl, rfl⟩ <;> decide

/-! ### Accesses that are no reset, outside IDLE (R56, R342) -/

theorem sameButFlags_refl (e : Engine) : sameButFlags e e := rfl

/-- Only offset 0 reaches CTRL (R81). -/
theorem regAt_eq_ctrl {off : Nat} (h : regAt off = some .ctrl) : off = 0x000 := by
  by_contra h0
  revert h
  unfold regAt
  rw [if_neg h0]
  repeat' refine iteInduction (motive := fun r => r ≠ some Reg.ctrl) (fun _ => ?_) (fun _ => ?_)
  all_goals nofun

theorem regOfAccess_eq_ctrl {a : Access} (h : regOfAccess a = some .ctrl) : a.width = .w32 ∧ a.off = 0x000 := by
  unfold regOfAccess at h
  cases hw : a.width with
  | w32 => rw [hw] at h; exact ⟨rfl, regAt_eq_ctrl h⟩
  | w8 | w16 | w64 => rw [hw] at h; cases h

/-- Outside IDLE a write that only IDLE accepts changes at most OVR. -/
theorem sameButFlags_writeIfIdle {e : Engine} (hp : e.phase ≠ .idle) (store : Engine → Engine) :
    sameButFlags e (e.writeIfIdle store) := by
  rcases writeIfIdle_cases e store with ⟨h, -⟩ | ⟨-, he⟩ | ⟨-, he⟩
  · exact absurd h hp
  · rw [he]; rfl
  · rw [he]; rfl

/-- Outside IDLE a write of a register that is no soft reset changes IE, DONE and OVR at most. -/
theorem sameButFlags_writeReg {s : State} {r : Reg} {v : Word} (hp : s.engine.phase ≠ .idle)
    (hv : r = .ctrl → v.getLsbD 1 = false) : sameButFlags s.engine (writeReg r v s).engine := by
  have dropped := sameButFlags_writeIfIdle hp
  cases r with
  | ctrl => rw [writeReg, writeCtrl_enable (hv rfl)]; rfl
  | status => rfl
  | cfg | cmd | state h | aux h | key k | result | schedLen | id | caps | fcmd | sched entry w h => exact dropped _

/-- Outside IDLE an access that is no soft reset changes IE, DONE and OVR at most (R56, R342). -/
theorem sameButFlags_hostAccess {s : State} {a : Access} (hp : s.engine.phase ≠ .idle) (ha : noReset (.access a)) :
    sameButFlags s.engine (hostAccess a s).engine := by
  rcases hostAccess_cases a s with ⟨-, h⟩ | ⟨r, -, -, h⟩ | ⟨r, v, hr, hk, h⟩ <;> rw [h]
  · exact sameButFlags_refl _
  · rw [hostRead_engine]; exact sameButFlags_refl _
  · refine sameButFlags_writeReg hp fun hc => ?_
    obtain ⟨hw, ho⟩ := regOfAccess_eq_ctrl (hc ▸ hr)
    exact ha.2 a v rfl hw ho hk

/-- Settles O57: while BUSY an access that is no soft reset touches the flags only. -/
theorem busyFreezesCommandAndData : Obligations.BusyFreezesCommandAndData := by
  intro s a rest hb hp ha
  exact ⟨_, step_access hp, sameButFlags_hostAccess (s := { s with pending := rest }) (by rw [hb]; decide) ha⟩

end Sys2Proof.Proofs

/-! ## A command is read back from its word (R116, R120) -/

namespace Sys2Proof.Proofs

open Sys2Proof Sys2Proof.Laws

/-- The fields of a word with a round index. -/
theorem fields_encodeRidx {opc r : Nat} (ho : opc < 256) (hr : ridxFits r = true) :
    let v := encodeRidx (BitVec.ofNat 32 opc) r
    opcField v = opc ∧ ridxField v = r ∧ reservedField v = 0 ∧ wField v = 0 ∧ xField v = 0 := by
  have hr : r ≤ 255 := by simpa [ridxFits] using hr
  have h := encodeRidx_toNat ho hr
  simp only [opcField_eq, ridxField_eq, wField_eq, xField_eq_zero_iff, reservedField_eq_zero_iff, h]
  omega

/-- The fields of a word with a word index and a cell. -/
theorem fields_encodeWX {opc w : Nat} (x : Cell) (ho : opc < 256) (hw : wordFits w = true) :
    let v := encodeWX (BitVec.ofNat 32 opc) w x
    opcField v = opc ∧ wField v = w ∧ xField v = x ∧ reservedField v = 0 ∧ ridxField v = 0 := by
  have hw : w ≤ 15 := by simpa [wordFits] using hw
  have h := encodeWX_toNat x ho hw
  have hx := x.isLt
  refine ⟨?_, ?_, BitVec.eq_of_toNat_eq ?_, ?_, ?_⟩ <;>
    simp only [opcField_eq, ridxField_eq, wField_eq, xField_toNat, reservedField_eq_zero_iff, h] <;> omega

/-- The decoder of a word with a round index, once its opcode selects that decoder. -/
theorem decode_encodeRidx {opc r : Nat} {mk : Nat → Instr} (ho : opc < 256) (hr : ridxFits r = true)
    (hd : ∀ v, opcField v = opc → decode v = decodeRidx v mk) :
    decode (encodeRidx (BitVec.ofNat 32 opc) r) = .ok (mk r) := by
  obtain ⟨hopc, hridx, hrest⟩ := fields_encodeRidx ho hr
  rw [hd _ hopc, decodeRidx_eq_ok_iff, hridx]
  exact ⟨rfl, hrest⟩

/-- The decoder of a word with a word index and a cell, once its opcode selects that decoder. -/
theorem decode_encodeWX {opc w : Nat} {mk : Nat → Cell → Instr} (x : Cell) (ho : opc < 256) (hw : wordFits w = true)
    (hd : ∀ v, opcField v = opc → decode v = decodeWX v mk) :
    decode (encodeWX (BitVec.ofNat 32 opc) w x) = .ok (mk w x) := by
  obtain ⟨hopc, hword, hcell, hrest⟩ := fields_encodeWX x ho hw
  rw [hd _ hopc, decodeWX_eq_ok_iff, hword, hcell]
  exact ⟨rfl, hrest⟩

/-- A well-formed command is read back from its word. -/
theorem decode_encode {i : Instr} (h : i.wellFormed = true) : decode (encode i) = .ok i := by
  cases i with
  | nop | xors | cpsa | sc | sci | sr | sri | mc | mci | ksf | ksi | enc | dec => rfl
  | lff w x | lfi w x => exact decode_encodeWX x (by decide) h fun v hv => by simp only [decode, hv]
  | ac r | art r | rnde r | rndd r => exact decode_encodeRidx (by decide) h fun v hv => by simp only [decode, hv]

end Sys2Proof.Proofs

/-! ## Host programs, turn by turn (R121) -/

namespace Sys2Proof.Proofs

open Sys2Proof Sys2Proof.Machine Sys2Proof.Safety Sys2Proof.Claims Sys2Proof.Laws

/-- A turn of the machine with nothing pending, while BUSY with a word that decodes, and then a poll: the wait ends with what the
command left (R90, R121). -/
theorem runProgram_complete {s : State} {i : Instr} (host : Nat) (ops : List HostOp) (hp : s.pending = [])
    (hb : s.engine.phase = .busy) (hd : decode s.engine.cmd = .ok i) :
    ∃ t, runProgram host [.machine, .host] (.todo (.poll :: ops)) s = .next (.todo ops, t) ∧
      t.engine = completed i s.engine := by
  have hstep : step s = .next { s with engine := completed i s.engine } := by
    rw [(stepRunsDecodedCommand s i hb hd).1 hp, exec_eq_completed]
  refine ⟨({ s with engine := completed i s.engine } : State).answer host (.data (statusWord (completed i s.engine))), ?_, rfl⟩
  simp only [runProgram, hstep, hostTurn_poll, completed_not_busy]
  rfl

/-- `RUN` in IDLE up to its polls: the word is latched, and what follows runs from a machine that only has more answers (R42). -/
theorem runProgram_run {s : State} {v : Word} (host k : Nat) (turns : List Turn) (hi : s.engine.phase = .idle) :
    ∃ answers, runProgram host (.host :: List.replicate k .host ++ turns) (.todo [.write 0x00C v, .poll]) s =
      runProgram host turns (.todo [.poll]) { s with engine := s.engine.acceptCommand v, answers := answers } := by
  rw [List.cons_append, runProgram, hostTurn_cmd host v _ hi]
  exact runProgram_polls host k turns [] (({ s with engine := s.engine.acceptCommand v } : State).answer host .ack) rfl

/-- Settles O60: an ill-formed command has no word; `RUN` latches the word, polls while BUSY and ends after the completion; `CHECK`
looks at FAULT. -/
theorem hostProgramsRun : Obligations.HostProgramsRun := by
  refine ⟨fun i h => by simp [expandStmt, h], fun s i host k hi hp hw => ?_, fun s host ops => ?_⟩
  · obtain ⟨_, hpolls⟩ := runProgram_run host k [] hi
    obtain ⟨answers, hwaits⟩ := runProgram_run host k [.machine, .host] hi
    obtain ⟨t, hends, ht⟩ := runProgram_complete (i := i) host []
      (s := { s with engine := s.engine.acceptCommand (encode i), answers := answers }) hp rfl (decode_encode hw)
    rw [List.append_nil] at hpolls
    exact ⟨_, _, t, _, expandStmt_run hw, hpolls, rfl, exec_eq_completed i _, hwaits.trans hends, ht⟩
  · exact ⟨s.answer host (.data (statusWord s.engine)), rfl, by
      simp only [runProgram, hostTurn_check, Engine.faultFlag, decide_eq_true_eq]⟩

end Sys2Proof.Proofs

/-! ## What a command does not read: unused KEY cells and registers not written (R48, R57, R385) -/

namespace Sys2Proof.Proofs

open Sys2Proof Sys2Proof.Machine Sys2Proof.Safety Sys2Proof.Claims Sys2Proof.Laws

/-! ### What the round functions and the schedule read -/

/-- Two engines that give the round functions the same: CFG, the stored schedule, and but for the simple variants the sub-keys and
the seed row (R194 to R197). -/
structure SameRoundInputs (e e' : Engine) : Prop where
  cfg : e'.cfg = e.cfg
  sched : e'.sched = e.sched
  key : e.variant.isAB = false → ∀ n, n < 32 ∨ 96 ≤ n → cellAt e'.key n = cellAt e.key n

section

variable {e e' : Engine}

/-- AC reads CFG and under Variant C the seed (R194, R195). -/
theorem addConstants_congr (p : Params) (hc : e'.cfg = e.cfg)
    (hk : e.variant.isAB = false → cellAt e'.key 96 = cellAt e.key 96) (m : Mat4) (r : Nat) :
    addConstants p e' m r = addConstants p e m r := by
  rw [addConstants, addConstants, variant_congr hc]
  cases hv : e.variant.isAB with
  | true => rfl
  | false => simp only [addConstantsC, keySeed, hk hv]

/-- Under Variant C the tweakey layer reads four words of the schedule and the sub-keys (R197). -/
theorem addTweakeyC_congr (hs : e'.sched = e.sched) (hk : ∀ n, n < 32 → cellAt e'.key n = cellAt e.key n) (m : Mat4) (r : Nat) :
    addTweakeyC e' m r = addTweakeyC e m r := by
  refine tabulate_congr fun n hn => ?_
  rw [hs, subKeyCell, subKeyCell, hk _ (by omega)]

/-- ART reads CFG, the stored schedule and under Variant C the sub-keys (R196, R197). -/
theorem addRoundTweakey_congr (h : SameRoundInputs e e') (m : Mat4) (r : Nat) :
    addRoundTweakey e' m r = addRoundTweakey e m r := by
  rw [addRoundTweakey, addRoundTweakey, variant_congr h.cfg]
  cases hv : e.variant.isAB with
  | true => rw [if_pos rfl, if_pos rfl, addTweakeyAB, addTweakeyAB, h.sched, z_congr h.cfg]
  | false => exact addTweakeyC_congr h.sched (fun n hn => h.key hv n (.inl hn)) m r

theorem roundF_congr (p : Params) (h : SameRoundInputs e e') (m : Mat4) (r : Nat) : roundF p e' m r = roundF p e m r := by
  rw [roundF, roundF, addConstants_congr p h.cfg fun hv => h.key hv 96 (.inr (by omega)), addRoundTweakey_congr h]

/-- The inverse round is Variant C's (R271). -/
theorem roundI_congr (p : Params) (h : SameRoundInputs e e') (hv : e.variant.isAB = false) (m : Mat4) (r : Nat) :
    roundI p e' m r = roundI p e m r := by
  rw [roundI, roundI, addTweakeyC_congr h.sched fun n hn => h.key hv n (.inl hn)]
  simp only [addConstantsC, keySeed, h.key hv 96 (.inr (by omega))]

theorem encrypt_congr (p : Params) (h : SameRoundInputs e e') (m : Mat4) (r : Nat) : encrypt p e' m r = encrypt p e m r := by
  induction r with
  | zero => rfl
  | succ r ih => rw [encrypt, encrypt, ih, roundF_congr p h]

theorem decrypt_congr (p : Params) (h : SameRoundInputs e e') (hv : e.variant.isAB = false) (m : Mat4) (r : Nat) :
    decrypt p e' m r = decrypt p e m r := by
  induction r generalizing m with
  | zero => rfl
  | succ r ih => rw [decrypt, decrypt, roundI_congr p h hv, ih]

end

/-- Under A and B the tweakey words are the cells of KEY below `16z` (R48, R240). -/
theorem tkWords_congr_AB {v : Variant} {z : Nat} {key key' : KeyCells} (hv : v.isAB = true) (h : sameUsedKey z key key') :
    tkWords v z key' = tkWords v z key := by
  refine List.map_congr_left fun w hw => cells_ext fun n hn => ?_
  rw [List.mem_range] at hw
  rw [cellAt_keyMat _ _ hn, cellAt_keyMat _ _ hn, tkOffset, if_pos hv]
  by_cases hk : 16 * w + n < 100
  · rw [cellAt_of_lt _ hk, cellAt_of_lt _ hk, h _ hk (by omega)]
  · rw [cellAt_of_ge _ (by omega), cellAt_of_ge _ (by omega)]

/-! ### Unused cells of KEY under Variants A and B (R48) -/

section

variable {e : Engine} {key' : KeyCells}

/-- No check looks at KEY under Variants A and B (R331). -/
theorem checkPasses_withKey_AB (p : Params) (hv : e.variant.isAB = true) (k : Check) :
    checkPasses p { e with key := key' } k = checkPasses p e k := by
  cases k with
  | keyFormat =>
    have hC : e.variant ≠ .c := by rintro h; rw [h] at hv; cases hv
    have hC' : ({ e with key := key' } : Engine).variant ≠ .c := hC
    simp [checkPasses, hC, hC']
  | variant | onlyC | tkCount | rounds | roundIndex r | lfsrWord w | schedule r => rfl

theorem sameRoundInputs_withKey_AB (hv : e.variant.isAB = true) : SameRoundInputs e { e with key := key' } :=
  ⟨rfl, rfl, fun hf => absurd (hf.symm.trans hv) (by decide)⟩

theorem buildSchedule_withKey_AB (p : Params) (hv : e.variant.isAB = true) (hk : sameUsedKey e.z e.key key') :
    buildSchedule p { e with key := key' } = { buildSchedule p e with key := key' } :=
  congrArg (fun ts => storeSchedule (scheduleForward p e.variant (rEff p e) ts) { e with key := key' })
    (tkWords_congr_AB hv hk)

/-- A command whose checks pass under A or B does the same with other cells of KEY above `16z`, and leaves KEY. -/
theorem commandEffect_withKey_AB {i : Instr} {p : Params} (hv : e.variant.isAB = true) (hk : sameUsedKey e.z e.key key')
    (h : firstFault p e (commandChecks i) = none) :
    commandEffect i p { e with key := key' } = { commandEffect i p e with key := key' } := by
  have hin : SameRoundInputs e { e with key := key' } := sameRoundInputs_withKey_AB hv
  have hC : onlyVariantC i ≠ true := fun hu => by
    rw [variant_eq_c_of_checks h hu] at hv; cases hv
  cases i with
  | nop | xors | cpsa | lff w x | sc | sci | sr | sri | mc | mci => rfl
  | ac r =>
    have hac := addConstants_congr (e := e) (e' := { e with key := key' }) p rfl fun hf => absurd (hf.symm.trans hv) (by decide)
    rw [commandEffect, hac]; rfl
  | art r => rw [commandEffect, addRoundTweakey_congr hin]; rfl
  | rnde r => rw [commandEffect, roundF_congr p hin]; rfl
  | ksf => exact buildSchedule_withKey_AB p hv hk
  | enc =>
    rw [commandEffect, encEffect, buildSchedule_withKey_AB p hv hk,
      encrypt_congr p (sameRoundInputs_withKey_AB (e := buildSchedule p e) hv)]
    rfl
  | lfi w x | ksi | dec | rndd r => exact absurd rfl hC

/-- The same of its completion. -/
theorem completed_withKey_AB (i : Instr) (hv : e.variant.isAB = true) (hk : sameUsedKey e.z e.key key') :
    completed i { e with key := key' } = { completed i e with key := key' } ∧ (completed i e).key = e.key := by
  unfold completed completeCommand
  rw [firstFault_congr fun k _ => checkPasses_withKey_AB Config.params hv k]
  cases h : firstFault Config.params e (commandChecks i) with
  | some c => exact ⟨rfl, rfl⟩
  | none =>
    refine ⟨?_, ?_⟩
    · simp only [commandEffect_withKey_AB hv hk h]; rfl
    · rw [finish_key]
      refine commandEffect_key (fun hi => ?_) _ _
      subst hi
      rw [variant_eq_c_of_checks h rfl] at hv; cases hv

end

/-- Settles O38: under A and B checks, layers and schedule read KEY below cell `16z` only, and only KSI writes it. -/
theorem unusedKeyCellsHaveNoEffect : Obligations.UnusedKeyCellsHaveNoEffect := by
  intro i s key' hv hk
  obtain ⟨hx, hkey⟩ := completed_withKey_AB (e := s.engine) (key' := key') i (isAB_iff.mpr hv) hk
  refine ⟨_, exec_eq_completed i s, hkey, ?_⟩
  rw [exec_eq_completed]
  exact congrArg (fun e => Host.Outcome.next { s with engine := e }) hx

end Sys2Proof.Proofs

/-! ## Registers that were not written have no effect on those that were (R57, R385; log entry 6) -/

namespace Sys2Proof.Proofs

open Sys2Proof Sys2Proof.Machine Sys2Proof.Safety Sys2Proof.Claims Sys2Proof.Laws

section

variable {e e' : Engine}

/-! ### What `sameWritten` keeps -/

theorem sameWritten_cfg (h : sameWritten e e') : e'.cfg = e.cfg := (congrArg Engine.cfg h.1).symm

theorem sameWritten_sched (h : sameWritten e e') : e'.sched = e.sched := (congrArg Engine.sched h.1).symm

theorem sameWritten_schedLen (h : sameWritten e e') : e'.schedLen = e.schedLen := (congrArg Engine.schedLen h.1).symm

theorem sameWritten_takeFault (h : sameWritten e e') (c : FaultCode) : sameWritten (takeFault c e) (takeFault c e') :=
  ⟨congrArg (takeFault c) h.1, h.2⟩

theorem sameWritten_finish (h : sameWritten e e') : sameWritten (finish e) (finish e') := ⟨congrArg finish h.1, h.2⟩

/-- A register written with the same value is the same afterwards, whatever it held. -/
theorem sameWritten_setState (h : sameWritten e e') {m m' : Mat4} (hm : m' = m) :
    sameWritten (e.setState m) (e'.setState m') := by
  subst hm
  obtain ⟨heq, -, haux, hkey, hres⟩ := h
  exact ⟨congrArg (Engine.setState · m') heq, fun _ _ _ => rfl, haux, hkey, hres⟩

theorem sameWritten_setAux (h : sameWritten e e') {m m' : Mat4} (hm : m' = m) :
    sameWritten (e.setAux m) (e'.setAux m') := by
  subst hm
  obtain ⟨heq, hstate, -, hkey, hres⟩ := h
  exact ⟨congrArg (Engine.setAux · m') heq, hstate, fun _ _ _ => rfl, hkey, hres⟩

theorem sameWritten_setResult (h : sameWritten e e') {x x' : Cell} (hx : x' = x) :
    sameWritten (e.setResult x) (e'.setResult x') := by
  subst hx
  obtain ⟨heq, hstate, haux, hkey, -⟩ := h
  exact ⟨congrArg (Engine.setResult · x') heq, hstate, haux, hkey, fun _ => rfl⟩

theorem sameWritten_setTweakeyRegion (h : sameWritten e e') {key key' : KeyCells} (hk : key' = key) :
    sameWritten (e.setTweakeyRegion key) (e'.setTweakeyRegion key') := by
  subst hk
  obtain ⟨heq, hstate, haux, -, hres⟩ := h
  exact ⟨congrArg (Engine.setTweakeyRegion · key') heq, hstate, haux, fun _ _ _ => rfl, hres⟩

theorem sameWritten_storeSchedule (h : sameWritten e e') {es es' : List (List Mat4)} (hes : es' = es) :
    sameWritten (storeSchedule es e) (storeSchedule es' e') := by
  subst hes
  exact ⟨congrArg (storeSchedule es') h.1, h.2⟩

/-! ### Written registers hold the same -/

theorem state_eq_of_written (h : sameWritten e e') (hw : stateWritten e = true) : e'.state = e.state := by
  rw [stateWritten, Bool.and_eq_true] at hw
  obtain ⟨-, hstate, -⟩ := h
  ext1 n hn
  exact (hstate n hn (by split <;> simp [hw])).symm

theorem aux_eq_of_written (h : sameWritten e e') (hw : auxWritten e = true) : e'.aux = e.aux := by
  rw [auxWritten, Bool.and_eq_true] at hw
  obtain ⟨-, -, haux, -⟩ := h
  ext1 n hn
  exact (haux n hn (by split <;> simp [hw])).symm

/-- A cell of a written word of KEY. -/
theorem key_eq_of_written (h : sameWritten e e') {n : Nat} (hn : n < 100) (hw : keyWordWritten e (n / 8) = true) :
    e.key[n] = e'.key[n] := by
  rw [keyWordWritten, dif_pos (by omega)] at hw
  obtain ⟨-, -, -, hkey, -⟩ := h
  exact hkey n hn hw

/-- Under Variant C the whole key was written. -/
theorem key_eq_of_viewWritten (h : sameWritten e e') (hv : e.variant = .c) (hw : keyViewWritten e = true) :
    e'.key = e.key := by
  rw [keyViewWritten, if_pos hv, List.all_eq_true] at hw
  ext1 n hn
  exact (key_eq_of_written h hn (hw _ (List.mem_range.mpr (by omega)))).symm

/-- Under A and B the cells below `16z` were written. -/
theorem sameUsedKey_of_viewWritten (h : sameWritten e e') (hv : e.variant ≠ .c) (hw : keyViewWritten e = true) :
    sameUsedKey e.z e.key e'.key := by
  rw [keyViewWritten, if_neg hv, List.all_eq_true] at hw
  exact fun n hn hz => key_eq_of_written h hn (hw _ (List.mem_range.mpr (by omega)))

/-- The tweakey words of the active view were written (R48, R240). -/
theorem tkWords_eq_of_viewWritten (h : sameWritten e e') (hr : e.variant ≠ .reserved) (hw : keyViewWritten e = true) :
    tkWords e.variant e.z e'.key = tkWords e.variant e.z e.key := by
  cases hv : e.variant.isAB with
  | true =>
    exact tkWords_congr_AB hv (sameUsedKey_of_viewWritten h (fun hc => by rw [hc] at hv; cases hv) hw)
  | false => rw [key_eq_of_viewWritten h ((isAB_eq_false_iff hr).mp hv) hw]

/-- The seed row, when its word was written. -/
theorem seedRow_eq_of_written (h : sameWritten e e') (hw : keyWordWritten e 12 = true) {n : Nat} (hn : 96 ≤ n) :
    cellAt e'.key n = cellAt e.key n := by
  by_cases hk : n < 100
  · rw [cellAt_of_lt _ hk, cellAt_of_lt _ hk, key_eq_of_written h hk (by rwa [show n / 8 = 12 by omega])]
  · rw [cellAt_of_ge _ (by omega), cellAt_of_ge _ (by omega)]

/-- The sub-keys and the seed row, when ART, RNDE or RNDD may read them (R385). -/
theorem sameRoundInputs_of_written (h : sameWritten e e') (hr : e.variant ≠ .reserved) (hw : subKeysWritten e = true) :
    SameRoundInputs e e' := by
  refine ⟨sameWritten_cfg h, sameWritten_sched h, fun hv n hn => ?_⟩
  have hc := (isAB_eq_false_iff hr).mp hv
  simp only [subKeysWritten, hc, ne_eq, not_true_eq_false, decide_false, Bool.false_or, Bool.and_eq_true,
    List.all_eq_true, List.mem_range] at hw
  obtain ⟨hsub, hseed⟩ := hw
  rcases hn with hn | hn
  · rw [cellAt_of_lt _ (by omega), cellAt_of_lt _ (by omega), key_eq_of_written h (by omega) (hsub _ (by omega))]
  · exact seedRow_eq_of_written h hseed hn

/-- The whole key of Variant C includes what the rounds read. -/
theorem subKeysWritten_of_viewWritten (hw : keyViewWritten e = true) : subKeysWritten e = true := by
  by_cases hv : e.variant = .c
  · rw [keyViewWritten, if_pos hv, List.all_eq_true] at hw
    simp only [subKeysWritten, hv, Bool.or_eq_true, Bool.and_eq_true, List.all_eq_true]
    exact .inr ⟨fun k hk => hw k (List.mem_range.mpr (by have := List.mem_range.mp hk; omega)), hw 12 (by decide)⟩
  · simp [subKeysWritten, hv]

/-! ### Checks and effects of a command that reads written registers only (R385) -/

/-- A command that checks the format of KEY reads its seed row. -/
theorem seedRow_written_of_usesKey {i : Instr} (hu : usesKey i = true) (hw : readsWritten i e = true) (hv : e.variant = .c) :
    keyWordWritten e 12 = true := by
  have hview : keyViewWritten e = true → keyWordWritten e 12 = true := fun hk => by
    rw [keyViewWritten, if_pos hv, List.all_eq_true] at hk
    exact hk 12 (by decide)
  have hsub : subKeysWritten e = true → keyWordWritten e 12 = true := fun hk => by
    simp only [subKeysWritten, hv, ne_eq, not_true_eq_false, decide_false, Bool.false_or, Bool.and_eq_true] at hk
    exact hk.2
  cases i with
  | nop | xors | cpsa | lff w x | lfi w x | sc | sci | sr | sri | mc | mci => cases hu
  | ac r => simpa [seedRowWritten, hv] using (Bool.and_eq_true_iff.mp hw).2
  | art r | rnde r | rndd r => exact hsub (Bool.and_eq_true_iff.mp hw).2
  | ksf | ksi | enc | dec => exact hview (Bool.and_eq_true_iff.mp hw).2

/-- Every check of the command passes alike. -/
theorem checkPasses_eq_of_written {i : Instr} {k : Check} (p : Params) (h : sameWritten e e') (hw : readsWritten i e = true)
    (hk : k ∈ commandChecks i) : checkPasses p e' k = checkPasses p e k := by
  have hc := sameWritten_cfg h
  cases k with
  | variant | onlyC | tkCount | rounds | roundIndex r | lfsrWord w =>
    simp only [checkPasses, variant_congr hc, z_congr hc, rEff_congr p hc]
  | schedule r => simp only [checkPasses, sameWritten_schedLen h]
  | keyFormat =>
    rw [checkPasses, checkPasses, variant_congr hc]
    by_cases hv : e.variant = .c
    · have h12 := seedRow_written_of_usesKey (mem_commandChecks_iff.mp hk) hw hv
      rw [keyWellFormed_congr fun n hn _ => seedRow_eq_of_written h h12 hn]
    · simp [hv]

/-- The schedule is computed from written registers. -/
theorem sameWritten_buildSchedule (p : Params) (h : sameWritten e e') (hr : e.variant ≠ .reserved)
    (hw : keyViewWritten e = true) : sameWritten (buildSchedule p e) (buildSchedule p e') := by
  have hc := sameWritten_cfg h
  refine sameWritten_storeSchedule h ?_
  rw [variant_congr hc, z_congr hc, rEff_congr p hc, tkWords_eq_of_viewWritten h hr hw]

/-- The round functions read the same after the schedule is stored. -/
theorem sameRoundInputs_buildSchedule (p : Params) (h : sameWritten e e') (hr : e.variant ≠ .reserved)
    (hw : keyViewWritten e = true) : SameRoundInputs (buildSchedule p e) (buildSchedule p e') :=
  sameRoundInputs_of_written (sameWritten_buildSchedule p h hr hw) hr (subKeysWritten_of_viewWritten (e := buildSchedule p e) hw)

theorem sameWritten_ksiEffect (p : Params) (h : sameWritten e e') (hk : e'.key = e.key) :
    sameWritten (ksiEffect p e) (ksiEffect p e') := by
  have hr := rEff_congr p (sameWritten_cfg h)
  exact sameWritten_setTweakeyRegion (sameWritten_storeSchedule h (by rw [hr, hk])) (by rw [hr, hk])

/-- The effect of a command whose checks pass. -/
theorem sameWritten_commandEffect {i : Instr} {p : Params} (h : sameWritten e e') (hw : readsWritten i e = true)
    (hc : firstFault p e (commandChecks i) = none) : sameWritten (commandEffect i p e) (commandEffect i p e') := by
  have hcfg := sameWritten_cfg h
  have hvariant : usesVariant i = true → e.variant ≠ .reserved := variant_ne_reserved_of_checks hc
  cases i with
  | nop => exact h
  | xors =>
    obtain ⟨hs, ha⟩ := Bool.and_eq_true_iff.mp hw
    exact sameWritten_setState h (by rw [state_eq_of_written h hs, aux_eq_of_written h ha])
  | cpsa => exact sameWritten_setAux h (state_eq_of_written h hw)
  | lff w x => exact sameWritten_setResult h (by rw [variant_congr hcfg])
  | lfi w x => exact sameWritten_setResult h rfl
  | sc | sci | sr | sri | mc | mci => exact sameWritten_setState h (by rw [state_eq_of_written h hw])
  | ac r =>
    obtain ⟨hs, hk⟩ := Bool.and_eq_true_iff.mp hw
    have hseed : e.variant.isAB = false → cellAt e'.key 96 = cellAt e.key 96 := fun hv =>
      seedRow_eq_of_written h (seedRow_written_of_usesKey (i := .ac r) rfl hw ((isAB_eq_false_iff (hvariant rfl)).mp hv))
        (by omega)
    exact sameWritten_setState h (by rw [state_eq_of_written h hs, addConstants_congr p hcfg hseed])
  | art r =>
    obtain ⟨hs, hk⟩ := Bool.and_eq_true_iff.mp hw
    exact sameWritten_setState h (by
      rw [state_eq_of_written h (Bool.and_eq_true_iff.mp hs).2,
        addRoundTweakey_congr (sameRoundInputs_of_written h (hvariant rfl) hk)])
  | rnde r =>
    obtain ⟨hs, hk⟩ := Bool.and_eq_true_iff.mp hw
    exact sameWritten_setState h (by
      rw [state_eq_of_written h (Bool.and_eq_true_iff.mp hs).2,
        roundF_congr p (sameRoundInputs_of_written h (hvariant rfl) hk)])
  | rndd r =>
    obtain ⟨hs, hk⟩ := Bool.and_eq_true_iff.mp hw
    have hv := (isAB_eq_false_iff (hvariant rfl)).mpr (variant_eq_c_of_checks hc rfl)
    exact sameWritten_setState h (by
      rw [state_eq_of_written h (Bool.and_eq_true_iff.mp hs).2,
        roundI_congr p (sameRoundInputs_of_written h (hvariant rfl) hk) hv])
  | ksf => exact sameWritten_buildSchedule p h (hvariant rfl) (Bool.and_eq_true_iff.mp hw).2
  | ksi =>
    exact sameWritten_ksiEffect p h
      (key_eq_of_viewWritten h (variant_eq_c_of_checks hc rfl) (Bool.and_eq_true_iff.mp hw).2)
  | enc =>
    obtain ⟨hs, hk⟩ := Bool.and_eq_true_iff.mp hw
    exact sameWritten_setState (sameWritten_buildSchedule p h (hvariant rfl) hk) (by
      rw [state_eq_of_written h (Bool.and_eq_true_iff.mp hs).2, rEff_congr p hcfg,
        encrypt_congr p (sameRoundInputs_buildSchedule p h (hvariant rfl) hk)])
  | dec =>
    obtain ⟨hs, hk⟩ := Bool.and_eq_true_iff.mp hw
    have hv := (isAB_eq_false_iff (hvariant rfl)).mpr (variant_eq_c_of_checks hc rfl)
    exact sameWritten_setState (sameWritten_buildSchedule p h (hvariant rfl) hk) (by
      rw [state_eq_of_written h (Bool.and_eq_true_iff.mp hs).2, rEff_congr p hcfg,
        decrypt_congr p (sameRoundInputs_buildSchedule p h (hvariant rfl) hk) hv])

/-- The completion of a command: the same fault, or effects that agree. -/
theorem sameWritten_completed {i : Instr} (h : sameWritten e e') (hw : readsWritten i e = true) :
    sameWritten (completed i e) (completed i e') := by
  unfold completed completeCommand
  rw [firstFault_congr fun k hk => checkPasses_eq_of_written Config.params h hw hk]
  cases hc : firstFault Config.params e (commandChecks i) with
  | some c => exact sameWritten_takeFault h c
  | none => exact sameWritten_finish (sameWritten_commandEffect h hw hc)

end

/-- Settles O59: checks and effects read only registers that were written, so both engines complete alike. -/
theorem unwrittenRegistersHaveNoEffect : Obligations.UnwrittenRegistersHaveNoEffect := by
  intro i s e' hw h
  exact ⟨_, _, exec_eq_completed i s, exec_eq_completed i _, sameWritten_completed h hw⟩

end Sys2Proof.Proofs

/-! ## Accesses as one step, and the completion of a running command (R81, R82, R87, R88, R90, R92, R117) -/

namespace Sys2Proof.Proofs

open Sys2Proof Sys2Proof.Machine Sys2Proof.Safety Sys2Proof.Claims Sys2Proof.Laws

/-! ### An access leaves the events that follow -/

@[simp] theorem softReset_pending (s : State) : (softReset s).pending = s.pending := by
  rcases softReset_cases s with ⟨-, h⟩ | ⟨-, h⟩ <;> rw [h]

@[simp] theorem writeReg_pending (r : Reg) (v : Word) (s : State) : (writeReg r v s).pending = s.pending := by
  cases r with
  | ctrl =>
    simp only [writeReg, writeCtrl]
    split
    · exact softReset_pending s
    · rfl
  | status | cfg | cmd | state h | aux h | key k | result | schedLen | id | caps | fcmd | sched entry w h => rfl

@[simp] theorem hostRead_pending (host : Nat) (r : Reg) (s : State) : (hostRead host r s).pending = s.pending := by
  unfold hostRead; split <;> rfl

@[simp] theorem hostAccess_pending (a : Access) (s : State) : (hostAccess a s).pending = s.pending := by
  rcases hostAccess_cases a s with ⟨-, h⟩ | ⟨r, -, -, h⟩ | ⟨r, v, -, -, h⟩ <;> rw [h]
  · rfl
  · exact hostRead_pending a.host r s
  · exact writeReg_pending r v s

/-! ### The flags play no part in a command -/

theorem sameButFlags_iff {e e' : Engine} :
    sameButFlags e e' ↔ ∃ ie done ovr, e' = { e with ie := ie, done := done, ovr := ovr } :=
  ⟨fun h => ⟨_, _, _, h.symm⟩, fun ⟨_, _, _, h⟩ => h ▸ rfl⟩

/-- No round of DEC reads the flags. -/
theorem decrypt_withFlags (p : Params) (e : Engine) (ie done ovr : Bool) (m : Mat4) (r : Nat) :
    decrypt p { e with ie := ie, done := done, ovr := ovr } m r = decrypt p e m r := by
  induction r generalizing m with
  | zero => rfl
  | succ r ih => exact ih (roundI p e m r)

section

variable {e e' e'' : Engine}

theorem sameButFlags_trans (h : sameButFlags e e') (h' : sameButFlags e' e'') : sameButFlags e e'' := by
  obtain ⟨_, _, _, rfl⟩ := sameButFlags_iff.mp h
  exact h'

theorem sameButFlags_phase (h : sameButFlags e e') : e'.phase = e.phase := (congrArg Engine.phase h).symm

theorem sameButFlags_cmd (h : sameButFlags e e') : e'.cmd = e.cmd := (congrArg Engine.cmd h).symm

/-- The checks read CFG, KEY and `SCHED_LEN` only (R331). -/
theorem checkPasses_sameButFlags (p : Params) (h : sameButFlags e e') (k : Check) :
    checkPasses p e' k = checkPasses p e k := by
  obtain ⟨_, _, _, rfl⟩ := sameButFlags_iff.mp h
  cases k <;> rfl

/-- An effect neither reads nor writes the flags; for ENC and DEC, because no round does. -/
theorem sameButFlags_commandEffect (i : Instr) (p : Params) (h : sameButFlags e e') :
    sameButFlags (commandEffect i p e) (commandEffect i p e') := by
  obtain ⟨ie, done, ovr, rfl⟩ := sameButFlags_iff.mp h
  cases i with
  | enc =>
    have hm := encrypt_congr p (e := buildSchedule p e)
      (e' := { buildSchedule p e with ie := ie, done := done, ovr := ovr }) ⟨rfl, rfl, fun _ _ _ => rfl⟩ e.state (rEff p e)
    exact sameButFlags_iff.mpr ⟨ie, done, ovr, congrArg (Engine.setState _) hm⟩
  | dec =>
    have hm := decrypt_withFlags p (buildSchedule p e) ie done ovr e.state (rEff p e)
    exact sameButFlags_iff.mpr ⟨ie, done, ovr, congrArg (Engine.setState _) hm⟩
  | nop | xors | cpsa | lff w x | lfi w x | sc | sci | ac r | art r | sr | sri | mc | mci | ksf | ksi | rnde r | rndd r => rfl

/-- Engines that differ in the flags complete a command alike: the same fault, or the same effect. -/
theorem sameButFlags_completed (i : Instr) (h : sameButFlags e e') :
    sameButFlags (completed i e) (completed i e') := by
  unfold completed completeCommand
  rw [firstFault_congr fun k _ => checkPasses_sameButFlags Config.params h k]
  cases firstFault Config.params e (commandChecks i) with
  | some c => exact congrArg (takeFault c) h
  | none =>
    obtain ⟨_, _, _, he⟩ := sameButFlags_iff.mp (sameButFlags_commandEffect i Config.params h)
    simp only [he]
    rfl

end

/-! ### The engine's turn while BUSY -/

/-- What a BUSY engine is after its turn: its word completed, or the fault of a word that is no command (R90, R111). -/
def afterTurn (e : Engine) : Engine :=
  match decode e.cmd with
  | .ok i => completed i e
  | .error _ => takeFault .illegalOpcode e

theorem afterTurn_ok {e : Engine} {i : Instr} (h : decode e.cmd = .ok i) : afterTurn e = completed i e := by
  simp only [afterTurn, h]

theorem afterTurn_error {e : Engine} {err : DecodeError} (h : decode e.cmd = .error err) :
    afterTurn e = takeFault .illegalOpcode e := by
  simp only [afterTurn, h]

theorem afterTurn_not_busy (e : Engine) : (afterTurn e).phase ≠ .busy := by
  cases hd : decode e.cmd with
  | ok i => rw [afterTurn_ok hd]; exact of_decide_eq_false (completed_not_busy i e)
  | error err => rw [afterTurn_error hd]; exact nofun

theorem sameButFlags_afterTurn {e e' : Engine} (h : sameButFlags e e') : sameButFlags (afterTurn e) (afterTurn e') := by
  have hcmd : decode e'.cmd = decode e.cmd := congrArg decode (sameButFlags_cmd h)
  cases hd : decode e.cmd with
  | ok i =>
    rw [afterTurn_ok hd, afterTurn_ok (hcmd.trans hd)]
    exact sameButFlags_completed i h
  | error err =>
    rw [afterTurn_error hd, afterTurn_error (hcmd.trans hd)]
    exact congrArg (takeFault .illegalOpcode) h

/-- The step that is the engine's turn in a state `u` that has consumed its event. -/
theorem step_of_engineTurn {s u : State} (hb : u.engine.phase = .busy) (hm : nextMove s = engineTurn u) :
    step s = .next { u with engine := afterTurn u.engine } := by
  rcases engineTurn_cases u with ⟨hn, -⟩ | ⟨-, i, hd, ht⟩ | ⟨-, err, hd, ht⟩
  · exact absurd hb hn
  · rw [step, hm, ht, afterTurn_ok hd]; exact exec_eq_completed i u
  · rw [step, hm, ht, afterTurn_error hd]; rfl

/-! ### A running command completes -/

theorem run_succ {M : Host.Core} {s t : M.State} (h : M.step s = .next t) (n : Nat) : M.run (n + 1) s = M.run n t := by
  rw [Host.Core.run, h]

/-- A BUSY engine with no reset ahead takes its turn before the pending events have run out, and the accesses up to then have
changed at most its flags. -/
theorem busy_run_reaches_turn (evs : List Event) :
    ∀ s : State, s.pending = evs → s.engine.phase = .busy → (∀ ev ∈ evs, noReset ev) →
      ∃ n t, n ≤ evs.length + 1 ∧ Host.Core.run core n s = .next t ∧ sameButFlags (afterTurn s.engine) t.engine := by
  induction evs with
  | nil =>
    intro s hp hb _
    have hturn := step_of_engineTurn hb (nextMove_nil hp)
    exact ⟨1, _, Nat.le_refl 1, run_succ (M := core) hturn 0, sameButFlags_refl _⟩
  | cons ev rest ih =>
    intro s hp hb hev
    obtain ⟨hfirst, hrest⟩ := List.forall_mem_cons.mp hev
    cases ev with
    | engineTurn =>
      have hturn := step_of_engineTurn (u := { s with pending := rest }) hb (nextMove_turn hp)
      exact ⟨1, _, Nat.le_add_left 1 _, run_succ (M := core) hturn 0, sameButFlags_refl _⟩
    | hardReset => exact absurd rfl hfirst.1
    | access a =>
      have hsame : sameButFlags s.engine (hostAccess a { s with pending := rest }).engine :=
        sameButFlags_hostAccess (s := { s with pending := rest }) (by rw [hb]; decide) hfirst
      obtain ⟨n, t, hn, hrun, ht⟩ := ih _ (hostAccess_pending a _) ((sameButFlags_phase hsame).trans hb) hrest
      exact ⟨n + 1, t, Nat.succ_le_succ hn, (run_succ (M := core) (step_access hp) n).trans hrun,
        sameButFlags_trans (sameButFlags_afterTurn hsame) ht⟩

/-- Settles O58: the engine's turn comes before the events run out, and finds the command and the data as they were. -/
theorem commandEventuallyCompletes : Obligations.CommandEventuallyCompletes := by
  intro s hb hev
  obtain ⟨n, t, hn, hrun, ht⟩ := busy_run_reaches_turn s.pending s rfl hb hev
  refine ⟨n, t, hn, hrun, (sameButFlags_phase ht).trans_ne (afterTurn_not_busy _), fun i hd => ?_, fun hd => ?_⟩
  · exact ⟨_, exec_eq_completed i s, afterTurn_ok hd ▸ ht⟩
  · cases herr : decode s.engine.cmd with
    | ok i => exact absurd herr (hd i)
    | error err => rwa [afterTurn_error herr] at ht

/-! ### The commands without a cause: NOP and the matrix commands (R310, R143, R144) -/

/-- Settles O12: NOP has no checks and no effect. -/
theorem nopResult : Obligations.NopResult := fun _ => exec_passes rfl

/-- Settles O13: XORS has no checks, and its effect is the XOR of the matrices. -/
theorem xorsResult : Obligations.XorsResult := by
  intro s
  refine ⟨xorMat s.engine.state s.engine.aux, exec_passes rfl, fun n => ?_⟩
  have h := cellAt_xorMat s.engine.state s.engine.aux n.isLt
  rwa [cellAt_of_lt _ n.isLt, cellAt_of_lt _ n.isLt, cellAt_of_lt _ n.isLt] at h

/-- Settles O14: CPSA has no checks, and its effect is the copy. -/
theorem cpsaResult : Obligations.CpsaResult := fun _ => exec_passes rfl

/-! ### Bus errors (R81, R82, R345) -/

/-- An access of another width, misaligned or reserved reaches no register (R82). -/
theorem regOfAccess_eq_none {a : Access} (h : a.width ≠ .w32 ∨ a.off % 4 ≠ 0 ∨ reservedOffset a.off) :
    regOfAccess a = none := by
  unfold regOfAccess
  cases hw : a.width with
  | w8 | w16 | w64 => rfl
  | w32 =>
    rcases h with h | h | h
    · exact absurd hw h
    · exact regAt_misaligned h
    · refine regAt_reserved ?_
      unfold reservedOffset at h
      omega

/-- Settles O39: the access reaches no register, so the step is the bus error's answer. -/
theorem busErrorChangesNothing : Obligations.BusErrorChangesNothing := by
  intro s a rest hp h
  rw [step_access hp, hostAccess, regOfAccess_eq_none h]
  rfl

/-! ### Reads (R87, R88) -/

theorem hostRead_answers (host : Nat) (r : Reg) (s : State) :
    ∃ v, (hostRead host r s).answers = { host := host, response := .data v } :: s.answers := by
  unfold hostRead; split <;> exact ⟨_, rfl⟩

/-- A read, of a register or not, leaves the engine and adds one answer (R87). -/
theorem hostAccess_read {a : Access} (hk : a.kind = .read) (s : State) :
    (hostAccess a s).engine = s.engine ∧
      ∃ r, (hostAccess a s).answers = { host := a.host, response := r } :: s.answers := by
  rcases hostAccess_cases a s with ⟨-, h⟩ | ⟨r, -, -, h⟩ | ⟨r, v, -, hw, -⟩
  · rw [h]; exact ⟨rfl, _, rfl⟩
  · rw [h]
    obtain ⟨v, hv⟩ := hostRead_answers a.host r s
    exact ⟨hostRead_engine a.host r s, _, hv⟩
  · rw [hk] at hw; cases hw

/-- Settles O41: the step is the access, and a read only answers. -/
theorem readsChangeNothing : Obligations.ReadsChangeNothing := by
  intro s a rest hp hk
  obtain ⟨hengine, hanswer⟩ := hostAccess_read hk { s with pending := rest }
  exact ⟨_, step_access hp, hengine, hostAccess_pending a _, hanswer⟩

/-- The offsets of the data registers and of the schedule window reach registers hidden while BUSY (R81, R88). -/
theorem regAt_hiddenOffset {off : Nat} (h4 : off % 4 = 0)
    (h : off = 0x010 ∨ off = 0x014 ∨ (0x040 ≤ off ∧ off ≤ 0x04C) ∨ (0x080 ≤ off ∧ off ≤ 0x0B0) ∨
      (0x1000 ≤ off ∧ off < 0x3000)) :
    ∃ r, regAt off = some r ∧ r.hiddenWhileBusy = true := by
  rcases h with rfl | rfl | ⟨hlo, hhi⟩ | ⟨hlo, hhi⟩ | ⟨hlo, hhi⟩
  · exact ⟨_, rfl, rfl⟩
  · exact ⟨_, rfl, rfl⟩
  · obtain rfl | rfl | rfl | rfl : off = 0x040 ∨ off = 0x044 ∨ off = 0x048 ∨ off = 0x04C := by omega
    all_goals exact ⟨_, rfl, rfl⟩
  · obtain ⟨k, rfl⟩ : ∃ k, off = 0x080 + 4 * k := ⟨(off - 0x080) / 4, by omega⟩
    exact ⟨_, regAt_key (by omega), rfl⟩
  · obtain ⟨e, w, h, he, hw, hh, rfl⟩ : ∃ e w h, e < 256 ∧ w < 4 ∧ h < 2 ∧ off = 0x1000 + 32 * e + 8 * w + 4 * h :=
      ⟨(off - 0x1000) / 32, (off - 0x1000) % 32 / 8, (off - 0x1000) % 8 / 4, by omega⟩
    exact ⟨_, regAt_sched he hw hh, rfl⟩

/-- Settles O45: such an offset reaches a hidden register, and its read draws the next free value. -/
theorem busyReadsAreFree : Obligations.BusyReadsAreFree := by
  intro s host off rest hb h4 hoff
  obtain ⟨r, hr, hh⟩ := regAt_hiddenOffset h4 hoff
  rw [step_access rfl, hostAccess, regOfAccess, hr]
  exact congrArg Host.Outcome.next (hostRead_free (decide_eq_true hb) hh)

end Sys2Proof.Proofs

/-! ## The opcode map decides which words are commands (R111, R116, R117, R119) -/

namespace Sys2Proof.Proofs

open Sys2Proof Sys2Proof.Machine Sys2Proof.Laws

/-- Settles O1: each form of command is read back from the fields of its word. -/
theorem decodeEncodeRoundTrip : Obligations.DecodeEncodeRoundTrip := fun _ => decode_encode

/-! ### A row covers a word: what the word is then -/

/-- The row of a command covers a word: `(v & mask) == match` (R116). -/
abbrev RowCovers (i : Instr) (v : Word) : Prop := v &&& (opcodeRow i).maskBits = (opcodeRow i).matchBits

/-- The command of the same row with its operands read from the fields of `v`. -/
def withOperands (v : Word) : Instr → Instr
  | .lff _ _ => .lff (wField v) (xField v)
  | .lfi _ _ => .lfi (wField v) (xField v)
  | .ac _ => .ac (ridxField v)
  | .art _ => .art (ridxField v)
  | .rnde _ => .rnde (ridxField v)
  | .rndd _ => .rndd (ridxField v)
  | i => i

theorem ridxFits_ridxField (v : Word) : ridxFits (ridxField v) = true :=
  decide_eq_true (by rw [ridxField_eq]; omega)

theorem wordFits_wField (v : Word) : wordFits (wField v) = true :=
  decide_eq_true (by rw [wField_eq]; omega)

/-- What a field holds fits its operand. -/
theorem wellFormed_withOperands (v : Word) (i : Instr) : (withOperands v i).wellFormed = true := by
  cases i with
  | nop | xors | cpsa | sc | sci | sr | sri | mc | mci | ksf | ksi | enc | dec => rfl
  | lff w x | lfi w x => exact wordFits_wField v
  | ac r | art r | rnde r | rndd r => exact ridxFits_ridxField v

/-- Operands play no part in the row of a command. -/
theorem opcodeRow_withOperands (v : Word) (i : Instr) : opcodeRow (withOperands v i) = opcodeRow i := by
  cases i <;> rfl

/-- The opcode map lists each row by its command with operands 0. -/
theorem withOperands_zero_mem_opcodeMap (i : Instr) : withOperands 0 i ∈ opcodeMap := by
  cases i with
  | nop | xors | cpsa | sc | sci | sr | sri | mc | mci | ksf | ksi | enc | dec => decide
  | lff w x | lfi w x => simp [withOperands, opcodeMap, wField, xField]
  | ac r | art r | rnde r | rndd r => simp [withOperands, opcodeMap, ridxField]

/-- A word that is an opcode outside `RIDX` is the word of the round index it holds. -/
theorem encodeRidx_of_and_mask {v : Word} {opc : Nat} (ho : opc < 256)
    (h : v &&& 0xFFFF00FF#32 = BitVec.ofNat 32 opc) : encodeRidx (BitVec.ofNat 32 opc) (ridxField v) = v := by
  have hmask := (and_ridxMask v).symm.trans (congrArg BitVec.toNat h)
  rw [BitVec.toNat_ofNat] at hmask
  apply BitVec.eq_of_toNat_eq
  rw [encodeRidx_toNat ho (of_decide_eq_true (ridxFits_ridxField v)), word_eq_fields v]
  omega

/-- A word that is an opcode outside `W` and `X` is the word of the word index and the cell it holds. -/
theorem encodeWX_of_and_mask {v : Word} {opc : Nat} (ho : opc < 256)
    (h : v &&& 0xFF00FFFF#32 = BitVec.ofNat 32 opc) : encodeWX (BitVec.ofNat 32 opc) (wField v) (xField v) = v := by
  have hmask := (and_wxMask v).symm.trans (congrArg BitVec.toNat h)
  rw [BitVec.toNat_ofNat] at hmask
  apply BitVec.eq_of_toNat_eq
  rw [encodeWX_toNat (xField v) ho (of_decide_eq_true (wordFits_wField v)), word_eq_fields v]
  omega

/-- A word that a row covers is the word of the row's command with the operands it holds. -/
theorem encode_withOperands {v : Word} {i : Instr} (h : RowCovers i v) : encode (withOperands v i) = v := by
  cases i with
  | nop | xors | cpsa | sc | sci | sr | sri | mc | mci | ksf | ksi | enc | dec => exact h.symm.trans (and_fullMask v)
  | lff w x | lfi w x => exact encodeWX_of_and_mask (by decide) h
  | ac r | art r | rnde r | rndd r => exact encodeRidx_of_and_mask (by decide) h

/-- A word that a row covers decodes to the row's command with the operands it holds. -/
theorem decode_of_row_covers {v : Word} {i : Instr} (h : RowCovers i v) : decode v = .ok (withOperands v i) := by
  have hd := decode_encode (wellFormed_withOperands v i)
  rwa [encode_withOperands h] at hd

/-! ### A word decodes: which row covers it then -/

section

variable {v : Word} {opc : Nat} {i j : Instr}

theorem toNat_ofNat_of_opcField (hopc : opcField v = opc) : (BitVec.ofNat 32 opc).toNat = opc := by
  rw [opcField_eq] at hopc
  rw [BitVec.toNat_ofNat]
  omega

theorem row_covers_of_decodePlain (hopc : opcField v = opc) (hrow : opcodeRow j = ⟨BitVec.ofNat 32 opc, 0xFFFFFFFF#32⟩)
    (h : decodePlain v j = .ok i) : RowCovers i v := by
  obtain ⟨rfl, hres, hridx, hw, hx⟩ := decodePlain_eq_ok_iff.mp h
  rw [RowCovers, hrow]
  apply BitVec.eq_of_toNat_eq
  rw [and_fullMask, word_eq_fields v, hopc, hres, hridx, hw, hx]
  exact (toNat_ofNat_of_opcField hopc).symm

theorem row_covers_of_decodeRidx {mk : Nat → Instr} (hopc : opcField v = opc)
    (hrow : ∀ r, opcodeRow (mk r) = ⟨BitVec.ofNat 32 opc, 0xFFFF00FF#32⟩) (h : decodeRidx v mk = .ok i) : RowCovers i v := by
  obtain ⟨rfl, hres, hw, hx⟩ := decodeRidx_eq_ok_iff.mp h
  rw [RowCovers, hrow]
  apply BitVec.eq_of_toNat_eq
  rw [and_ridxMask, hopc, hres, hw, hx]
  exact (toNat_ofNat_of_opcField hopc).symm

theorem row_covers_of_decodeWX {mk : Nat → Cell → Instr} (hopc : opcField v = opc)
    (hrow : ∀ w x, opcodeRow (mk w x) = ⟨BitVec.ofNat 32 opc, 0xFF00FFFF#32⟩) (h : decodeWX v mk = .ok i) : RowCovers i v := by
  obtain ⟨rfl, hres, hridx⟩ := decodeWX_eq_ok_iff.mp h
  rw [RowCovers, hrow]
  apply BitVec.eq_of_toNat_eq
  rw [and_wxMask, hopc, hres, hridx]
  exact (toNat_ofNat_of_opcField hopc).symm

/-- The row of the command a word decodes to covers the word. The alternatives of `decode` stand in the order of R116: LFF and LFI
are the fourth and fifth, AC, ART, RNDE and RNDD the eighth, ninth and last two, and the one after them is no opcode. -/
theorem row_covers_of_decode (h : decode v = .ok i) : RowCovers i v := by
  unfold decode at h
  split at h
  case h_4 hopc | h_5 hopc => exact row_covers_of_decodeWX hopc (fun _ _ => rfl) h
  case h_8 hopc | h_9 hopc | h_18 hopc | h_19 hopc => exact row_covers_of_decodeRidx hopc (fun _ => rfl) h
  case h_20 => cases h
  all_goals next hopc => exact row_covers_of_decodePlain hopc rfl h

end

/-- Settles O2: the command's row covers the word, which is then the word of the command with the operands it holds. -/
theorem encodeDecodeRoundTrip : Obligations.EncodeDecodeRoundTrip := by
  intro v i h
  have hrow := row_covers_of_decode h
  have hi : i = withOperands v i := Except.ok.inj (h.symm.trans (decode_of_row_covers hrow))
  rw [hi]
  exact ⟨wellFormed_withOperands v i, encode_withOperands hrow⟩

/-- Every mask of the opcode map keeps `OPC`, and every match lies in it. -/
theorem opcodeMap_rows_keep_opcode : ∀ j ∈ opcodeMap,
    (opcodeRow j).maskBits &&& 0xFF#32 = 0xFF#32 ∧ (opcodeRow j).matchBits &&& 0xFF#32 = (opcodeRow j).matchBits := by decide

/-- A row covers words of its own opcode only. -/
theorem opcode_of_row_covers {v : Word} {j : Instr} (hj : j ∈ opcodeMap) (h : RowCovers j v) :
    v &&& 0xFF#32 = (opcodeRow j).matchBits := by
  obtain ⟨hmask, hmatch⟩ := opcodeMap_rows_keep_opcode j hj
  rw [← hmatch, ← h, BitVec.and_assoc, hmask]

/-- The rows of the opcode map have different opcodes. -/
theorem opcodeMap_matchBits_inj :
    ∀ j ∈ opcodeMap, ∀ k ∈ opcodeMap, (opcodeRow j).matchBits = (opcodeRow k).matchBits → j = k := by decide

/-- Settles O3: decoding gives a covering row and a covering row gives the decoding; two rows differ in their opcode. -/
theorem opcodeMapDecides : Obligations.OpcodeMapDecides := by
  refine ⟨fun v => ⟨?_, ?_⟩, fun v i h => row_covers_of_decode h, fun v j hj k hk hjv hkv => ?_⟩
  · rintro ⟨i, h⟩
    refine ⟨withOperands 0 i, withOperands_zero_mem_opcodeMap i, ?_⟩
    rw [opcodeRow_withOperands]
    exact row_covers_of_decode h
  · rintro ⟨j, -, h⟩
    exact ⟨_, decode_of_row_covers h⟩
  · exact opcodeMap_matchBits_inj j hj k hk ((opcode_of_row_covers hj hjv).symm.trans (opcode_of_row_covers hk hkv))

/-- Settles O4: the decoder evaluated on the sample words. -/
theorem sampleWordsDecode : Obligations.SampleWordsDecode := by
  refine ⟨rfl, rfl, rfl, rfl, rfl, rfl, rfl, ?_⟩
  simp only [List.forall_mem_cons]
  exact ⟨nofun, nofun, nofun, nofun, nofun, nofun, nofun⟩

/-! ### A word that is no command -/

/-- A BUSY engine whose word is no command faults on its turn (R111). -/
theorem engineTurn_illegal {s : State} (hb : s.engine.phase = .busy) (hd : ∀ i, decode s.engine.cmd ≠ .ok i) :
    engineTurn s = .other (runIllegal s) := by
  rcases engineTurn_cases s with ⟨h, -⟩ | ⟨-, i, h, -⟩ | ⟨-, err, -, h⟩
  · exact absurd hb h
  · exact absurd h (hd i)
  · exact h

/-- Settles O6: the next move of a BUSY engine on its turn is the fault of the word it latched. -/
theorem illegalWordFaults : Obligations.IllegalWordFaults := by
  intro s hb hd
  refine ⟨fun hp => ?_, fun rest hp => ?_⟩
  · rw [step, nextMove_nil hp, engineTurn_illegal hb hd]
    rfl
  · rw [step, nextMove_turn hp, engineTurn_illegal (s := { s with pending := rest }) hb hd]
    rfl

end Sys2Proof.Proofs

/-! ## Two commands in a row that XOR into STATE (R141, R143, R144, R212, R213) -/

namespace Sys2Proof.Proofs

open Sys2Proof Sys2Proof.Machine Sys2Proof.Claims Sys2Proof.Laws

section

variable {i : Instr} {s t : State}

/-- The first of the commands is completed, and the others run from what it left. -/
theorem runAll_cons {is : List Instr} (h : exec i s = .next t) : runAll (i :: is) s = runAll is t := by
  rw [runAll, h]

/-- What a command that writes STATE answers when no cause applies to it. -/
theorem exec_eq_stateIs {m : Mat4} (h : runs i s.engine)
    (hw : commandEffect i Config.params s.engine = s.engine.setState m) : exec i s = .next (stateIs s m) := by
  rw [exec_of_runs h, hw]
  rfl

/-- No cause looks at STATE or the flags of completion (R331). -/
theorem runs_stateIs (m : Mat4) (h : runs i s.engine) : runs i (stateIs s m).engine := h

/-- A command that writes a layer of the engine into STATE restores STATE on its second run, if there the layer gives it back. -/
theorem runAll_twice_restores {layer : Engine → Mat4} (h : runs i s.engine)
    (hw : ∀ e, commandEffect i Config.params e = e.setState (layer e))
    (hback : layer (stateIs s (layer s.engine)).engine = s.engine.state) :
    runAll [i, i] s = .next (stateIs s s.engine.state) := by
  rw [runAll_cons (exec_eq_stateIs h (hw _)), runAll_cons (exec_eq_stateIs (runs_stateIs _ h) (hw _)), hback]
  rfl

end

/-- Every cell of a matrix XORed with itself is 0. -/
theorem xorMat_self_getElem (m : Mat4) (n : Fin 16) : (xorMat m m)[n] = 0 := by
  have h := cellAt_xorMat m m n.isLt
  rwa [BitVec.xor_self, cellAt_of_lt _ n.isLt] at h

/-- Settles O32: each layer cancels itself, as it reads registers that the first run left alone; and after CPSA both operands of
XORS are STATE. -/
theorem xorCommandsAreInvolutions : Obligations.XorCommandsAreInvolutions := by
  intro s
  have hxors (e : Engine) : runs .xors e := runs_iff_checks_pass.mpr rfl
  have hcpsa : runs .cpsa s.engine := runs_iff_checks_pass.mpr rfl
  refine ⟨?_, fun r h => ?_, fun r h => ?_, ?_⟩
  · exact runAll_twice_restores (hxors _) (fun _ => rfl) (xorMat_xorMat_cancel _ _)
  · exact runAll_twice_restores h (fun _ => rfl) (addConstants_cancel Config.params s.engine s.engine.state r)
  · exact runAll_twice_restores h (fun _ => rfl) (addRoundTweakey_cancel s.engine s.engine.state r)
  · rw [runAll_cons (exec_of_runs hcpsa), runAll_cons (exec_of_runs (hxors _))]
    exact ⟨_, rfl, xorMat_self_getElem s.engine.state⟩

end Sys2Proof.Proofs

/-! ## Accesses outside the window (R140) -/

namespace Sys2Proof.Proofs

open Sys2Proof Sys2Proof.Machine Sys2Proof.Laws

/-- An access at an offset of no register reaches none, whatever its width (R82). -/
theorem regOfAccess_eq_none_of_regAt {a : Access} (h : regAt a.off = none) : regOfAccess a = none := by
  unfold regOfAccess
  cases a.width with
  | w32 => exact h
  | w8 | w16 | w64 => rfl

/-- Settles O40: no register stands at 0x4000 or above, so the step is the bus error's answer. -/
theorem outsideWindowIsBusError : Obligations.OutsideWindowIsBusError := by
  intro s a rest hp hoff
  have hnone : regAt a.off = none := regAt_reserved (.inr (.inr (.inr (by omega))))
  rw [step_access hp, hostAccess, regOfAccess_eq_none_of_regAt hnone]
  rfl

end Sys2Proof.Proofs

/-! ## The LFSR commands (R161 to R164, R170, R171) -/

namespace Sys2Proof.Proofs

open Sys2Proof Sys2Proof.Machine Sys2Proof.Claims Sys2Proof.Laws

/-! ### The tables of Variants A and B, bit by bit -/

/-- `LFSR2` shifts up and puts the XOR of the two top bits at the bottom (R161). -/
theorem getLsbD_lfsr2 (x : Cell) :
    (lfsr2 x).getLsbD 3 = x.getLsbD 2 ∧ (lfsr2 x).getLsbD 2 = x.getLsbD 1 ∧ (lfsr2 x).getLsbD 1 = x.getLsbD 0 ∧
      (lfsr2 x).getLsbD 0 = (x.getLsbD 3 ^^ x.getLsbD 2) := by
  revert x; decide

/-- `LFSR3` shifts down and puts the XOR of the outer bits at the top (R162). -/
theorem getLsbD_lfsr3 (x : Cell) :
    (lfsr3 x).getLsbD 3 = (x.getLsbD 0 ^^ x.getLsbD 3) ∧ (lfsr3 x).getLsbD 2 = x.getLsbD 3 ∧
      (lfsr3 x).getLsbD 1 = x.getLsbD 2 ∧ (lfsr3 x).getLsbD 0 = x.getLsbD 1 := by
  revert x; decide

/-- Variants A and B share the LFSRs of words 1 and 2 (R163). -/
theorem lf_AB (p : Params) {v : Variant} (hv : v.isAB = true) : lf p v 1 = some lfsr2 ∧ lf p v 2 = some lfsr3 := by
  cases v with
  | a | b => exact ⟨rfl, rfl⟩
  | c | reserved => cases hv

/-! ### What LFF and LFI answer -/

section

variable {s : State} {w : Nat} {x : Cell}

theorem exec_lff_of_runs (h : runs (.lff w x) s.engine) :
    exec (.lff w x) s = .next (resultIs s (applyLfsr (lf Config.params s.engine.variant w) x)) := exec_of_runs h

theorem exec_lfi_of_runs (h : runs (.lfi w x) s.engine) :
    exec (.lfi w x) s = .next (resultIs s (applyLfsr (lfInv Config.params w) x)) := exec_of_runs h

/-- No check looks at the operand of LFI (R333). -/
theorem runs_lfi_operand (y : Cell) (h : runs (.lfi w x) s.engine) : runs (.lfi w y) s.engine := h

/-- The checks of LFF are among those of LFI (R333), and none looks at the operand. -/
theorem runs_lff_of_runs_lfi (y : Cell) (h : runs (.lfi w x) s.engine) : runs (.lff w y) s.engine := by
  have hsub : checksLff w ⊆ checksLfi w := by simp [checksLff, checksLfi]
  have hpass := firstFault_eq_none_iff.mp (runs_iff_checks_pass.mp h)
  exact runs_iff_checks_pass.mpr (firstFault_eq_none_iff.mpr fun k hk => hpass k (hsub hk))

/-- LFF runs under Variant A or B unless `CFG.VARIANT` is 2 (R331). -/
theorem isAB_of_runs_lff (h : runs (.lff w x) s.engine) (hv : s.engine.cfg.variant ≠ 2) :
    s.engine.variant.isAB = true := by
  have hr := variant_ne_reserved_of_checks (runs_iff_checks_pass.mp h) rfl
  rw [← Bool.not_eq_false, isAB_eq_false_iff hr, variant_eq_c_iff]
  exact hv

end

/-- Settles O15: RESULT is the entry of R163's table at the variant and the word. -/
theorem lffResult : Obligations.LffResult := by
  intro s w x h
  refine ⟨_, exec_lff_of_runs h, fun hv hw => ?_, fun hv hw => ?_, fun hv hw => ?_, fun hv hw => ?_, fun hv hw => ?_,
    fun hv hw => ?_⟩
  · rw [hw, (lf_AB _ (isAB_of_runs_lff h hv)).1]; exact getLsbD_lfsr2 x
  · rw [hw, (lf_AB _ (isAB_of_runs_lff h hv)).2]; exact getLsbD_lfsr3 x
  · rw [hw, variant_eq_b_iff.mpr hv]; rfl
  all_goals rw [hw, variant_eq_c_iff.mpr hv]; rfl

/-- Settles O16: LFI runs under Variant C only, so LFF of the word runs there too, and the two LFSRs of the word cancel in
either order (R164). -/
theorem lfiResult : Obligations.LfiResult := by
  intro s w x h
  have hc : s.engine.variant = .c := variant_eq_c_of_checks (runs_iff_checks_pass.mp h) rfl
  refine ⟨_, exec_lfi_of_runs h, ?_, ?_, ?_, ?_, _, exec_lff_of_runs (runs_lff_of_runs_lfi x h), ?_⟩
  · rintro rfl; rfl
  · rintro rfl; rfl
  · rintro rfl; rfl
  · rw [exec_lff_of_runs (runs_lff_of_runs_lfi _ h), hc, applyLfsr_fwd_inv]
  · rw [exec_lfi_of_runs (runs_lfi_operand _ h), hc, applyLfsr_inv_fwd]

end Sys2Proof.Proofs

/-! ## The round layers on STATE (R190 to R201, R210 to R217) -/

namespace Sys2Proof.Proofs

open Sys2Proof Sys2Proof.Machine Sys2Proof.Claims Sys2Proof.Laws

/-! ### Cells by index -/

theorem getElem_tabulate (f : Nat → Cell) (n : Fin 16) : (tabulate f)[n] = f n := by simp [tabulate]

theorem cellAt_fin (m : Mat4) (n : Fin 16) : cellAt m n = m[n] := cellAt_of_lt m n.isLt

/-! ### The layer commands without a cause -/

/-- In every state the command puts `f` of STATE into STATE, completes, and does nothing else. -/
def AppliesLayer (i : Instr) (f : Mat4 → Mat4) : Prop := ∀ s, exec i s = .next (stateIs s (f s.engine.state))

theorem sc_appliesLayer : AppliesLayer .sc subCells := fun _ => exec_passes rfl
theorem sci_appliesLayer : AppliesLayer .sci subCellsInv := fun _ => exec_passes rfl
theorem sr_appliesLayer : AppliesLayer .sr shiftRows := fun _ => exec_passes rfl
theorem sri_appliesLayer : AppliesLayer .sri shiftRowsInv := fun _ => exec_passes rfl
theorem mc_appliesLayer : AppliesLayer .mc mixColumns := fun _ => exec_passes rfl
theorem mci_appliesLayer : AppliesLayer .mci mixColumnsInv := fun _ => exec_passes rfl

/-! ### SubCells (R190 to R192) -/

/-- The model's table of `S4` and the claims' hold the same values (R190). -/
theorem cellTable_sboxTable (x : Cell) : cellTable sboxTable x = sbox x := by revert x; decide

/-- `S4` takes the entry of the inverse table back (R191). -/
theorem sbox_cellTable_sboxInvTable (x : Cell) : sbox (cellTable sboxInvTable x) = x := by revert x; decide

/-- Settles O17: SC and SCI look each cell up in their table. -/
theorem subCellsResult : Obligations.SubCellsResult := by
  refine ⟨fun s => ⟨_, sc_appliesLayer s, fun n => ?_⟩, fun s => ⟨_, sci_appliesLayer s, fun n => ?_⟩⟩
  · rw [subCells, getElem_tabulate, cellTable_sboxTable, cellAt_fin]
  · rw [subCellsInv, getElem_tabulate, sbox_cellTable_sboxInvTable, cellAt_fin]

/-! ### ShiftRows (R198, R199) -/

/-- `P_SR` takes place `j` of row `i` from place `j - i` (R198). -/
theorem shiftRowsTable_eq : ∀ i < 4, ∀ j < 4, shiftRowsTable.getD (4 * i + j) 0 = 4 * i + (j + 4 - i) % 4 := by decide

/-- `P_SRI` takes place `j` of row `i` from place `j + i` (R199). -/
theorem shiftRowsInvTable_eq : ∀ i < 4, ∀ j < 4, shiftRowsInvTable.getD (4 * i + j) 0 = 4 * i + (j + i) % 4 := by decide

/-- Settles O22: SR and SRI permute the cells by tables that rotate each row. -/
theorem shiftRowsResult : Obligations.ShiftRowsResult := by
  refine ⟨fun s => ⟨_, sr_appliesLayer s, fun i j hi hj => ?_⟩, fun s => ⟨_, sri_appliesLayer s, fun i j hi hj => ?_⟩⟩
  · rw [shiftRows, cellAt_permuteCells _ _ (by omega), shiftRowsTable_eq i hi j hj]
  · rw [shiftRowsInv, cellAt_permuteCells _ _ (by omega), shiftRowsInvTable_eq i hi j hj]

/-- Three rotations right by `i` of four places are one rotation left by `i` (R199). -/
theorem shiftRows_thrice (m : Mat4) : shiftRows (shiftRows (shiftRows m)) = shiftRowsInv m := cells_ext fun n hn => by
  have hlt : ∀ n, n < 16 → shiftRowsTable.getD n 0 < 16 := by decide
  have hthree : ∀ n, n < 16 →
      shiftRowsTable.getD (shiftRowsTable.getD (shiftRowsTable.getD n 0) 0) 0 = shiftRowsInvTable.getD n 0 := by decide
  rw [shiftRows, shiftRows, shiftRows, shiftRowsInv, cellAt_permuteCells _ _ hn, cellAt_permuteCells _ _ (hlt _ hn),
    cellAt_permuteCells _ _ (hlt _ (hlt _ hn)), cellAt_permuteCells _ _ hn, hthree n hn]

/-! ### MixColumns (R200, R201) -/

section

variable (m : Mat4) {j : Nat} (hj : j < 4)

include hj

/-- A column after MixColumns: the rows of `M` times the column (R200). -/
theorem mixColumns_column :
    cellAt (mixColumns m) j = cellAt m j ^^^ cellAt m (8 + j) ^^^ cellAt m (12 + j) ∧
    cellAt (mixColumns m) (4 + j) = cellAt m j ∧
    cellAt (mixColumns m) (8 + j) = cellAt m (4 + j) ^^^ cellAt m (8 + j) ∧
    cellAt (mixColumns m) (12 + j) = cellAt m j ^^^ cellAt m (8 + j) := by
  have row {i : Nat} (hi : i < 4) := cellAt_mixColumns m hi hj
  refine ⟨?_, row (i := 1) (by omega), row (i := 2) (by omega), row (i := 3) (by omega)⟩
  have h0 := row (i := 0) (by omega)
  rwa [Nat.mul_zero, Nat.zero_add] at h0

/-- A column after the inverse: the rows of `M_INV` times the column (R201). -/
theorem mixColumnsInv_column :
    cellAt (mixColumnsInv m) j = cellAt m (4 + j) ∧
    cellAt (mixColumnsInv m) (4 + j) = cellAt m (4 + j) ^^^ cellAt m (8 + j) ^^^ cellAt m (12 + j) ∧
    cellAt (mixColumnsInv m) (8 + j) = cellAt m (4 + j) ^^^ cellAt m (12 + j) ∧
    cellAt (mixColumnsInv m) (12 + j) = cellAt m j ^^^ cellAt m (12 + j) := by
  have row {i : Nat} (hi : i < 4) := cellAt_mixColumnsInv m hi hj
  refine ⟨?_, row (i := 1) (by omega), row (i := 2) (by omega), row (i := 3) (by omega)⟩
  have h0 := row (i := 0) (by omega)
  rwa [Nat.mul_zero, Nat.zero_add] at h0

end

/-- Settles O23: MC and MCI multiply each column. -/
theorem mixColumnsResult : Obligations.MixColumnsResult := by
  refine ⟨fun s => ⟨_, mc_appliesLayer s, fun j hj => ?_⟩, fun s => ⟨_, mci_appliesLayer s, fun j hj => ?_⟩⟩
  · simpa using mixColumns_column s.engine.state hj
  · simpa using mixColumnsInv_column s.engine.state hj

/-- Settles O24: row 2 is used after its own XOR, so row 3 collects rows 0, 2 and 3, and XOR commutes. -/
theorem mixColumnsIsXorsAndRotation : Obligations.MixColumnsIsXorsAndRotation := by
  intro s
  refine ⟨_, mc_appliesLayer s, fun j hj => ?_⟩
  obtain ⟨h0, h1, h2, h3⟩ := mixColumns_column s.engine.state hj
  have hrow2 := BitVec.xor_comm (cellAt s.engine.state j) (cellAt s.engine.state (8 + j))
  exact ⟨by rw [h0, hrow2, BitVec.xor_comm], h1, h2, h3.trans hrow2⟩

/-! ### Layers that undo each other (R211, R215, R217) -/

/-- Two layer commands in a row restore STATE when the second layer undoes the first. -/
theorem runAll_layers_cancel {i j : Instr} {f g : Mat4 → Mat4} (hi : AppliesLayer i f) (hj : AppliesLayer j g)
    (h : ∀ m, g (f m) = m) (s : State) : runAll [i, j] s = .next (stateIs s s.engine.state) := by
  rw [runAll_cons (hi s), runAll_cons (hj _)]
  exact congrArg (fun m => Host.Outcome.next (stateIs s m)) (h s.engine.state)

/-- Three SR in a row answer what SRI answers, and go on from there (R199). -/
theorem runAll_three_sr (is : List Instr) (s : State) :
    runAll (.sr :: .sr :: .sr :: is) s = runAll is (stateIs s (shiftRowsInv s.engine.state)) := by
  rw [runAll_cons (sr_appliesLayer s), runAll_cons (sr_appliesLayer _), runAll_cons (sr_appliesLayer _)]
  exact congrArg (fun m => runAll is (stateIs s m)) (shiftRows_thrice s.engine.state)

/-- Settles O31: each layer function undoes its inverse, and three SR are one SRI, which the fourth undoes. -/
theorem layersUndoEachOther : Obligations.LayersUndoEachOther := by
  intro s
  refine ⟨?_, (runAll_three_sr [] s).trans (sri_appliesLayer s).symm⟩
  simp only [List.forall_mem_cons]
  refine ⟨?_, ?_, ?_, ?_, ?_, ?_, ?_, List.forall_mem_nil _⟩
  · exact runAll_layers_cancel sc_appliesLayer sci_appliesLayer subCellsInv_subCells s
  · exact runAll_layers_cancel sci_appliesLayer sc_appliesLayer subCells_subCellsInv s
  · exact runAll_layers_cancel sr_appliesLayer sri_appliesLayer shiftRowsInv_shiftRows s
  · exact runAll_layers_cancel sri_appliesLayer sr_appliesLayer shiftRows_shiftRowsInv s
  · exact runAll_layers_cancel mc_appliesLayer mci_appliesLayer mixColumnsInv_mixColumns s
  · exact runAll_layers_cancel mci_appliesLayer mc_appliesLayer mixColumns_mixColumnsInv s
  · rw [runAll_three_sr, runAll_cons (sr_appliesLayer _)]
    exact congrArg (fun m => Host.Outcome.next (stateIs s m)) (shiftRows_shiftRowsInv s.engine.state)

end Sys2Proof.Proofs

/-! ## AC and ART under each variant (R193 to R197, R212, R213) -/

namespace Sys2Proof.Proofs

open Sys2Proof Sys2Proof.Machine Sys2Proof.Claims Sys2Proof.Laws

section

variable {i : Instr} {s : State} {r : Nat}

/-! ### What follows when no cause applies -/

/-- A command that checks the variant runs under Variant A or B unless `CFG.VARIANT` is 2 (R331). -/
theorem isAB_of_runs {e : Engine} (h : runs i e) (hu : usesVariant i = true) (hv : e.cfg.variant ≠ 2) :
    e.variant.isAB = true := by
  rw [← Bool.not_eq_false, isAB_eq_false_iff (variant_ne_reserved_of_checks (runs_iff_checks_pass.mp h) hu), variant_eq_c_iff]
  exact hv

theorem isAB_of_variant_two {e : Engine} (hv : e.cfg.variant = 2) : e.variant.isAB = false := by
  rw [variant_eq_c_iff.mpr hv]; rfl

/-- The round index of a command that runs is below the limit (R331). -/
theorem roundIndex_lt_of_runs {e : Engine} (h : runs i e) (hr : roundIndexOf i = some r) :
    r < roundLimit Config.params e.cfg :=
  Nat.lt_of_not_le fun hle => h .badRoundIndex ⟨r, hr, hle⟩

/-! ### AddConstants -/

theorem exec_ac_of_isAB (h : runs (.ac r) s.engine) (hv : s.engine.variant.isAB = true) :
    exec (.ac r) s = .next (stateIs s (addConstantsAB s.engine.state r)) :=
  exec_eq_stateIs h (by rw [commandEffect, addConstants, if_pos hv])

theorem exec_ac_of_not_isAB (h : runs (.ac r) s.engine) (hv : s.engine.variant.isAB = false) :
    exec (.ac r) s = .next (stateIs s (addConstantsC Config.params s.engine.key s.engine.state r)) :=
  exec_eq_stateIs h (by rw [commandEffect, addConstants, hv, if_neg Bool.false_ne_true])

/-! ### AddRoundTweakey -/

theorem exec_art_of_isAB (h : runs (.art r) s.engine) (hv : s.engine.variant.isAB = true) :
    exec (.art r) s = .next (stateIs s (addTweakeyAB s.engine s.engine.state r)) :=
  exec_eq_stateIs h (by rw [commandEffect, addRoundTweakey, if_pos hv])

theorem exec_art_of_not_isAB (h : runs (.art r) s.engine) (hv : s.engine.variant.isAB = false) :
    exec (.art r) s = .next (stateIs s (addTweakeyC s.engine s.engine.state r)) :=
  exec_eq_stateIs h (by rw [commandEffect, addRoundTweakey, hv, if_neg Bool.false_ne_true])

end

/-! ### The round constants (R193, R194) -/

/-- One entry of the table of round constants is one LFSR step from the entry before. -/
theorem roundConstant_succ : ∀ r, r < 61 → roundConstant (r + 1) =
    (roundConstant r <<< 1) |||
      (BitVec.ofBool ((roundConstant r).getLsbD 5 ^^ (roundConstant r).getLsbD 4 ^^ true)).setWidth 6 := by
  decide

/-- The table of round constants is the run of the LFSR from 0. -/
theorem roundConstant_eq_rcLfsr {r : Nat} (h : r < 62) : roundConstant r = rcLfsr (r + 1) := by
  induction r with
  | zero => rfl
  | succ r ih => rw [roundConstant_succ r (by omega), ih (by omega)]; rfl

theorem getElem_addConstantsAB (m : Mat4) (r : Nat) (n : Fin 16) :
    (addConstantsAB m r)[n] = m[n] ^^^ constantCellAB r n := by
  rw [addConstantsAB, getElem_tabulate, cellAt_fin]

theorem constantCellAB_other (r : Nat) {n : Nat} (h0 : n ≠ 0) (h4 : n ≠ 4) (h8 : n ≠ 8) : constantCellAB r n = 0 := by
  simp [constantCellAB]

/-- Settles O18: below the round limit the table of round constants is the LFSR's run, and only cells 0, 4 and 8 get a part of
it. -/
theorem acResultSimpleVariants : Obligations.AcResultSimpleVariants := by
  intro s r h hv
  have hlimit := roundIndex_lt_of_runs h rfl
  rw [roundLimit, if_neg hv] at hlimit
  rw [← roundConstant_eq_rcLfsr hlimit]
  refine ⟨_, exec_ac_of_isAB h (isAB_of_runs h rfl hv), getElem_addConstantsAB _ r 0, getElem_addConstantsAB _ r 4,
    getElem_addConstantsAB _ r 8, fun n h0 h4 h8 => ?_⟩
  rw [getElem_addConstantsAB, constantCellAB_other r (by omega) (by omega) (by omega)]
  exact BitVec.xor_zero

/-- Settles O19: AC under Variant C is the XOR with the matrix of the seed and the round index. -/
theorem acResultVariantC : Obligations.AcResultVariantC := by
  intro s r h hv
  refine ⟨_, exec_ac_of_not_isAB h (isAB_of_variant_two hv), fun n => ?_⟩
  rw [addConstantsC, ← cellAt_fin, cellAt_xorMat _ _ n.isLt, cellAt_fin, cellAt_fin, keySeed, cellAt_of_lt _ (by omega)]

/-! ### The round tweakey (R196, R197) -/

/-- The model's sum over the words of an entry is the claims'. -/
theorem tweakeyCell_eq_wordsXor (sched : Memory) (z r n : Nat) : tweakeyCell sched z r n = wordsXor sched r n z := by
  induction z with
  | zero => rfl
  | succ z ih => rw [wordsXor, ← ih, tweakeyCell, List.range_succ, List.foldl_append]; rfl

/-- Settles O20: rows 0 and 1 get the sum of the entry's words, rows 2 and 3 nothing. -/
theorem artResultSimpleVariants : Obligations.ArtResultSimpleVariants := by
  intro s r h hv
  refine ⟨_, exec_art_of_isAB h (isAB_of_runs h rfl hv), fun n => ?_⟩
  rw [addTweakeyAB, getElem_tabulate, tweakeyCell_eq_wordsXor, cellAt_fin]
  rfl

/-- Settles O21: rows 0 and 1 get the sum of four words, rows 2 and 3 the sub-key. -/
theorem artResultVariantC : Obligations.ArtResultVariantC := by
  intro s r h hv
  refine ⟨_, exec_art_of_not_isAB h (isAB_of_variant_two hv), fun n hn => ?_, fun n hn => ?_⟩
  · rw [addTweakeyC, getElem_tabulate, if_pos hn, cellAt_fin]
    simp only [wordsXor, BitVec.xor_assoc]
    exact congrArg (s.engine.state[n] ^^^ ·) BitVec.zero_xor.symm
  · rw [addTweakeyC, getElem_tabulate, if_neg (by omega), cellAt_fin]
    rfl

end Sys2Proof.Proofs

/-! ## Variant B with at most three words is Variant A (R202, R250, R280) -/

namespace Sys2Proof.Proofs

open Sys2Proof Sys2Proof.Machine Sys2Proof.Claims Sys2Proof.Laws

/-- The engine of `asVariantB`. -/
def engineAsB (e : Engine) : Engine := { e with cfg := { e.cfg with variant := 1 } }

theorem asVariantB_eq (s : State) : asVariantB s = { s with engine := engineAsB s.engine } := rfl

/-! ### The functions that look at the variant -/

/-- Variant B has one LFSR more than Variant A (R163). -/
theorem lf_b_eq_lf_a (p : Params) {w : Nat} (hw : w ≠ 3) : lf p .b w = lf p .a w := by
  match w, hw with
  | 0, _ | 1, _ | 2, _ | _ + 4, _ => rfl

/-- The default round counts agree up to three words (R10). -/
theorem rDef_b_eq_rDef_a (p : Params) {z : Nat} (hz : z ≤ 3) : rDef p .b z = rDef p .a z := by
  match z, hz with
  | 0, _ | 1, _ | 2, _ | 3, _ => rfl

/-- Up to three words are stepped alike (R242). -/
theorem tkStep_b_eq_tkStep_a (p : Params) {ts : List Mat4} (h : ts.length ≤ 3) : tkStep p .b ts = tkStep p .a ts := by
  refine List.ext_getElem? fun w => ?_
  rw [getElem?_tkStep, getElem?_tkStep]
  by_cases hw : w < ts.length
  · rw [List.getElem?_eq_getElem hw, Option.map_some, Option.map_some, tkStepWord, tkStepWord, lf_b_eq_lf_a p (by omega)]
  · rw [List.getElem?_eq_none (by omega)]; rfl

theorem scheduleForward_b_eq_a (p : Params) (r : Nat) {ts : List Mat4} (h : ts.length ≤ 3) :
    scheduleForward p .b r ts = scheduleForward p .a r ts := by
  induction r generalizing ts with
  | zero => rfl
  | succ r ih =>
    rw [scheduleForward, scheduleForward, tkStep_b_eq_tkStep_a p h, ih (by rwa [length_tkStep])]

section

variable {e : Engine} {i : Instr} (p : Params)

@[simp] theorem engineAsB_variant : (engineAsB e).variant = .b := rfl
@[simp] theorem engineAsB_z : (engineAsB e).z = e.z := rfl

theorem rEff_engineAsB (hv : e.variant = .a) (hz : e.z ≤ 3) : rEff p (engineAsB e) = rEff p e := by
  rw [rEff, rEff, hv, engineAsB_variant, engineAsB_z, rDef_b_eq_rDef_a p hz]
  rfl

/-! ### Checks -/

/-- A check passes alike, but for the LFSR that only Variant B has. -/
theorem checkPasses_engineAsB (hv : e.variant = .a) (hz : e.z ≤ 3) {k : Check} (hk : k ≠ .lfsrWord 3) :
    checkPasses p (engineAsB e) k = checkPasses p e k := by
  cases k with
  | variant | onlyC | keyFormat => simp [checkPasses, hv]
  | tkCount =>
    have hmost : decide (e.z ≤ 4) = decide (e.z ≤ 3) := decide_eq_decide.mpr (by omega)
    rw [checkPasses, checkPasses, hv]
    exact congrArg (decide (1 ≤ e.z) && ·) hmost
  | rounds => rw [checkPasses, checkPasses, rEff_engineAsB p hv hz, hv]; rfl
  | roundIndex r => rw [checkPasses, checkPasses, hv]; rfl
  | lfsrWord w =>
    have hw : w ≠ 3 := fun h => hk (congrArg _ h)
    have hmost : decide (w ≤ 3) = decide (w ≤ 2) := decide_eq_decide.mpr (by omega)
    rw [checkPasses, checkPasses, hv]
    exact congrArg (decide (1 ≤ w) && ·) hmost
  | schedule r => rfl

/-- Only LFF of word 3 has its check of the LFSR answered otherwise, among the commands that Variant A has. -/
theorem ne_lfsrWord_three {k : Check} (hC : onlyVariantC i = false) (hi : ∀ x, i ≠ .lff 3 x) (hk : k ∈ commandChecks i) :
    k ≠ .lfsrWord 3 := by
  rintro rfl
  have hw : lfsrWordOf i = some 3 := mem_commandChecks_iff.mp hk
  cases i with
  | lff w x => cases hw; exact hi x rfl
  | lfi w x => cases hC
  | nop | xors | cpsa | sc | sci | ac r | art r | sr | sri | mc | mci | ksf | ksi | enc | dec | rnde r | rndd r => cases hw

theorem firstFault_engineAsB (hv : e.variant = .a) (hz : e.z ≤ 3) (hC : onlyVariantC i = false) (hi : ∀ x, i ≠ .lff 3 x) :
    firstFault p (engineAsB e) (commandChecks i) = firstFault p e (commandChecks i) :=
  firstFault_congr fun _ hk => checkPasses_engineAsB p hv hz (ne_lfsrWord_three hC hi hk)

/-- A command of Variant C only faults under Variants A and B, before any check of its operands (R332). -/
theorem firstFault_onlyVariantC_AB (hv : e.variant.isAB = true) (hC : onlyVariantC i = true) :
    firstFault p e (commandChecks i) = some .notImplemented := by
  have hchecks : ∃ ks, commandChecks i = .variant :: .onlyC :: ks := by
    cases i with
    | lfi w x | ksi | dec | rndd r => exact ⟨_, rfl⟩
    | nop | xors | cpsa | lff w x | sc | sci | ac r | art r | sr | sri | mc | mci | ksf | enc | rnde r => cases hC
  obtain ⟨ks, hks⟩ := hchecks
  rw [hks]
  cases he : e.variant with
  | a | b => simp [firstFault, checkPasses, he, Check.fault]
  | c | reserved => rw [he] at hv; cases hv

/-! ### Effects -/

theorem addConstants_engineAsB (hv : e.variant = .a) (m : Mat4) (r : Nat) :
    addConstants p (engineAsB e) m r = addConstants p e m r := by
  rw [addConstants, addConstants, hv]; rfl

theorem addRoundTweakey_engineAsB (hv : e.variant = .a) (m : Mat4) (r : Nat) :
    addRoundTweakey (engineAsB e) m r = addRoundTweakey e m r := by
  rw [addRoundTweakey, addRoundTweakey, hv]; rfl

theorem roundF_engineAsB (hv : e.variant = .a) (m : Mat4) (r : Nat) : roundF p (engineAsB e) m r = roundF p e m r := by
  rw [roundF, roundF, addConstants_engineAsB p hv, addRoundTweakey_engineAsB hv]

theorem encrypt_engineAsB (hv : e.variant = .a) (m : Mat4) (r : Nat) : encrypt p (engineAsB e) m r = encrypt p e m r := by
  induction r with
  | zero => rfl
  | succ r ih => rw [encrypt, encrypt, ih, roundF_engineAsB p hv]

/-- The schedule of up to three words is the same, from the same cells of KEY (R240, R250). -/
theorem buildSchedule_engineAsB (hv : e.variant = .a) (hz : e.z ≤ 3) :
    buildSchedule p (engineAsB e) = engineAsB (buildSchedule p e) := by
  have hlen : (tkWords .b e.z e.key).length ≤ 3 := by rwa [length_tkWords]
  rw [buildSchedule, buildSchedule, rEff_engineAsB p hv hz, hv, engineAsB_variant, engineAsB_z]
  exact congrArg (fun es => storeSchedule es (engineAsB e)) (scheduleForward_b_eq_a p (rEff p e) hlen)

theorem commandEffect_engineAsB (hv : e.variant = .a) (hz : e.z ≤ 3) (hC : onlyVariantC i = false)
    (hi : ∀ x, i ≠ .lff 3 x) : commandEffect i p (engineAsB e) = engineAsB (commandEffect i p e) := by
  cases i with
  | nop | xors | cpsa | sc | sci | sr | sri | mc | mci => rfl
  | lff w x =>
    have hw : w ≠ 3 := by rintro rfl; exact hi x rfl
    rw [commandEffect, commandEffect, lffEffect, lffEffect, hv, engineAsB_variant, lf_b_eq_lf_a p hw]; rfl
  | ac r => rw [commandEffect, addConstants_engineAsB p hv]; rfl
  | art r => rw [commandEffect, addRoundTweakey_engineAsB hv]; rfl
  | rnde r => rw [commandEffect, roundF_engineAsB p hv]; rfl
  | ksf => exact buildSchedule_engineAsB p hv hz
  | enc =>
    rw [commandEffect, encEffect, buildSchedule_engineAsB p hv hz, rEff_engineAsB p hv hz,
      encrypt_engineAsB p (e := buildSchedule p e) hv]
    rfl
  | lfi w x | ksi | dec | rndd r => cases hC

/-! ### Completion -/

/-- A command completes alike: the same fault, or the same effect. -/
theorem completed_engineAsB (hv : e.variant = .a) (hz : e.z ≤ 3) (hi : ∀ x, i ≠ .lff 3 x) :
    completed i (engineAsB e) = engineAsB (completed i e) := by
  unfold completed completeCommand
  cases hC : onlyVariantC i with
  | true =>
    rw [firstFault_onlyVariantC_AB (e := engineAsB e) _ rfl hC, firstFault_onlyVariantC_AB (e := e) _ (by rw [hv]; rfl) hC]
    rfl
  | false =>
    rw [firstFault_engineAsB _ hv hz hC hi]
    cases firstFault Config.params e (commandChecks i) with
    | some c => rfl
    | none => simp only [commandEffect_engineAsB _ hv hz hC hi]; rfl

end

/-- Settles O37: up to three words no check, layer or schedule tells Variant B from Variant A, but for the LFSR of word 3. -/
theorem variantBExtendsVariantA : Obligations.VariantBExtendsVariantA := by
  intro i s hv hz hi
  refine ⟨_, exec_eq_completed i s, ?_⟩
  rw [exec_eq_completed]
  exact congrArg (fun e => Host.Outcome.next { s with engine := e })
    (completed_engineAsB (variant_eq_a_iff.mpr hv) hz hi)

end Sys2Proof.Proofs

/-! ## A step of the tweakey schedule is linear, and word 0 has period 16 (R241, R247) -/

namespace Sys2Proof.Proofs

open Sys2Proof Sys2Proof.Machine Sys2Proof.Claims Sys2Proof.Laws

/-! ### The LFSRs are linear (R11, R160 to R164) -/

/-- Linear over XOR (R160). -/
def XorLinear (f : Cell → Cell) : Prop := ∀ x y, f (x ^^^ y) = f x ^^^ f y

theorem lfsr2_linear : XorLinear lfsr2 := (by decide +kernel : ∀ x y, lfsr2 (x ^^^ y) = lfsr2 x ^^^ lfsr2 y)

theorem lfsr3_linear : XorLinear lfsr3 := (by decide +kernel : ∀ x y, lfsr3 (x ^^^ y) = lfsr3 x ^^^ lfsr3 y)

/-- The inverse of a linear LFSR is linear (R11). -/
theorem lfsrPair_inv_linear (l : LfsrPair) : XorLinear l.inv := fun x y =>
  calc l.inv (x ^^^ y) = l.inv (l.fwd (l.inv x ^^^ l.inv y)) := by rw [l.linear, l.fwd_inv, l.fwd_inv]
    _ = l.inv x ^^^ l.inv y := l.inv_fwd _

/-- Every LFSR that a forward step applies is linear (R163). -/
theorem applyLfsr_lf_linear (p : Params) (v : Variant) (w : Nat) : XorLinear (applyLfsr (lf p v w)) := by
  unfold lf
  split
  · exact lfsr2_linear
  · exact lfsr3_linear
  · exact lfsr2_linear
  · exact lfsr3_linear
  · exact p.lfsrB4.linear
  · cases lfsrPairC p w with
    | none => exact fun _ _ => rfl
    | some l => exact l.linear
  · exact fun _ _ => rfl

/-- Every LFSR that an inverse step applies is linear (R164). -/
theorem applyLfsr_lfInv_linear (p : Params) (w : Nat) : XorLinear (applyLfsr (lfInv p w)) := by
  unfold lfInv
  cases lfsrPairC p w with
  | none => exact fun _ _ => rfl
  | some l => exact lfsrPair_inv_linear l

/-! ### The two parts of a step -/

theorem lfsrTopRows_xorMat {f : Option (Cell → Cell)} (hf : XorLinear (applyLfsr f)) (a b : Mat4) :
    lfsrTopRows f (xorMat a b) = xorMat (lfsrTopRows f a) (lfsrTopRows f b) :=
  cells_ext fun n hn => by
    simp only [cellAt_xorMat _ _ hn, cellAt_lfsrTopRows _ _ hn]
    split
    · exact hf _ _
    · rfl

theorem permuteCells_xorMat {t : List Nat} (ht : ∀ n < 16, t.getD n 0 < 16) (a b : Mat4) :
    permuteCells t (xorMat a b) = xorMat (permuteCells t a) (permuteCells t b) :=
  cells_ext fun n hn => by
    rw [cellAt_xorMat _ _ hn, cellAt_permuteCells _ _ hn, cellAt_permuteCells _ _ hn, cellAt_permuteCells _ _ hn,
      cellAt_xorMat _ _ (ht n hn)]

theorem ptTable_lt : ∀ n < 16, ptTable.getD n 0 < 16 := by decide

theorem ptInvTable_lt : ∀ n < 16, ptInvTable.getD n 0 < 16 := by decide

theorem tkStepWord_xorMat (p : Params) (v : Variant) (w : Nat) (a b : Mat4) :
    tkStepWord p v w (xorMat a b) = xorMat (tkStepWord p v w a) (tkStepWord p v w b) := by
  rw [tkStepWord, permuteCells_xorMat ptTable_lt, lfsrTopRows_xorMat (applyLfsr_lf_linear p v w)]
  rfl

theorem tkInvStepWord_xorMat (p : Params) (w : Nat) (a b : Mat4) :
    tkInvStepWord p w (xorMat a b) = xorMat (tkInvStepWord p w a) (tkInvStepWord p w b) := by
  rw [tkInvStepWord, lfsrTopRows_xorMat (applyLfsr_lfInv_linear p w), permuteCells_xorMat ptInvTable_lt]
  rfl

/-! ### Word 0 is permuted only -/

/-- No variant has an LFSR for word 0 (R163). -/
theorem lf_zero (p : Params) (v : Variant) : lf p v 0 = none := by cases v <;> rfl

theorem lfInv_zero (p : Params) : lfInv p 0 = none := rfl

theorem lfsrTopRows_none (t : Mat4) : lfsrTopRows none t = t :=
  cells_ext fun n hn => by rw [cellAt_lfsrTopRows _ _ hn]; exact ite_self _

theorem tkStepWord_zero (p : Params) (v : Variant) : tkStepWord p v 0 = permuteCells ptTable := by
  funext t
  rw [tkStepWord, lf_zero, lfsrTopRows_none]

/-- The model's permutation is the one of the claims (R241). -/
theorem ptTable_getD (n : Nat) : ptTable.getD n 0 = pt n := rfl

/-- After `n` permutations a cell holds what stood `n` steps along `PT`. -/
theorem cellAt_iterate_permute_pt (n : Nat) (a : Mat4) {k : Nat} (hk : k < 16) :
    cellAt ((permuteCells ptTable)^[n] a) k = cellAt a (pt^[n] k) := by
  induction n generalizing k with
  | zero => rfl
  | succ n ih =>
    rw [Function.iterate_succ_apply', cellAt_permuteCells _ _ hk, ih (ptTable_lt k hk), ptTable_getD,
      ← Function.iterate_succ_apply]

/-- `PT` has order 16 (R247). -/
theorem pt_iterate_sixteen : ∀ k < 16, pt^[16] k = k := by decide

/-- The cycle of cell 0 is back at cell 0 after 16 steps and not before (R247). -/
theorem pt_iterate_zero : ∀ n < 16, 0 < n → pt^[n] 0 < 16 ∧ pt^[n] 0 ≠ 0 := by decide

/-- A matrix whose cell 0 alone is not 0. -/
def cellZeroMarked : Mat4 := tabulate fun k => if k = 0 then 1 else 0

theorem cellAt_cellZeroMarked {k : Nat} (hk : k < 16) : cellAt cellZeroMarked k = if k = 0 then 1 else 0 :=
  cellAt_tabulate _ hk

/-- Settles O36: permutation and LFSR are linear each; word 0 moves along the one cycle of `PT`, and the mark on cell 0 shows that
no shorter iterate is the identity. -/
theorem scheduleStepIsLinear : Obligations.ScheduleStepIsLinear := by
  intro p v
  refine ⟨tkStepWord_xorMat p v, tkInvStepWord_xorMat p, ?_⟩
  rw [tkStepWord_zero]
  refine ⟨fun a => cells_ext fun k hk => ?_, fun n hpos hn => ⟨cellZeroMarked, fun h => ?_⟩⟩
  · rw [cellAt_iterate_permute_pt _ _ hk, pt_iterate_sixteen k hk]
  · obtain ⟨hlt, hne⟩ := pt_iterate_zero n hn hpos
    have hcell : cellAt ((permuteCells ptTable)^[n] cellZeroMarked) 0 = cellAt cellZeroMarked 0 := by rw [h]
    rw [cellAt_iterate_permute_pt _ _ (by decide), cellAt_cellZeroMarked hlt, if_neg hne] at hcell
    exact absurd hcell (by decide)

end Sys2Proof.Proofs

/-! ## KSF and KSI store the schedule of KEY (R240 to R246, R248, R250, R251) -/

namespace Sys2Proof.Proofs

open Sys2Proof Sys2Proof.Machine Sys2Proof.Safety Sys2Proof.Claims Sys2Proof.Laws

/-! ### A word's step, cell by cell (R242, R244) -/

/-- Word 0 has no LFSR, so a step may treat it as the others. -/
theorem applyLfsr_ite {f : Option (Cell → Cell)} {w n : Nat} (h0 : w = 0 → f = none) (x : Cell) :
    (if 1 ≤ w ∧ n < 8 then applyLfsr f x else x) = if n < 8 then applyLfsr f x else x := by
  cases w with
  | zero => rw [h0 rfl]; simp [applyLfsr]
  | succ w => simp

theorem forwardStep_tkStepWord (p : Params) (v : Variant) (w : Nat) (t : Mat4) :
    forwardStep p v w t (tkStepWord p v w t) := by
  intro n hn
  rw [applyLfsr_ite (by rintro rfl; exact lf_zero p v), tkStepWord, cellAt_lfsrTopRows _ _ hn, cellAt_permuteCells _ _ hn,
    ptTable_getD]

/-- `PT_INV` brings the cell at place `n` back to place `PT[n]` (R241). -/
theorem ptInvTable_pt : ∀ n < 16, pt n < 16 ∧ ptInvTable.getD (pt n) 0 = n := by decide

theorem inverseStep_tkInvStepWord (p : Params) (w : Nat) (u : Mat4) : inverseStep p w u (tkInvStepWord p w u) := by
  intro n hn
  obtain ⟨hlt, hback⟩ := ptInvTable_pt n hn
  rw [applyLfsr_ite (by rintro rfl; exact lfInv_zero p), tkInvStepWord, cellAt_permuteCells _ _ hlt, hback,
    cellAt_lfsrTopRows _ _ hn]

/-! ### What the schedule memory holds after a schedule is stored -/

section

variable {p : Params} {e : Engine}

/-- Entry `n` is the tweakey words of KEY after `n` steps (R243, R248). -/
theorem schedRead_buildSchedule (hz : e.z ≤ 4) {n w : Nat} (hn : n ≤ rEff p e) (hw : w < e.z) :
    (stepTimes (tkStep p e.variant) n (tkWords e.variant e.z e.key))[w]? =
      some (schedRead (buildSchedule p e).sched n w) :=
  schedRead_stored p e.variant (rEff p e) _ e.sched hn (by rwa [length_tkWords]) (by rwa [length_tkWords])

theorem schedRead_buildSchedule_zero (hz : e.z ≤ 4) {w : Nat} (hw : w < e.z) :
    schedRead (buildSchedule p e).sched 0 w = keyMat e.key (tkOffset e.variant w) :=
  Option.some.inj ((schedRead_buildSchedule hz (Nat.zero_le _) hw).symm.trans (getElem?_tkWords e.variant e.key hw))

theorem schedRead_buildSchedule_succ (hz : e.z ≤ 4) {k w : Nat} (hk : k < rEff p e) (hw : w < e.z) :
    schedRead (buildSchedule p e).sched (k + 1) w =
      tkStepWord p e.variant w (schedRead (buildSchedule p e).sched k w) := by
  have hnext := schedRead_buildSchedule hz (Nat.succ_le_of_lt hk) hw
  rw [stepTimes_succ', getElem?_tkStep, schedRead_buildSchedule hz hk.le hw] at hnext
  exact (Option.some.inj hnext).symm

/-- Bytes outside the stored words keep what they held (log entry 18). -/
theorem read_buildSchedule_outside {a : Nat} (ha : outsideEntries (rEff p e) e.z a) :
    Memory.read (buildSchedule p e).sched a = Memory.read e.sched a :=
  read_storeEntries_outside 0 e.z _ e.sched (fun ts hts => by rw [length_of_mem_scheduleForward hts, length_tkWords])
    fun k w hk hw => by
      rw [length_scheduleForward] at hk
      rw [Nat.zero_add]
      exact ha k w (by omega) hw

theorem buildSchedule_schedLen : (buildSchedule p e).schedLen = BitVec.ofNat 9 (rEff p e + 1) := by
  rw [← length_scheduleForward p e.variant (rEff p e) (tkWords e.variant e.z e.key)]; rfl

/-- `buildSchedule` writes the schedule memory and `SCHED_LEN` only. -/
theorem buildSchedule_eq : buildSchedule p e =
    { e with sched := (buildSchedule p e).sched, schedLen := BitVec.ofNat 9 (rEff p e + 1) } := by
  rw [← buildSchedule_schedLen]; rfl

end

/-! ### KSF -/

/-- The first cell of tweakey word `w`, as the claims read it from CFG (R48, R240). -/
theorem tkOffset_eq {e : Engine} (h : e.variant ≠ .reserved) (w : Nat) :
    tkOffset e.variant w = (if e.cfg.variant = 2 then 32 else 0) + 16 * w := by
  by_cases hv : e.cfg.variant = 2
  · rw [tkOffset, isAB_of_variant_two hv, if_pos hv]; rfl
  · have hAB : e.variant.isAB = true := by
      rwa [← Bool.not_eq_false, isAB_eq_false_iff h, variant_eq_c_iff]
    rw [tkOffset, if_pos hAB, if_neg hv, Nat.zero_add]

/-- Settles O25: KSF stores the schedule of KEY, whose entries the laws of the schedule give. -/
theorem ksfResult : Obligations.KsfResult := by
  intro s h
  obtain ⟨hres, hz, -, -, -⟩ := scheduleLegal_of_checks (runs_iff_checks_pass.mp h)
  have hz4 := z_le_four_of_zLegal hz
  have hr := rEff_eq_effectiveRounds (p := Config.params) (zLegal_iff_wordCountLegal.mp hz)
  refine ⟨(buildSchedule Config.params s.engine).sched, ?_, fun w n hw hn => ?_, fun k w hk hw => ?_, fun a ha => ?_⟩
  · rw [exec_of_runs h, commandEffect, buildSchedule_eq, hr]; rfl
  · rw [schedRead_buildSchedule_zero hz4 hw, cellAt_keyMat _ _ hn, tkOffset_eq hres]
  · rw [schedRead_buildSchedule_succ hz4 (hr ▸ hk) hw]
    exact forwardStep_tkStepWord _ _ _ _
  · exact read_buildSchedule_outside (hr ▸ ha)

/-! ### KSI -/

section

variable {p : Params} {e : Engine}

/-- Tweakey word `w` of Variant C stands at `32 + 16w` of KEY (R48). -/
theorem tkOffset_c (w : Nat) : tkOffset .c w = 32 + 16 * w := rfl

/-- The cells of the tweakey region are those of the tweakey words. -/
theorem cellAt_eq_of_tkWords {key key' : KeyCells} (h : tkWords .c 4 key = tkWords .c 4 key') {w n : Nat} (hw : w < 4)
    (hn : n < 16) : cellAt key (32 + 16 * w + n) = cellAt key' (32 + 16 * w + n) := by
  have hword : keyMat key (tkOffset .c w) = keyMat key' (tkOffset .c w) := by
    rw [← Option.some_inj, ← getElem?_tkWords _ _ hw, h, getElem?_tkWords _ _ hw]
  have hcell := congrArg (cellAt · n) hword
  simpa only [cellAt_keyMat _ _ hn, tkOffset_c] using hcell

/-- Keys with the same tweakey words and the same cells outside them are the same. -/
theorem key_eq_of_tkWords {key key' : KeyCells} (h : tkWords .c 4 key = tkWords .c 4 key')
    (ho : ∀ n, n < 100 → n < 32 ∨ 96 ≤ n → cellAt key n = cellAt key' n) : key = key' :=
  cells_ext fun n hn => by
    by_cases hout : n < 32 ∨ 96 ≤ n
    · exact ho n hn hout
    · have hcell := cellAt_eq_of_tkWords h (w := (n - 32) / 16) (n := (n - 32) % 16) (by omega) (by omega)
      rwa [show 32 + 16 * ((n - 32) / 16) + (n - 32) % 16 = n by omega] at hcell

@[simp] theorem setTweakeyRegion_variant (key : KeyCells) : (e.setTweakeyRegion key).variant = e.variant := rfl
@[simp] theorem setTweakeyRegion_z (key : KeyCells) : (e.setTweakeyRegion key).z = e.z := rfl

/-- Outside the tweakey region KSI leaves KEY (R246). -/
theorem cellAt_ksiKey_outside {n : Nat} (hn : n < 100) (ho : n < 32 ∨ 96 ≤ n) : cellAt (ksiKey p e) n = cellAt e.key n :=
  cellAt_withTkWordsFrom_outside _ _ (by rw [length_stepTimes (length_tkInvStep p), length_tkWords]) hn ho

/-- KSI writes the schedule memory, `SCHED_LEN`, KEY and the marks of its tweakey words only. -/
theorem ksiEffect_eq (hv : e.variant = .c) (hz : e.z = 4) : ksiEffect p e =
    { e with sched := (ksiEffect p e).sched, schedLen := BitVec.ofNat 9 (rEff p e + 1), key := ksiKey p e,
             written := { e.written with key := markTweakeyWords e.written.key } } := by
  rw [ksiEffect_eq_buildSchedule hv hz]
  exact buildSchedule_eq

/-- Entry 0 is the tweakey words of the KEY that KSI leaves. -/
theorem schedRead_ksiEffect_zero (hv : e.variant = .c) (hz : e.z = 4) {w : Nat} (hw : w < 4) :
    schedRead (ksiEffect p e).sched 0 w = keyMat (ksiKey p e) (32 + 16 * w) := by
  have hzero := schedRead_buildSchedule_zero (p := p) (e := e.setTweakeyRegion (ksiKey p e)) hz.le (hw.trans_eq hz.symm)
  rwa [← ksiEffect_eq_buildSchedule hv hz, setTweakeyRegion_variant, hv, tkOffset_c] at hzero

/-- Each entry is one inverse step from the later one (R244). -/
theorem schedRead_ksiEffect_pred (hv : e.variant = .c) (hz : e.z = 4) {k w : Nat} (hk : k < rEff p e) (hw : w < 4) :
    schedRead (ksiEffect p e).sched k w = tkInvStepWord p w (schedRead (ksiEffect p e).sched (k + 1) w) := by
  have hsucc := schedRead_buildSchedule_succ (p := p) (e := e.setTweakeyRegion (ksiKey p e)) hz.le hk (hw.trans_eq hz.symm)
  rw [← ksiEffect_eq_buildSchedule hv hz, setTweakeyRegion_variant, hv] at hsucc
  rw [hsucc, tkInvStepWord_tkStepWord]

/-- The last entry is the tweakey region that KSI found in KEY (R251). -/
theorem schedRead_ksiEffect_last (hv : e.variant = .c) (hz : e.z = 4) {w : Nat} (hw : w < 4) :
    schedRead (ksiEffect p e).sched (rEff p e) w = keyMat e.key (32 + 16 * w) := by
  have hlast := schedRead_buildSchedule (p := p) (e := e.setTweakeyRegion (ksiKey p e)) hz.le (Nat.le_refl (rEff p e))
    (hw.trans_eq hz.symm)
  rw [← ksiEffect_eq_buildSchedule hv hz, setTweakeyRegion_variant, hv, setTweakeyRegion_z, hz,
    setTweakeyRegion_key, tkWords_ksiKey, stepTimes_tkStep_tkInvStep, getElem?_tkWords _ _ hw] at hlast
  exact (Option.some.inj hlast).symm

theorem read_ksiEffect_outside (hv : e.variant = .c) (hz : e.z = 4) {a : Nat} (ha : outsideEntries (rEff p e) 4 a) :
    Memory.read (ksiEffect p e).sched a = Memory.read e.sched a := by
  rw [ksiEffect_eq_buildSchedule hv hz]
  exact read_buildSchedule_outside (e := e.setTweakeyRegion (ksiKey p e)) (hz.symm ▸ ha)

end

/-- What KSI runs with: Variant C, four words, and the round count of CFG (R331). -/
theorem config_of_runs_ksi {e : Engine} (h : runs .ksi e) :
    e.variant = .c ∧ e.z = 4 ∧ rEff Config.params e = effectiveRounds Config.params e.cfg := by
  obtain ⟨hv, -, hz, -⟩ := variant_and_scheduleLegal_of_checks (runs_iff_checks_pass.mp h)
  exact ⟨hv, by simpa [hv, zLegal] using hz, rEff_eq_effectiveRounds (zLegal_iff_wordCountLegal.mp hz)⟩

/-- Settles O26: KSI stores the forward schedule of the KEY it leaves, and a forward step undone is an inverse step. -/
theorem ksiResult : Obligations.KsiResult := by
  intro s h
  obtain ⟨hv, hz, hr⟩ := config_of_runs_ksi h
  refine ⟨(ksiEffect Config.params s.engine).sched, ksiKey Config.params s.engine, markTweakeyWords s.engine.written.key,
    ?_, fun w n hw hn => ?_, fun k w hk hw => ?_, fun w n hw hn => ?_, fun n ho => ?_, fun k => ?_, fun a ha => ?_⟩
  · rw [exec_of_runs h, commandEffect, ksiEffect_eq hv hz, hr]; rfl
  · rw [← hr, schedRead_ksiEffect_last hv hz hw, cellAt_keyMat _ _ hn]
  · have hpred := schedRead_ksiEffect_pred (p := Config.params) (k := k) hv hz (by rwa [hr]) hw
    rw [hpred]
    exact inverseStep_tkInvStepWord _ _ _
  · rw [schedRead_ksiEffect_zero hv hz hw, cellAt_keyMat _ _ hn]
  · have hcell := cellAt_ksiKey_outside (p := Config.params) (e := s.engine) n.isLt ho
    rwa [cellAt_of_lt _ n.isLt, cellAt_of_lt _ n.isLt] at hcell
  · simp [markTweakeyWords]
  · exact read_ksiEffect_outside hv hz (hr ▸ ha)

/-! ### KSI after KSF (R245) -/

/-- A command whose checks are among those of a command that runs would run too (R332). -/
theorem runs_of_checks_subset {i j : Instr} {e : Engine} (hsub : commandChecks j ⊆ commandChecks i) (h : runs i e) :
    runs j e := by
  have hpass := firstFault_eq_none_iff.mp (runs_iff_checks_pass.mp h)
  exact runs_iff_checks_pass.mpr (firstFault_eq_none_iff.mpr fun k hk => hpass k (hsub hk))

/-- The checks of KSF are among those of KSI (R333). -/
theorem runs_ksf_of_runs_ksi {e : Engine} (h : runs .ksi e) : runs .ksf e :=
  runs_of_checks_subset (by simp [commandChecks, checksForwardCipher, checksInverseCipher]) h

/-- The checks of KSI look at CFG and at the form of KEY only (R333). -/
theorem runs_ksi_congr {e e' : Engine} (hc : e'.cfg = e.cfg) (hk : keyWellFormed e'.key = keyWellFormed e.key)
    (h : runs .ksi e) : runs .ksi e' := by
  refine runs_iff_checks_pass.mpr ((firstFault_congr fun k hmem => ?_).trans (runs_iff_checks_pass.mp h))
  cases k with
  | variant | onlyC | tkCount | rounds | roundIndex r | lfsrWord w | keyFormat =>
    simp only [checkPasses, variant_congr hc, z_congr hc, rEff_congr _ hc, hk]
  | schedule r => exact absurd (mem_commandChecks_iff.mp hmem) nofun

/-- The stored entries depend on CFG and KEY only. -/
theorem schedRead_buildSchedule_congr {p : Params} {e e' : Engine} (hc : e'.cfg = e.cfg) (hk : e'.key = e.key)
    (hz : e.z ≤ 4) {n w : Nat} (hn : n ≤ rEff p e) (hw : w < e.z) :
    schedRead (buildSchedule p e').sched n w = schedRead (buildSchedule p e).sched n w := by
  have hz' := z_congr hc
  have hread := schedRead_buildSchedule (p := p) (e := e') (n := n) (hz' ▸ hz) (by rwa [rEff_congr p hc]) (hz' ▸ hw)
  rw [variant_congr hc, hz', hk, schedRead_buildSchedule hz hn hw] at hread
  exact (Option.some.inj hread).symm

/-- KSI finds the KEY whose schedule ends in the tweakey region of KEY (R245, R251). -/
theorem ksiKey_eq {p : Params} {e : Engine} {key : KeyCells}
    (hlast : tkWords .c 4 e.key = stepTimes (tkStep p .c) (rEff p e) (tkWords .c 4 key))
    (ho : ∀ n, n < 100 → n < 32 ∨ 96 ≤ n → cellAt e.key n = cellAt key n) : ksiKey p e = key :=
  key_eq_of_tkWords (by rw [tkWords_ksiKey, hlast, stepTimes_tkInvStep_tkStep])
    fun n hn hout => (cellAt_ksiKey_outside hn hout).trans (ho n hn hout)

/-- A KEY that holds the last entry of the stored schedule in its tweakey region. -/
theorem tkWords_eq_last_entry {p : Params} {e : Engine} {key' : KeyCells} (hv : e.variant = .c) (hz : e.z = 4)
    (hlast : ∀ w n, w < 4 → n < 16 →
      cellAt key' (32 + 16 * w + n) = cellAt (schedRead (buildSchedule p e).sched (rEff p e) w) n) :
    tkWords .c 4 key' = stepTimes (tkStep p .c) (rEff p e) (tkWords .c 4 e.key) := by
  apply List.ext_getElem?
  intro w
  by_cases hw : w < 4
  · have hentry := schedRead_buildSchedule (p := p) hz.le (Nat.le_refl (rEff p e)) (hw.trans_eq hz.symm)
    rw [hv, hz] at hentry
    rw [hentry, getElem?_tkWords _ _ hw, tkOffset_c]
    exact congrArg some (cells_ext fun n hn => (cellAt_keyMat _ _ hn).trans (hlast w n hw hn))
  · rw [List.getElem?_eq_none, List.getElem?_eq_none] <;>
      simp only [length_stepTimes (length_tkStep p .c), length_tkWords] <;> omega

/-- The engine that KSF leaves, with other cells in KEY. -/
def afterKsfWithKey (p : Params) (e : Engine) (key' : KeyCells) : Engine :=
  { finish (buildSchedule p e) with key := key' }

/-- KSI from the last entry of KSF's schedule stores the schedule of KSF's KEY (R245, R251). -/
theorem ksiEffect_afterKsfWithKey {p : Params} {e : Engine} {key' : KeyCells} (hv : e.variant = .c) (hz : e.z = 4)
    (hlast : ∀ w n, w < 4 → n < 16 →
      cellAt key' (32 + 16 * w + n) = cellAt (schedRead (buildSchedule p e).sched (rEff p e) w) n)
    (ho : ∀ n, n < 100 → n < 32 ∨ 96 ≤ n → cellAt key' n = cellAt e.key n) :
    ksiEffect p (afterKsfWithKey p e key') =
      buildSchedule p ((afterKsfWithKey p e key').setTweakeyRegion e.key) := by
  have hwords := tkWords_eq_last_entry hv hz hlast
  have hkey : ksiKey p (afterKsfWithKey p e key') = e.key := ksiKey_eq hwords ho
  rw [ksiEffect_eq_buildSchedule (e := afterKsfWithKey p e key') hv hz, hkey]

/-- Settles O35: as many inverse steps as KSF made forward steps give back the tweakey words, and both commands store the schedule
of that one KEY. -/
theorem ksiUndoesKsf : Obligations.KsiUndoesKsf := by
  intro s key' h
  obtain ⟨hv, hz, hr⟩ := config_of_runs_ksi h
  have hksf : exec .ksf s = .next { s with engine := finish (buildSchedule Config.params s.engine) } :=
    exec_of_runs (runs_ksf_of_runs_ksi h)
  refine ⟨_, hksf, fun hlast hout => ?_⟩
  rw [← hr] at hlast ⊢
  have ho : ∀ n, n < 100 → n < 32 ∨ 96 ≤ n → cellAt key' n = cellAt s.engine.key n := fun n hn hno => by
    rw [cellAt_of_lt _ hn, cellAt_of_lt _ hn]; exact hout ⟨n, hn⟩ hno
  have hruns : runs .ksi (afterKsfWithKey Config.params s.engine key') :=
    runs_ksi_congr (e := s.engine) rfl (keyWellFormed_congr fun n hlo hhi => ho n hhi (.inr hlo)) h
  have hksi := exec_of_runs (s := { s with engine := afterKsfWithKey Config.params s.engine key' }) hruns
  rw [commandEffect, ksiEffect_afterKsfWithKey hv hz hlast ho] at hksi
  refine ⟨_, hksi, rfl, rfl, ?_, fun k w hk hw => ?_⟩
  · exact buildSchedule_schedLen.trans buildSchedule_schedLen.symm
  · exact schedRead_buildSchedule_congr (e := s.engine)
      (e' := (afterKsfWithKey Config.params s.engine key').setTweakeyRegion s.engine.key) rfl rfl hz.le hk (hw.trans_eq hz.symm)

end Sys2Proof.Proofs

/-! ## Rounds and the cipher as sequences of commands, and what undoes them (R270 to R274, R280 to R283) -/

namespace Sys2Proof.Proofs

open Sys2Proof Sys2Proof.Machine Sys2Proof.Safety Sys2Proof.Claims Sys2Proof.Laws

/-! ### Commands that write STATE, one after the other -/

/-- In `s`, and in `s` after commands that wrote STATE only, the command puts `f` of STATE into STATE, completes, and does nothing
else. -/
def AppliesFrom (s : State) (i : Instr) (f : Mat4 → Mat4) : Prop :=
  exec i s = .next (stateIs s (f s.engine.state)) ∧ ∀ m, exec i (stateIs s m) = .next (stateIs s (f m))

section

variable {i : Instr} {s : State} {r : Nat} {f : Mat4 → Mat4}

theorem AppliesFrom.runAll_first (h : AppliesFrom s i f) (is : List Instr) :
    runAll (i :: is) s = runAll is (stateIs s (f s.engine.state)) := runAll_cons h.1

theorem AppliesFrom.runAll_next (h : AppliesFrom s i f) (is : List Instr) (m : Mat4) :
    runAll (i :: is) (stateIs s m) = runAll is (stateIs s (f m)) := runAll_cons (h.2 m)

theorem AppliesLayer.appliesFrom (h : AppliesLayer i f) : AppliesFrom s i f := ⟨h s, fun m => h (stateIs s m)⟩

/-- A command that runs in `s` runs whatever STATE holds, so it applies `f` if its effect does. -/
theorem appliesFrom_of_runs (h : runs i s.engine)
    (hs : commandEffect i Config.params s.engine = s.engine.setState (f s.engine.state))
    (hm : ∀ m, commandEffect i Config.params (stateIs s m).engine = (stateIs s m).engine.setState (f m)) :
    AppliesFrom s i f :=
  ⟨exec_eq_stateIs h hs, fun m => exec_eq_stateIs (runs_stateIs m h) (hm m)⟩

theorem ac_appliesFrom (h : runs (.ac r) s.engine) : AppliesFrom s (.ac r) (addConstants Config.params s.engine · r) :=
  appliesFrom_of_runs h rfl fun _ => rfl

theorem art_appliesFrom (h : runs (.art r) s.engine) : AppliesFrom s (.art r) (addRoundTweakey s.engine · r) :=
  appliesFrom_of_runs h rfl fun _ => rfl

theorem rnde_appliesFrom (h : runs (.rnde r) s.engine) : AppliesFrom s (.rnde r) (roundF Config.params s.engine · r) :=
  appliesFrom_of_runs h rfl fun _ => rfl

theorem rndd_appliesFrom (h : runs (.rndd r) s.engine) : AppliesFrom s (.rndd r) (roundI Config.params s.engine · r) :=
  appliesFrom_of_runs h rfl fun _ => rfl

end

/-! ### A round is its five layers (R270, R271) -/

/-- Settles O27: each of the five commands applies its layer to STATE, and `RoundF` is the five layers in that order. -/
theorem rndeIsFiveLayers : Obligations.RndeIsFiveLayers := by
  intro s r h
  have hac : runs (.ac r) s.engine :=
    runs_of_checks_subset (by simp [commandChecks, checksAc, checksForwardRound]) h
  have hart : runs (.art r) s.engine := h
  refine ⟨_, (rnde_appliesFrom h).1, ?_⟩
  rw [sc_appliesLayer.appliesFrom.runAll_first, (ac_appliesFrom hac).runAll_next, (art_appliesFrom hart).runAll_next,
    sr_appliesLayer.appliesFrom.runAll_next, mc_appliesLayer.appliesFrom.runAll_next]
  rfl

section

variable {p : Params} {e : Engine}

/-- RNDD runs under Variant C only (R331). -/
theorem not_isAB_of_runs_rndd {r : Nat} (h : runs (.rndd r) e) : e.variant.isAB = false := by
  rw [variant_eq_c_of_checks (runs_iff_checks_pass.mp h) rfl]; rfl

theorem addConstants_of_not_isAB (hv : e.variant.isAB = false) (m : Mat4) (r : Nat) :
    addConstants p e m r = addConstantsC p e.key m r := by
  rw [addConstants, hv, if_neg Bool.false_ne_true]

theorem addRoundTweakey_of_not_isAB (hv : e.variant.isAB = false) (m : Mat4) (r : Nat) :
    addRoundTweakey e m r = addTweakeyC e m r := by
  rw [addRoundTweakey, hv, if_neg Bool.false_ne_true]

/-- The inverse round is the inverse layers in reverse order, with the XOR layers of the engine's variant (R271). -/
theorem roundI_of_not_isAB (hv : e.variant.isAB = false) (m : Mat4) (r : Nat) :
    roundI p e m r =
      subCellsInv (addConstants p e (addRoundTweakey e (shiftRowsInv (mixColumnsInv m)) r) r) := by
  rw [addConstants_of_not_isAB hv, addRoundTweakey_of_not_isAB hv, roundI]

end

/-- Settles O28: each of the five commands applies its layer to STATE, and under Variant C `RoundI` is the five in that order. -/
theorem rnddIsFiveInverseLayers : Obligations.RnddIsFiveInverseLayers := by
  intro s r h
  have hac : runs (.ac r) s.engine :=
    runs_of_checks_subset (by simp [commandChecks, checksAc, checksInverseRound]) h
  have hart : runs (.art r) s.engine :=
    runs_of_checks_subset (by simp [commandChecks, checksForwardRound, checksInverseRound]) h
  refine ⟨_, (rndd_appliesFrom h).1, ?_⟩
  rw [mci_appliesLayer.appliesFrom.runAll_first, sri_appliesLayer.appliesFrom.runAll_next,
    (art_appliesFrom hart).runAll_next, (ac_appliesFrom hac).runAll_next, sci_appliesLayer.appliesFrom.runAll_next]
  exact congrArg (fun m => Host.Outcome.next (stateIs s m)) (roundI_of_not_isAB (not_isAB_of_runs_rndd h) _ _).symm

/-! ### Rounds undo each other (R271) -/

section

variable {p : Params} {e : Engine} (hv : e.variant.isAB = false)

include hv

theorem roundI_roundF (m : Mat4) (r : Nat) : roundI p e (roundF p e m r) r = m := by
  rw [roundI_of_not_isAB hv, roundF, mixColumnsInv_mixColumns, shiftRowsInv_shiftRows, addRoundTweakey_cancel,
    addConstants_cancel, subCellsInv_subCells]

theorem roundF_roundI (m : Mat4) (r : Nat) : roundF p e (roundI p e m r) r = m := by
  rw [roundI_of_not_isAB hv, roundF, subCells_subCellsInv, addConstants_cancel, addRoundTweakey_cancel,
    shiftRows_shiftRowsInv, mixColumns_mixColumnsInv]

/-- `Decrypt` undoes `Encrypt` with the same schedule (R274). -/
theorem decrypt_encrypt (m : Mat4) (n : Nat) : decrypt p e (encrypt p e m n) n = m := by
  induction n with
  | zero => rfl
  | succ n ih => rw [encrypt, decrypt, roundI_roundF hv, ih]

end

/-- Settles O33: RNDE runs wherever RNDD does, both read what neither writes, and the two round functions are inverse under
Variant C. -/
theorem roundAndInverseRoundCancel : Obligations.RoundAndInverseRoundCancel := by
  intro s r h
  have hv := not_isAB_of_runs_rndd h
  have hrnde : runs (.rnde r) s.engine :=
    runs_of_checks_subset (by simp [commandChecks, checksForwardRound, checksInverseRound]) h
  constructor
  · rw [(rnde_appliesFrom hrnde).runAll_first, (rndd_appliesFrom h).runAll_next, roundI_roundF hv, runAll]
  · rw [(rndd_appliesFrom h).runAll_first, (rnde_appliesFrom hrnde).runAll_next, roundF_roundI hv, runAll]

/-! ### Rounds in sequence (R272, R273) -/

theorem encrypt_eq_foldl (p : Params) (e : Engine) (m : Mat4) (n : Nat) :
    encrypt p e m n = (List.range n).foldl (roundF p e) m := by
  induction n with
  | zero => rfl
  | succ n ih => rw [encrypt, ih, List.range_succ, List.foldl_append]; rfl

theorem decrypt_eq_foldl (p : Params) (e : Engine) (m : Mat4) (n : Nat) :
    decrypt p e m n = (List.range n).reverse.foldl (roundI p e) m := by
  induction n generalizing m with
  | zero => rfl
  | succ n ih => rw [decrypt, ih, List.range_succ, List.reverse_append]; rfl

section

variable {s : State} {cmd : Nat → Instr} {round : Mat4 → Nat → Mat4}

/-- Round commands from a state whose STATE was written. -/
theorem runAll_rounds_next {js : List Nat} (h : ∀ r ∈ js, AppliesFrom s (cmd r) (round · r)) (m : Mat4) :
    runAll (js.map cmd) (stateIs s m) = .next (stateIs s (js.foldl round m)) := by
  induction js generalizing m with
  | nil => rfl
  | cons r rs ih =>
    obtain ⟨hr, hrs⟩ := List.forall_mem_cons.mp h
    rw [List.map_cons, hr.runAll_next, ih hrs, List.foldl_cons]

/-- One or more round commands change STATE only; none at all would leave the flags as well. -/
theorem runAll_rounds {js : List Nat} (hne : js ≠ []) (h : ∀ r ∈ js, AppliesFrom s (cmd r) (round · r)) :
    runAll (js.map cmd) s = .next (stateIs s (js.foldl round s.engine.state)) := by
  obtain ⟨r, rs, rfl⟩ := List.exists_cons_of_ne_nil hne
  obtain ⟨hr, hrs⟩ := List.forall_mem_cons.mp h
  rw [List.map_cons, hr.runAll_first, runAll_rounds_next hrs, List.foldl_cons]

end

/-! ### ENC and DEC are KSF and the rounds (R280, R281) -/

/-- The machine that KSF leaves. -/
def afterKsf (s : State) : State := { s with engine := finish (buildSchedule Config.params s.engine) }

section

variable {s : State} {r : Nat}

theorem exec_ksf_of_runs (h : runs .ksf s.engine) : exec .ksf s = .next (afterKsf s) := exec_of_runs h

/-- The round functions read the same before and after the flags of completion. -/
theorem sameRoundInputs_afterKsf :
    SameRoundInputs (buildSchedule Config.params s.engine) (afterKsf s).engine := ⟨rfl, rfl, fun _ _ _ => rfl⟩

/-- ENC changes what KSF changes, and STATE (R280). -/
theorem exec_enc_of_runs (h : runs .enc s.engine) : exec .enc s = .next (stateIs (afterKsf s)
    (encrypt Config.params (afterKsf s).engine s.engine.state (rEff Config.params s.engine))) := by
  rw [exec_of_runs h, encrypt_congr _ sameRoundInputs_afterKsf]
  rfl

/-- DEC changes what KSF changes, and STATE (R281). -/
theorem exec_dec_of_runs (h : runs .dec s.engine) : exec .dec s = .next (stateIs (afterKsf s)
    (decrypt Config.params (afterKsf s).engine s.engine.state (rEff Config.params s.engine))) := by
  obtain ⟨hv, -⟩ := variant_and_scheduleLegal_of_checks (runs_iff_checks_pass.mp h)
  rw [exec_of_runs h, decrypt_congr _ sameRoundInputs_afterKsf (congrArg Variant.isAB hv)]
  rfl

/-- `SCHED_LEN` holds `R_eff + 1`: a legal round count fits its 9 bits (R47). -/
theorem schedLen_toNat_afterKsf (hl : scheduleLegal Config.params s.engine) :
    (afterKsf s).engine.schedLen.toNat = rEff Config.params s.engine + 1 := by
  obtain ⟨-, -, -, hmax, -⟩ := hl
  have hr255 := hmax.trans (rMax_le_255 Config.params s.engine.variant)
  show (buildSchedule Config.params s.engine).schedLen.toNat = _
  rw [buildSchedule_schedLen, BitVec.toNat_ofNat]
  omega

/-- After KSF the checks of a forward round pass for every round of the schedule (R333). -/
theorem runs_rnde_afterKsf (hl : scheduleLegal Config.params s.engine) (hr : r < rEff Config.params s.engine) :
    runs (.rnde r) (afterKsf s).engine := by
  have hlen := schedLen_toNat_afterKsf hl
  obtain ⟨hv, hz, -, hmax, hkey⟩ := hl
  refine runs_iff_checks_pass.mpr (firstFault_eq_none_iff.mpr ?_)
  simp only [commandChecks, checksForwardRound, List.forall_mem_cons]
  refine ⟨decide_eq_true hv, hz, decide_eq_true (hr.trans_le hmax), ?_, decide_eq_true (by omega), List.forall_mem_nil _⟩
  by_cases hc : s.engine.variant = .c
  · exact Bool.or_eq_true_iff.mpr (.inr (hkey hc))
  · exact Bool.or_eq_true_iff.mpr (.inl (decide_eq_true hc))

/-- Under Variant C the checks of an inverse round are those of the forward round (R333). -/
theorem runs_rndd_of_runs_rnde {e : Engine} (hv : e.variant = .c) (h : runs (.rnde r) e) : runs (.rndd r) e := by
  have hpass := firstFault_eq_none_iff.mp (runs_iff_checks_pass.mp h)
  refine runs_iff_checks_pass.mpr (firstFault_eq_none_iff.mpr ?_)
  simp only [commandChecks, checksForwardRound, checksInverseRound, List.forall_mem_cons] at hpass ⊢
  exact ⟨hpass.1, decide_eq_true hv, hpass.2⟩

end

/-- A legal round count is at least 1 (R331). -/
theorem range_rEff_ne_nil {p : Params} {e : Engine} (hl : scheduleLegal p e) : List.range (rEff p e) ≠ [] := by
  obtain ⟨-, -, hpos, -⟩ := hl
  exact mt List.range_eq_nil.mp (by omega)

/-- Settles O29: ENC is KSF's effect and `Encrypt` on its schedule, which is the sequence of the rounds that RNDE does; after KSF
every one of them runs. -/
theorem encIsKsfThenRounds : Obligations.EncIsKsfThenRounds := by
  intro s h
  have hksf : runs .ksf s.engine := h
  have hl := scheduleLegal_of_checks (runs_iff_checks_pass.mp h)
  obtain ⟨-, hz, -⟩ := id hl
  refine ⟨afterKsf s, _, exec_enc_of_runs h, exec_ksf_of_runs hksf, ?_⟩
  rw [← rEff_eq_effectiveRounds (zLegal_iff_wordCountLegal.mp hz), runAll_cons (exec_ksf_of_runs hksf), encrypt_eq_foldl]
  exact runAll_rounds (range_rEff_ne_nil hl) fun r hr =>
    rnde_appliesFrom (runs_rnde_afterKsf hl (List.mem_range.mp hr))

/-- Settles O30: DEC is KSF's effect and `Decrypt` on its schedule, which is the sequence of the rounds that RNDD does from the
last to the first; after KSF every one of them runs. -/
theorem decIsKsfThenInverseRounds : Obligations.DecIsKsfThenInverseRounds := by
  intro s h
  have hksf : runs .ksf s.engine := runs_ksf_of_runs_ksi h
  obtain ⟨hv, hl⟩ := variant_and_scheduleLegal_of_checks (runs_iff_checks_pass.mp h)
  obtain ⟨-, hz, -⟩ := id hl
  refine ⟨afterKsf s, _, exec_dec_of_runs h, exec_ksf_of_runs hksf, ?_⟩
  rw [← rEff_eq_effectiveRounds (zLegal_iff_wordCountLegal.mp hz), runAll_cons (exec_ksf_of_runs hksf), decrypt_eq_foldl]
  refine runAll_rounds (by simpa using range_rEff_ne_nil hl) fun r hr => rndd_appliesFrom ?_
  exact runs_rndd_of_runs_rnde hv (runs_rnde_afterKsf hl (List.mem_range.mp (List.mem_reverse.mp hr)))

/-! ### DEC undoes ENC (R274) -/

section

variable {p : Params} {e e' : Engine} (hk : e'.key = e.key)

include hk

/-- Round `r` of Variant C reads KEY and the four words of entry `r` (R195, R197, R271). -/
theorem roundI_congr_entry {r : Nat} (hs : ∀ w < 4, schedRead e'.sched r w = schedRead e.sched r w) (m : Mat4) :
    roundI p e' m r = roundI p e m r := by
  have htweakey (t : Mat4) : addTweakeyC e' t r = addTweakeyC e t r := tabulate_congr fun n _ => by
    rw [hs 0 (by omega), hs 1 (by omega), hs 2 (by omega), hs 3 (by omega), hk]
  rw [roundI, roundI, htweakey, hk]

/-- `Decrypt` of `n` rounds reads KEY and the entries below `n` (R273). -/
theorem decrypt_congr_entries {n : Nat} (hs : ∀ r < n, ∀ w < 4, schedRead e'.sched r w = schedRead e.sched r w) (m : Mat4) :
    decrypt p e' m n = decrypt p e m n := by
  induction n generalizing m with
  | zero => rfl
  | succ n ih =>
    rw [decrypt, decrypt, roundI_congr_entry hk (hs n (by omega)), ih fun r hr => hs r (by omega)]

end

/-- The machine that ENC leaves. -/
def afterEnc (s : State) : State := stateIs (afterKsf s)
  (encrypt Config.params (afterKsf s).engine s.engine.state (rEff Config.params s.engine))

theorem afterKsf_key (s : State) : (afterKsf s).engine.key = s.engine.key := rfl

theorem afterEnc_key (s : State) : (afterEnc s).engine.key = s.engine.key := rfl

theorem afterEnc_cfg (s : State) : (afterEnc s).engine.cfg = s.engine.cfg := rfl

/-- DEC finds the CFG and KEY of before ENC, so it computes again the entries that ENC stored, and with these `Decrypt` undoes
`Encrypt` (R274). -/
theorem decrypt_afterEnc {s : State} (hv : s.engine.variant = .c) (hz : s.engine.z = 4) :
    decrypt Config.params (afterKsf (afterEnc s)).engine (afterEnc s).engine.state (rEff Config.params (afterEnc s).engine) =
      s.engine.state := by
  have hkey : (afterKsf (afterEnc s)).engine.key = (afterKsf s).engine.key := by
    rw [afterKsf_key, afterKsf_key, afterEnc_key]
  have hentries : ∀ r < rEff Config.params s.engine, ∀ w < 4, schedRead (afterKsf (afterEnc s)).engine.sched r w =
      schedRead (afterKsf s).engine.sched r w := fun _ hr _ hw =>
    schedRead_buildSchedule_congr (afterEnc_cfg s) (afterEnc_key s) hz.le hr.le (hw.trans_eq hz.symm)
  rw [rEff_congr _ (afterEnc_cfg s), decrypt_congr_entries hkey hentries]
  exact decrypt_encrypt (e := (afterKsf s).engine) (congrArg Variant.isAB hv) _ _

/-- Settles O34: both commands run, and DEC's rounds with the entries of the same schedule undo ENC's. -/
theorem decUndoesEnc : Obligations.DecUndoesEnc := by
  intro s h
  obtain ⟨hv, hz, -⟩ := config_of_runs_ksi h
  have henc : exec .enc s = .next (afterEnc s) := exec_enc_of_runs (runs_ksf_of_runs_ksi h)
  have hdec := exec_dec_of_runs (s := afterEnc s) (runs_ksi_congr (afterEnc_cfg s) rfl h)
  exact ⟨_, (runAll_cons henc).trans (runAll_cons hdec), rfl, decrypt_afterEnc hv hz, rfl⟩

end Sys2Proof.Proofs

/-! ## Faults: the lowest cause, refused writes and the FAULT phase (R331, R332, R340 to R344) -/

namespace Sys2Proof.Proofs

open Sys2Proof Sys2Proof.Machine Sys2Proof.Safety Sys2Proof.Claims Sys2Proof.Laws

/-! ### The lowest cause (R332) -/

/-- The checks of a command run in the order of their codes (R332, R333). -/
theorem commandChecks_sorted (i : Instr) :
    (commandChecks i).Pairwise fun j k => faultNumber j.fault < faultNumber k.fault := by
  cases i with
  | nop | xors | cpsa | sc | sci | sr | sri | mc | mci => exact .nil
  | lff w x => simp [commandChecks, checksLff, Check.fault, faultNumber]
  | lfi w x => simp [commandChecks, checksLfi, Check.fault, faultNumber]
  | ac r => simp [commandChecks, checksAc, Check.fault, faultNumber]
  | art r | rnde r => simp [commandChecks, checksForwardRound, Check.fault, faultNumber]
  | rndd r => simp [commandChecks, checksInverseRound, Check.fault, faultNumber]
  | ksf | enc => simp [commandChecks, checksForwardCipher, Check.fault, faultNumber]
  | ksi | dec => simp [commandChecks, checksInverseCipher, Check.fault, faultNumber]

/-- Where no cause has a code below `n`, the checks with codes below `n` pass: the first that failed would be a cause. -/
theorem checks_below_pass {p : Params} {e : Engine} {i : Instr} {n : Nat} (h : ∀ d, cause p i e d → n ≤ faultNumber d)
    {j : Check} (hj : j ∈ commandChecks i) (hlt : faultNumber j.fault < n) : checkPasses p e j = true := by
  induction hm : faultNumber j.fault using Nat.strong_induction_on generalizing j with
  | _ m ih =>
    by_contra hf
    have hcause : cause p i e j.fault := cause_of_check_fails hj (by simpa using hf) fun l hl hlower =>
      ih _ (hm ▸ hlower) hl (hlower.trans hlt) rfl
    exact absurd (h _ hcause) (Nat.not_le.mpr hlt)

/-- The first check that fails is the one of the lowest cause (R332). -/
theorem firstFault_of_lowest_cause {p : Params} {e : Engine} {i : Instr} {c : FaultCode} (hc : cause p i e c)
    (hlow : ∀ d, cause p i e d → faultNumber c ≤ faultNumber d) : firstFault p e (commandChecks i) = some c := by
  obtain ⟨k, hk, rfl, hf⟩ := check_fails_of_cause hc
  obtain ⟨before, after, hsplit⟩ := List.append_of_mem hk
  have hsorted := commandChecks_sorted i
  rw [hsplit, List.pairwise_append] at hsorted
  obtain ⟨-, -, hbelow⟩ := hsorted
  refine firstFault_eq_some_iff.mpr ⟨before, k, after, hsplit, fun j hj => ?_, hf, rfl⟩
  exact checks_below_pass hlow (hsplit ▸ List.mem_append_left _ hj) (hbelow j hj k List.mem_cons_self)

/-- Settles O9: the checks stand in the order of their codes, so the one that fails first is the lowest cause's. -/
theorem lowestCauseIsReported : Obligations.LowestCauseIsReported :=
  fun _ _ _ hc hlow => exec_faults (firstFault_of_lowest_cause hc hlow)

/-- The causes of a word that decodes are those of its command (R331). -/
theorem wordCause_iff_cause {p : Params} {v : Word} {e : Engine} {i : Instr} {c : FaultCode} (hd : decode v = .ok i) :
    wordCause p v e c ↔ cause p i e c := by
  simp [wordCause, hd]

/-- A word that is no command has the one cause ILLEGAL_OPCODE (R331). -/
theorem wordCause_iff_illegal {p : Params} {v : Word} {e : Engine} {c : FaultCode} (hd : ∀ i, decode v ≠ .ok i) :
    wordCause p v e c ↔ c = .illegalOpcode := by
  simp [wordCause, hd]

/-- Settles O10: the step runs the command of the word, which reports its lowest cause, or the word is no command. -/
theorem lowestCauseAtCompletion : Obligations.LowestCauseAtCompletion := by
  intro s c hb hc hlow
  by_cases hd : ∃ i, decode s.engine.cmd = .ok i
  · obtain ⟨i, hd⟩ := hd
    simp only [wordCause_iff_cause hd] at hc hlow
    obtain ⟨hnil, hturn⟩ := stepRunsDecodedCommand s i hb hd
    exact ⟨fun hp => (hnil hp).trans (lowestCauseIsReported i s c hc hlow),
      fun rest hp => (hturn rest hp).trans (lowestCauseIsReported i { s with pending := rest } c hc hlow)⟩
  · have hd : ∀ i, decode s.engine.cmd ≠ .ok i := not_exists.mp hd
    obtain rfl := (wordCause_iff_illegal hd).mp hc
    exact illegalWordFaults s hb hd

/-! ### Refused writes (R56, R344) -/

/-- While BUSY a write that only IDLE accepts sets OVR. -/
theorem writeIfIdle_busy {e : Engine} (h : e.phase = .busy) (store : Engine → Engine) :
    e.writeIfIdle store = { e with ovr := true } := by
  simp only [Engine.writeIfIdle, h]

/-- In FAULT a write that only IDLE accepts changes nothing. -/
theorem writeIfIdle_fault {e : Engine} (h : e.phase = .fault) (store : Engine → Engine) : e.writeIfIdle store = e := by
  simp only [Engine.writeIfIdle, h]

/-- The offsets of CFG, CMD, STATE, AUX and KEY reach registers that only IDLE accepts (R56, R81). -/
theorem regAt_idleOnlyOffset {off : Nat} (h : idleOnlyOffset off) (v : Word) :
    ∃ r store, regAt off = some r ∧ ∀ s, writeReg r v s = { s with engine := s.engine.writeIfIdle store } := by
  obtain ⟨h4, rfl | rfl | ⟨hlo, hhi⟩ | ⟨hlo, hhi⟩⟩ := h
  · exact ⟨.cfg, _, rfl, fun _ => rfl⟩
  · exact ⟨.cmd, _, rfl, fun _ => rfl⟩
  · obtain rfl | rfl | rfl | rfl : off = 0x040 ∨ off = 0x044 ∨ off = 0x048 ∨ off = 0x04C := by omega
    · exact ⟨.state 0, _, rfl, fun _ => rfl⟩
    · exact ⟨.state 1, _, rfl, fun _ => rfl⟩
    · exact ⟨.aux 0, _, rfl, fun _ => rfl⟩
    · exact ⟨.aux 1, _, rfl, fun _ => rfl⟩
  · obtain ⟨k, rfl⟩ : ∃ k, off = 0x080 + 4 * k := ⟨(off - 0x080) / 4, by omega⟩
    exact ⟨.key k, _, regAt_key (by omega), fun _ => rfl⟩

/-- Settles O46: such an offset reaches a register that only IDLE accepts. -/
theorem writesRefusedByPhase : Obligations.WritesRefusedByPhase := by
  intro s off v
  refine ⟨fun hoff hb => ?_, fun hoff hf => ?_⟩
  · obtain ⟨r, store, hr, hw⟩ := regAt_idleOnlyOffset hoff v
    exact writes_of_regAt hr fun t ht => by rw [hw, ht, writeIfIdle_busy hb]
  · obtain ⟨r, store, hr, hw⟩ := regAt_idleOnlyOffset hoff v
    exact writes_of_regAt hr fun t ht => by rw [hw, ht, writeIfIdle_fault hf]

/-! ### One step in general (R342, R345) -/

/-- Settles O56: in FAULT the engine's turn is a wait, and an access that is no soft reset touches the flags only. -/
theorem faultIsSticky : Obligations.FaultIsSticky := by
  intro s hf hev
  have hb : s.engine.phase ≠ .busy := by rw [hf]; decide
  obtain ⟨s', he, -, -, ⟨-, h⟩ | ⟨hb', -⟩ | ⟨hb', -⟩ | ⟨rest, hp, -⟩ | ⟨a, rest, hp, h⟩⟩ := step_cases s
  · exact ⟨s', h, he ▸ sameButFlags_refl _⟩
  · exact absurd hb' hb
  · exact absurd hb' hb
  · exact absurd rfl (hev _ rest hp).1
  · exact ⟨_, h, he ▸ sameButFlags_hostAccess (by rw [he, hf]; decide) (hev _ rest hp)⟩

/-- Settles O8: every command is a completion, and every other step is a next state outright. -/
theorem machineNeverStops : Obligations.MachineNeverStops := by
  refine ⟨fun s => ?_, fun i s => ⟨_, exec_eq_completed i s⟩⟩
  obtain ⟨s', -, -, -, ⟨-, h⟩ | ⟨-, i, -, h⟩ | ⟨-, -, h⟩ | ⟨rest, -, h⟩ | ⟨a, rest, -, h⟩⟩ := step_cases s
  · exact ⟨s', h⟩
  · exact ⟨_, h.trans (exec_eq_completed i s')⟩
  · exact ⟨_, h⟩
  · exact ⟨_, h⟩
  · exact ⟨_, h⟩

end Sys2Proof.Proofs
